-- ==== Sys2Proof/Word.lean ====
section
/-! DEFINITION. The words of the block: bytes, 32-bit registers, 6-bit cache slots, and the pixel record. -/

namespace Sys2Proof

/-- A byte of a stream, or one channel of a pixel (00_scope R7, `CHANNEL_BITS`). -/
abbrev Byte := BitVec 8

/-- A 32-bit register, offset or count (00_scope R7, `DIM_BITS`, `SIZE_BITS`). -/
abbrev Word := BitVec 32

/-- A slot index of the pixel cache (00_scope R8). -/
abbrev SlotIx := BitVec 6

/-- The pixel record of 00_scope R12; its equality is equality of all four channels. -/
structure Pixel where
  r : Byte
  g : Byte
  b : Byte
  a : Byte
  deriving DecidableEq, Repr

/-- `ZERO_PX` of 00_scope R12. -/
def zeroPx : Pixel := ⟨0, 0, 0, 0⟩

/-- `START_PX` of 00_scope R12. -/
def startPx : Pixel := ⟨0, 0, 0, 255⟩

end Sys2Proof
end

