-- ==== Sys2Proof/Config.lean ====
section
/-! DEFINITION. The constants of the format, the two parameters the spec leaves OPEN, and the free values. -/

namespace Sys2Proof

/-- `PIXELS_MAX` of 00_scope R7. -/
def pixelsMax : Nat := 400000000

/-- `MAGIC` of 00_scope R7, the bytes `q o i f`. -/
def magicWord : Word := 0x716F6966

/-- `HEADER_BYTES` of 00_scope R7. -/
def headerBytes : Word := 14

/-- `PAD_BYTES` of 00_scope R7. -/
def padBytes : Word := 8

/-- `PAD_SENTINEL` of 00_scope R7. -/
def padSentinel : List Byte := [0, 0, 0, 0, 0, 0, 0, 1]

/-- `RUN_MAX` of 00_scope R7, as the 6-bit value the run counter is compared with. -/
def runMax : BitVec 6 := 62

/-- The weights `(wr, wg, wb, wa)` of the pixel hash, any non-negative numbers (40_hash_cache R101, R102). -/
structure Weights where
  wr : Nat
  wg : Nat
  wb : Nat
  wa : Nat
  deriving DecidableEq, Repr

/-- The three values of `OPERAND_PAST_CHUNK` (42_decoder R143, D5). -/
inductive OperandPolicy where
  | readInput
  | zero
  | fault
  deriving DecidableEq, Repr

/-- What one implementation fixes: the two OPEN parameters of 00_scope R7 (log 1). -/
structure Config where
  hashW : Weights
  operandPastChunk : OperandPolicy
  deriving DecidableEq, Repr

/-- The defaults of 00_scope R7. PRESUMED, unsafe: the default weights are the spec's own general knowledge (log 1). -/
def Config.default : Config :=
  { hashW := ⟨3, 5, 7, 11⟩, operandPastChunk := .readInput }

/-- A free value: what a host read returns where the spec says any value (U9, U10) or states none (logs 8, 11).
It has no body, so no proof can see it. -/
opaque Config.freeWord : Nat → Word

end Sys2Proof
end

