-- ==== Sys2Proof/Machine/State.lean ====
section
/-! DEFINITION. The state of the block: the two engines, the four data spaces, the host's agenda; the reasons a step stops;
the state after power-on reset. -/

namespace Sys2Proof.Machine

/-- The two engines (00_scope R6). -/
inductive Engine where
  | dec
  | enc
  deriving DecidableEq, Repr

/-- The `STATE` field of an engine's status (10_state R30). -/
inductive EngineState where
  | idle
  | busy
  | done
  | error
  | aborted
  deriving DecidableEq, Repr

/-- The causes of DEC (60_exceptions R201). -/
inductive DecCause where
  | none
  | short
  | magic
  | width0
  | height0
  | channels
  | dims
  | overrun
  deriving DecidableEq, Repr

/-- The causes of ENC (60_exceptions R201). -/
inductive EncCause where
  | none
  | width0
  | height0
  | channels
  | dims
  | colorspace
  | len
  deriving DecidableEq, Repr

/-- The status registers both banks have (10_state R31 numbers 1, 7 and 8): the fields of `STATUS` (R32, R33),
`OUT_COUNT` and `ERR_INFO`. -/
structure Ctl (κ : Type) where
  state : EngineState
  cause : κ
  outCount : Word
  errInfo : Word
  deriving DecidableEq, Repr

/-- The running cache, 64 pixels (10_state R38, 40_hash_cache R100). -/
abbrev Cache := Vector Pixel 64

/-- The decoder engine: its bank (10_state R31), then its pass-local registers (R21) and `SIZE` (70 R230). -/
structure Dec where
  ctl : Ctl DecCause
  inSize : Word
  width : Word
  height : Word
  channels : Byte
  colorspace : Byte
  size : Word
  px : Pixel
  run : BitVec 6
  p : Word
  i : Word
  n : Word
  chunkEnd : Word
  cache : Cache
  deriving DecidableEq, Repr

/-- The encoder engine: its bank (10_state R31), then its pass-local registers (R27). -/
structure Enc where
  ctl : Ctl EncCause
  pixLen : Word
  width : Word
  height : Word
  channels : Byte
  colorspace : Byte
  px : Pixel
  pxPrev : Pixel
  run : BitVec 6
  i : Word
  n : Word
  cache : Cache
  deriving DecidableEq, Repr

/-- A data space as bytes: addresses strictly rising, no entry of value 0, the value an unlisted address reads as (log 4). -/
abbrev Memory := List Host.Cell

/-- What the host can do between two steps (10_state R31, R37; 70 R232). -/
inductive HostOp where
  /-- Write a register of an engine's bank. -/
  | writeReg (e : Engine) (no : Nat) (v : Word)
  /-- Read a register of an engine's bank into `hostData`. -/
  | readReg (e : Engine) (no : Nat)
  /-- Place a byte in the decoder's input space. -/
  | putByte (k : Word) (b : Byte)
  /-- Place a pixel in the encoder's input space. -/
  | putPixel (i : Word) (px : Pixel)
  /-- Read a pixel of the decoder's output space into `hostData`. -/
  | readPixel (i : Word)
  /-- Read a byte of the encoder's output space into `hostData`. -/
  | readByte (k : Word)
  deriving DecidableEq, Repr

/-- What happens next: a host operation, or an engine's turn to take one step (log 6). -/
inductive Event where
  | host (op : HostOp)
  | turn (e : Engine)
  deriving DecidableEq, Repr

/-- What a host read returned (log 8). -/
inductive HostData where
  | word (v : Word)
  | pixel (px : Pixel)
  | byte (b : Byte)
  deriving DecidableEq, Repr

/-- The machine's state. `cfg` is the machine's parameters, which no step writes (log 1); `agenda`, `hostData` and `freeCtr`
are the model's own (logs 6, 8). -/
structure State where
  cfg : Config
  dec : Dec
  enc : Enc
  decIn : Memory
  decOut : Memory
  encPix : Memory
  encBytes : Memory
  agenda : List Event
  hostData : HostData
  freeCtr : Nat
  deriving DecidableEq, Repr

/-- Why the machine is stuck. An exception of the spec is no `Fault`: it ends a pass and is a next state (60_exceptions R206). -/
inductive Fault where
  /-- Raised by a turn of DEC that is BUSY with `i >= N`: the precondition of 42_decoder R141 fails and no step is
  defined. No run from reset meets it (log 15). Safe. -/
  | slotStepOutsidePass
  /-- Raised by a host read past the end of a finished pass's output: no such address exists (20_memory R65, log 14). Safe. -/
  | noSuchOutput
  deriving DecidableEq, Repr

/-- Why the model admits no such step. -/
inductive Refusal where
  /-- Raised by a refused arm of `exec`, an instruction with no meaning yet; no arm is refused. Safe. -/
  | notModelled (mnemonic : String)
  /-- Raised by START written to an engine that is BUSY: "the model gives it no step" (60_exceptions R217, log 13). Safe. -/
  | startWhileBusy
  /-- Raised by a host that changes an engine's input space while it is BUSY (20_memory R63, 70 R234, U6, log 13). Safe. -/
  | inputChangedWhileBusy
  /-- Raised by a host read of `CMD`, which is write-only (10_state R31, log 12). Safe. -/
  | readOfWriteOnly
  deriving DecidableEq, Repr

/-- The outcome of a step of this machine. -/
abbrev Outcome := Host.Outcome State Fault Refusal

/-- The status registers at power-on (10_state R42). -/
def Ctl.reset {κ : Type} (none : κ) : Ctl κ := { state := .idle, cause := none, outCount := 0, errInfo := 0 }

/-- DEC at power-on. The bank as R42 states; `inSize` 0 (log 2) and the pass-local registers as a pass starts (log 3) are
DESIGN CHOICE, unsafe: R42 leaves them unspecified. -/
def Dec.reset : Dec :=
  { ctl := Ctl.reset .none, inSize := 0, width := 0, height := 0, channels := 0, colorspace := 0,
    size := 0, px := startPx, run := 0, p := headerBytes, i := 0, n := 0, chunkEnd := 0,
    cache := Vector.replicate 64 zeroPx }

/-- ENC at power-on. The status as R42 states; the RW registers 0 (log 2) and the pass-local registers as a pass starts
(log 3) are DESIGN CHOICE, unsafe: R42 leaves them unspecified. -/
def Enc.reset : Enc :=
  { ctl := Ctl.reset .none, pixLen := 0, width := 0, height := 0, channels := 0, colorspace := 0,
    px := startPx, pxPrev := startPx, run := 0, i := 0, n := 0,
    cache := Vector.replicate 64 zeroPx }

/-- The machine right after power-on reset (10_state R42, 70 R233): both engines IDLE, nothing in the data spaces (log 4),
no host operation pending; the parameters at their defaults (00_scope R7, log 1). -/
def State.reset : State :=
  { cfg := Config.default, dec := Dec.reset, enc := Enc.reset,
    decIn := [], decOut := [], encPix := [], encBytes := [],
    agenda := [], hostData := .word 0, freeCtr := 0 }

end Sys2Proof.Machine
end

