-- ==== Sys2Proof/Machine/Ops.lean ====
section
/-! DEFINITION. The shared operations: bytes and pixels of a data space, the hash and the cache, the status registers with the
taking of an exception, and the named updates of the engines. -/

namespace Sys2Proof.Machine

/-! ### The data spaces -/

/-- The byte at an address; an unlisted address reads as 0 (log 4). -/
def Memory.read (m : Memory) (a : Nat) : Byte :=
  match m with
  | [] => 0
  | (k, b) :: rest => if k = a then b else Memory.read rest a

/-- The memory with nothing listed at an address. -/
def Memory.erase (m : Memory) (a : Nat) : Memory := m.filter (fun c => c.1 != a)

/-- The memory with an entry put in before the first higher address. -/
def Memory.place (m : Memory) (a : Nat) (b : Byte) : Memory :=
  match m with
  | [] => [(a, b)]
  | (k, c) :: rest => if a < k then (a, b) :: (k, c) :: rest else (k, c) :: Memory.place rest a b

/-- Store a byte; storing the value an unlisted address reads as removes the entry, so that equal memories are equal lists. -/
def Memory.write (m : Memory) (a : Nat) (b : Byte) : Memory :=
  if b = 0 then Memory.erase m a else Memory.place (Memory.erase m a) a b

/-- The canonical form: addresses strictly rising, no entry equal to what an unlisted address reads as. -/
abbrev Memory.wf (m : Memory) : Prop :=
  m.Pairwise (fun c d => c.1 < d.1) ∧ ∀ c ∈ m, c.2 ≠ 0

/-- Pixel `i` of a pixel space: bytes `4i` to `4i+3` are r, g, b, a (20_memory R58). -/
def Memory.readPixel (m : Memory) (i : Nat) : Pixel :=
  ⟨Memory.read m (4 * i), Memory.read m (4 * i + 1), Memory.read m (4 * i + 2), Memory.read m (4 * i + 3)⟩

/-- Store pixel `i` of a pixel space, its four channels as one unit (20_memory R58, R60). -/
def Memory.writePixel (m : Memory) (i : Nat) (px : Pixel) : Memory :=
  Memory.write (Memory.write (Memory.write (Memory.write m (4 * i) px.r) (4 * i + 1) px.g) (4 * i + 2) px.b) (4 * i + 3) px.a

/-! ### The hash and the cache -/

/-- The slot of a pixel: a weighted sum of its channels modulo 64 (40_hash_cache R101). -/
def slotOf (w : Weights) (px : Pixel) : SlotIx :=
  BitVec.ofNat 6 ((w.wr * px.r.toNat + w.wg * px.g.toNat + w.wb * px.b.toNat + w.wa * px.a.toNat) % 64)

/-- `LOOKUP(s)` (40_hash_cache R104). -/
def Cache.lookup (cache : Cache) (s : SlotIx) : Pixel := cache[s.toNat]'s.isLt

/-- `HIT(px)`: the slot holds exactly this pixel (40_hash_cache R105). -/
def Cache.hit (c : Cache) (w : Weights) (px : Pixel) : Bool := decide (Cache.lookup c (slotOf w px) = px)

/-- `UPDATE(px)` (40_hash_cache R106). -/
def Cache.update (c : Cache) (w : Weights) (px : Pixel) : Cache :=
  c.set (slotOf w px).toNat px (slotOf w px).isLt

/-- `CLEAR` (40_hash_cache R107). -/
def Cache.clear : Cache := Vector.replicate 64 zeroPx

/-! ### The status registers -/

/-- A pass begins: BUSY, no cause, nothing emitted (70 R230, R231). -/
def Ctl.start {κ : Type} (none : κ) : Ctl κ := { state := .busy, cause := none, outCount := 0, errInfo := 0 }

/-- Taking an exception, the one operation for both engines: ERROR, the cause, the recorded info; `OUT_COUNT` keeps the count
reached (60_exceptions R206). There is no return from it: only START leaves ERROR (R208). -/
def Ctl.raise {κ : Type} (c : Ctl κ) (cause : κ) (info : Word) : Ctl κ :=
  { c with state := .error, cause := cause, errInfo := info }

/-- Cancelling a pass (60_exceptions R211). -/
def Ctl.abort {κ : Type} (c : Ctl κ) (none : κ) : Ctl κ := { c with state := .aborted, cause := none }

/-- A pass ends normally (42_decoder R154, 43_encoder R184). -/
def Ctl.finish {κ : Type} (c : Ctl κ) : Ctl κ := { c with state := .done }

/-! ### Named updates of the state -/

def State.setDec (s : State) (d : Dec) : State := { s with dec := d }
def State.setEnc (s : State) (e : Enc) : State := { s with enc := e }
def Dec.setCtl (d : Dec) (c : Ctl DecCause) : Dec := { d with ctl := c }
def Dec.setPx (d : Dec) (px : Pixel) : Dec := { d with px := px }
def Dec.setRun (d : Dec) (run : BitVec 6) : Dec := { d with run := run }
def Dec.setP (d : Dec) (p : Word) : Dec := { d with p := p }
def Enc.setCtl (e : Enc) (c : Ctl EncCause) : Enc := { e with ctl := c }
def Enc.setRun (e : Enc) (run : BitVec 6) : Enc := { e with run := run }

/-- `raise` of an exception by DEC (60_exceptions R206); no other register changes. -/
def State.raiseDec (s : State) (cause : DecCause) (info : Word) : State :=
  s.setDec (s.dec.setCtl (s.dec.ctl.raise cause info))

/-- `raise` of an exception by ENC, which records no offset (60_exceptions R201, R206). -/
def State.raiseEnc (s : State) (cause : EncCause) : State :=
  s.setEnc (s.enc.setCtl (s.enc.ctl.raise cause 0))

end Sys2Proof.Machine
end

