-- ==== Sys2Proof/Machine/Operands.lean ====
section
/-! DEFINITION. The decoder's input: `IN`, the operand fetch `OPND` under each policy, and how each operand form changes the
pixel. -/

namespace Sys2Proof.Machine

/-- `IN(k)`: the byte of the input at offset `k`, 0 at or past `SIZE` (20_memory R51). -/
def State.inByte (s : State) (k : Word) : Byte :=
  if k < s.dec.size then Memory.read s.decIn k.toNat else 0

/-- The byte an operand fetch at `k` yields when it raises nothing (42_decoder R143). Under FAULT at or past `CHUNK_END` the
fetch raises `Overrun` instead and this byte is never used (`State.overruns`). -/
def State.operandByte (s : State) (k : Word) : Byte :=
  if k < s.dec.chunkEnd then s.inByte k
  else
    match s.cfg.operandPastChunk with
    | .readInput => s.inByte k
    | .zero => 0
    | .fault => s.inByte k

/-- An operand fetch at `k` raises `Overrun(k)` (42_decoder R143, 60_exceptions R203). -/
def State.overruns (s : State) (k : Word) : Bool :=
  decide (s.cfg.operandPastChunk = .fault) && decide (s.dec.chunkEnd ≤ k)

/-- Byte `j` of the opcode at the cursor: the first by `IN`, the operands by `OPND` (42_decoder R143). -/
def State.opcodeByte (s : State) (j : Nat) : Byte :=
  if j = 0 then s.inByte s.dec.p else s.operandByte (s.dec.p + BitVec.ofNat 32 j)

/-! ### How an operand changes the pixel -/

def Pixel.setR (v : Byte) (px : Pixel) : Pixel := { px with r := v }
def Pixel.setG (v : Byte) (px : Pixel) : Pixel := { px with g := v }
def Pixel.setB (v : Byte) (px : Pixel) : Pixel := { px with b := v }
def Pixel.setA (v : Byte) (px : Pixel) : Pixel := { px with a := v }

/-- A channel plus a signed delta, modulo 256 (00_scope R10, 70 R240). -/
def addDelta (c : Byte) (d : Int) : Byte := BitVec.ofInt 8 ((c.toNat : Int) + d)

/-- The colour channels each plus its delta; alpha kept (42_decoder R149). -/
def Pixel.addDiff (dr dg db : Int) (px : Pixel) : Pixel :=
  { px with r := addDelta px.r dr, g := addDelta px.g dg, b := addDelta px.b db }

/-- Green plus `vg`, red and blue plus `vg` and their own deltas; alpha kept (42_decoder R150). -/
def Pixel.addLuma (vg drdg dbdg : Int) (px : Pixel) : Pixel :=
  Pixel.addDiff (vg + drdg) vg (vg + dbdg) px

end Sys2Proof.Machine
end

