-- ==== Sys2Proof/Machine/Slot.lean ====
section
/-! DEFINITION. The parts of a decoder slot step that every opcode shares: the fetch of the first byte, the operand fetches,
the end of the step; and the two slot steps that fetch nothing. -/

namespace Sys2Proof.Machine

/-- `EmitPx(i, px)`, `i <- i + 1`, `OUT_COUNT <- i`, and DONE when `i = N` (42_decoder R153, R154), after
`UPDATE(px)` (R152). -/
def State.endSlot (s : State) : State :=
  let d := s.dec
  { s with
    decOut := Memory.writePixel s.decOut d.i.toNat d.px
    dec :=
      { d with
        cache := Cache.update d.cache s.cfg.hashW d.px
        i := d.i + 1
        ctl := { d.ctl with
          outCount := d.i + 1
          state := if d.i + 1 = d.n then .done else d.ctl.state } } }

/-- The first byte is fetched: `p <- p + 1` (42_decoder R143). -/
def State.fetched (s : State) : State := s.setDec (s.dec.setP (s.dec.p + 1))

/-- One operand taken: the pixel changes and `p <- p + 1` (42_decoder R143). -/
def State.operandTaken (s : State) (f : Pixel → Pixel) : State :=
  s.setDec ((s.dec.setPx (f s.dec.px)).setP (s.dec.p + 1))

/-- The operand fetches of a handler in order, each with what it does to the pixel, then the end of the slot step. A fetch that
overruns raises `Overrun(p)` at once: what earlier operands wrote stays, the rest of the step does not run (42_decoder R143,
60_exceptions R206; log 16). -/
def takeOperands (fs : List (Pixel → Pixel)) (s : State) : Outcome :=
  match fs with
  | [] => .next s.endSlot
  | f :: rest =>
    if s.overruns s.dec.p then .next (s.raiseDec .overrun s.dec.p)
    else takeOperands rest (s.operandTaken f)

/-- RunContinue: `run <- run - 1`, no byte fetched, then the end of the slot step (42_decoder R142). -/
def State.runContinue (s : State) : State := (s.setDec (s.dec.setRun (s.dec.run - 1))).endSlot

/-- Exhausted: nothing fetched, then the end of the slot step (42_decoder R144). -/
def State.exhausted (s : State) : State := s.endSlot

end Sys2Proof.Machine
end

