-- ==== Sys2Proof/Machine/Delta.lean ====
section
/-! DEFINITION. The delta opcodes DIFF and LUMA (logs 17, 22). -/

namespace Sys2Proof.Machine

/-- DIFF: the three colour channels each plus its delta modulo 256; no operand byte (42_decoder R149). -/
def execDiff (dr dg db : Int) (s : State) : Outcome :=
  .next (s.fetched.setDec (s.fetched.dec.setPx (Pixel.addDiff dr dg db s.dec.px))).endSlot

/-- LUMA: the second byte is fetched, then the three colour channels change modulo 256 (42_decoder R150). -/
def execLuma (vg drdg dbdg : Int) (s : State) : Outcome :=
  takeOperands [Pixel.addLuma vg drdg dbdg] s.fetched

end Sys2Proof.Machine
end

