-- ==== Sys2Proof/Machine/Literal.lean ====
section
/-! DEFINITION. The literal opcodes RGB and RGBA. A meaning is the slot step of its opcode, from the fetch of the first byte
at `p` to the end of the step (42_decoder R141; log 17). -/

namespace Sys2Proof.Machine

/-- RGB: the three colour channels, alpha unchanged (42_decoder R146). -/
def execRgb (r g b : Byte) (s : State) : Outcome :=
  takeOperands [Pixel.setR r, Pixel.setG g, Pixel.setB b] s.fetched

/-- RGBA: all four channels (42_decoder R147). -/
def execRgba (r g b a : Byte) (s : State) : Outcome :=
  takeOperands [Pixel.setR r, Pixel.setG g, Pixel.setB b, Pixel.setA a] s.fetched

end Sys2Proof.Machine
end

