-- ==== Sys2Proof/Machine/Repeat.lean ====
section
/-! DEFINITION. The opcodes that repeat a pixel: INDEX from the cache, RUN of the current pixel (logs 17, 22). -/

namespace Sys2Proof.Machine

/-- INDEX: the pixel of a cache slot, read before the slot step's own update (42_decoder R148, 70 R235). -/
def execIndex (slot : SlotIx) (s : State) : Outcome :=
  .next (s.fetched.setDec (s.fetched.dec.setPx (Cache.lookup s.dec.cache slot))).endSlot

/-- RUN: the current pixel now and in the next `n` slot steps (42_decoder R151). -/
def execRun (n : BitVec 6) (s : State) : Outcome :=
  .next (s.fetched.setDec (s.fetched.dec.setRun n)).endSlot

end Sys2Proof.Machine
end

