-- ==== Sys2Proof/Syntax.lean ====
section
/-! DEFINITION. The six opcodes, one constructor per row of spec/opcode_table.json, and the assembler's lines. -/

namespace Sys2Proof

/-- The opcodes of the stream (30_encoding R71), with the operands of R73 to R77: biased fields as the signed deltas they
stand for (R78), a slot as its 6 bits, a run as its payload `n` (R76). -/
inductive Instr where
  /-- RGB literal (R146). -/
  | rgb (r g b : Byte)
  /-- RGBA literal (R147). -/
  | rgba (r g b a : Byte)
  /-- INDEX of a cache slot (R148). -/
  | index (s : SlotIx)
  /-- DIFF, three deltas, each -2..1 (R149). -/
  | diff (dr dg db : Int)
  /-- LUMA, green delta -32..31, red and blue relative to green -8..7 (R150). -/
  | luma (vg drdg dbdg : Int)
  /-- RUN of `n + 1` pixels, `n` in 0..61 (R151). -/
  | run (n : BitVec 6)
  deriving DecidableEq, Repr

/-- A line of the assembler syntax: the operands as a programmer writes them (30_encoding R83; `RUN k` takes the pixel
count), and the directives HDR and PAD (R84). -/
inductive AsmLine where
  | rgb (r g b : Nat)
  | rgba (r g b a : Nat)
  | index (s : Nat)
  | diff (dr dg db : Int)
  | luma (vg drdg dbdg : Int)
  | run (k : Nat)
  | hdr (w h : Word) (ch cs : Byte)
  | pad
  deriving DecidableEq, Repr

end Sys2Proof
end

