-- ==== Sys2Proof/WellFormed.lean ====
section
/-! DEFINITION. The checks on operands: the ranges of 30_encoding R78 and the constraints of R83. -/

namespace Sys2Proof

/-- `v` lies in `lo..hi` (the `in [lo, hi]` of 00_scope R10). -/
def inRange (lo hi v : Int) : Bool := decide (lo ≤ v) && decide (v ≤ hi)

/-- The ranges of 30_encoding R78. Byte operands and the 6-bit slot fit by their types. -/
def Instr.wf : Instr → Bool
  | .rgb _ _ _ => true
  | .rgba _ _ _ _ => true
  | .index _ => true
  | .diff dr dg db => inRange (-2) 1 dr && inRange (-2) 1 dg && inRange (-2) 1 db
  | .luma vg drdg dbdg => inRange (-32) 31 vg && inRange (-8) 7 drdg && inRange (-8) 7 dbdg
  | .run n => decide (n ≤ 61#6)

/-- The constraints of 30_encoding R83; a directive's operands fit by their types (R84). -/
def AsmLine.wf : AsmLine → Bool
  | .rgb r g b => decide (r ≤ 255) && decide (g ≤ 255) && decide (b ≤ 255)
  | .rgba r g b a => decide (r ≤ 255) && decide (g ≤ 255) && decide (b ≤ 255) && decide (a ≤ 255)
  | .index s => decide (s ≤ 63)
  | .diff dr dg db => inRange (-2) 1 dr && inRange (-2) 1 dg && inRange (-2) 1 db
  | .luma vg drdg dbdg => inRange (-32) 31 vg && inRange (-8) 7 drdg && inRange (-8) 7 dbdg
  | .run k => decide (1 ≤ k) && decide (k ≤ 62)
  | .hdr _ _ _ _ => true
  | .pad => true

end Sys2Proof
end

