-- ==== Sys2Proof/Decode.lean ====
section
/-! DEFINITION. The decoder from bytes to opcodes, the encoder back, the header and padding bytes, the assembler, and the
host's word interface. -/

namespace Sys2Proof

/-- The field of `b` that is `len` bits wide and starts at bit `lo`, as a number (00_scope R9). -/
def field (b : Byte) (lo len : Nat) : Nat := (b.extractLsb' lo len).toNat

/-- A biased field's delta: zero-extended, then its bias subtracted (30_encoding R78). -/
def unbias (v : Nat) (bias : Int) : Int := (v : Int) - bias

/-- An opcode's length in bytes, from its first byte alone (30_encoding R82). -/
def opcodeLength (b1 : Byte) : Nat :=
  if b1 = 0xFF#8 then 5
  else if b1 = 0xFE#8 then 4
  else if b1.extractLsb' 6 2 = 0b10#2 then 2
  else 1

/-- The opcode whose bytes are `b 0`, `b 1`, …: dispatch on the first byte, most specific mask first (30_encoding R72,
42_decoder R145), fields as in R73 to R77. Every first byte selects one opcode (R79). -/
def decodeFrom (b : Nat → Byte) : Instr :=
  if b 0 = 0xFE#8 then .rgb (b 1) (b 2) (b 3)
  else if b 0 = 0xFF#8 then .rgba (b 1) (b 2) (b 3) (b 4)
  else if (b 0).extractLsb' 6 2 = 0b00#2 then .index ((b 0).extractLsb' 0 6)
  else if (b 0).extractLsb' 6 2 = 0b01#2 then
    .diff (unbias (field (b 0) 4 2) 2) (unbias (field (b 0) 2 2) 2) (unbias (field (b 0) 0 2) 2)
  else if (b 0).extractLsb' 6 2 = 0b10#2 then
    .luma (unbias (field (b 0) 0 6) 32) (unbias (field (b 1) 4 4) 8) (unbias (field (b 1) 0 4) 8)
  else .run ((b 0).extractLsb' 0 6)

/-- Why bytes are no opcode: none is there, or fewer than its first byte calls for. No byte value is illegal (30_encoding R79). -/
inductive DecodeError where
  | noBytes
  | truncated (needed given : Nat)
  deriving DecidableEq, Repr

/-- The first opcode of a byte sequence and the bytes after it (30_encoding R70). -/
def decode (bs : List Byte) : Except DecodeError (Instr × List Byte) :=
  match bs with
  | [] => .error .noBytes
  | b1 :: rest =>
    if rest.length + 1 < opcodeLength b1 then .error (.truncated (opcodeLength b1) (rest.length + 1))
    else .ok (decodeFrom (fun k => (b1 :: rest).getD k 0), (b1 :: rest).drop (opcodeLength b1))

/-- A delta with its bias added, as a byte; it fits the field after the range tests (30_encoding R78). -/
def biased (v bias : Int) : Byte := BitVec.ofInt 8 (v + bias)

/-- The bytes of an opcode (30_encoding R73 to R77). -/
def encode : Instr → List Byte
  | .rgb r g b => [0xFE#8, r, g, b]
  | .rgba r g b a => [0xFF#8, r, g, b, a]
  | .index s => [s.setWidth 8]
  | .diff dr dg db => [0x40#8 ||| biased dr 2 <<< 4 ||| biased dg 2 <<< 2 ||| biased db 2]
  | .luma vg drdg dbdg => [0x80#8 ||| biased vg 32, biased drdg 8 <<< 4 ||| biased dbdg 8]
  | .run n => [0xC0#8 ||| n.setWidth 8]

/-- A 32-bit field as four bytes, the most significant first (20_memory R56). -/
def bigEndian (w : Word) : List Byte :=
  [w.extractLsb' 24 8, w.extractLsb' 16 8, w.extractLsb' 8 8, w.extractLsb' 0 8]

/-- The 32-bit value of four bytes, the most significant first (20_memory R56). -/
def ofBigEndian (b3 b2 b1 b0 : Byte) : Word := b3 ++ b2 ++ b1 ++ b0

/-- The 14 bytes of a header (41_header R133). -/
def headerOf (w h : Word) (ch cs : Byte) : List Byte :=
  bigEndian magicWord ++ bigEndian w ++ bigEndian h ++ [ch, cs]

/-- The bytes of an assembler line whose operands are in range: its opcode's bytes (30_encoding R83; `RUN k` has payload
`k - 1`), or a directive's (R84). -/
def AsmLine.bytes : AsmLine → List Byte
  | .rgb r g b => encode (.rgb (BitVec.ofNat 8 r) (BitVec.ofNat 8 g) (BitVec.ofNat 8 b))
  | .rgba r g b a => encode (.rgba (BitVec.ofNat 8 r) (BitVec.ofNat 8 g) (BitVec.ofNat 8 b) (BitVec.ofNat 8 a))
  | .index s => encode (.index (BitVec.ofNat 6 s))
  | .diff dr dg db => encode (.diff dr dg db)
  | .luma vg drdg dbdg => encode (.luma vg drdg dbdg)
  | .run k => encode (.run (BitVec.ofNat 6 (k - 1)))
  | .hdr w h ch cs => headerOf w h ch cs
  | .pad => padSentinel

/-- The assembler: an operand outside its constraint is refused, never wrapped (30_encoding R83). -/
def assemble (l : AsmLine) : Option (List Byte) := if l.wf then some l.bytes else none

/-- The five bytes of the host's table word: byte `k` is bits `8k+7..8k`, every bit above `nbits` zero. -/
def tableBytes (nbits w : Nat) : List Byte :=
  (List.range 5).map (fun k => BitVec.ofNat 8 (w % 2 ^ nbits / 2 ^ (8 * k)))

/-- What the decoder reads from a word numbered as spec/opcode_table.json numbers it. -/
def decodeTableWord (nbits w : Nat) : Option Instr :=
  match decode (tableBytes nbits w) with
  | .ok (i, _) => some i
  | .error _ => none

end Sys2Proof
end

