-- ==== Sys2Proof/Machine/Header.lean ====
section
/-! DEFINITION. The header: DEC's parse and checks, and ENC's preconditions. -/

namespace Sys2Proof.Machine

/-- The fields of a header (41_header R120). -/
structure Header where
  magic : Word
  width : Word
  height : Word
  channels : Byte
  colorspace : Byte
  deriving DecidableEq, Repr

/-- The big-endian 32-bit field at an offset of the input (20_memory R56). -/
def State.inWord (s : State) (k : Word) : Word :=
  ofBigEndian (s.inByte k) (s.inByte (k + 1)) (s.inByte (k + 2)) (s.inByte (k + 3))

/-- The field read (41_header R122). -/
def State.readHeader (s : State) : Header :=
  { magic := s.inWord 0, width := s.inWord 4, height := s.inWord 8,
    channels := s.inByte 12, colorspace := s.inByte 13 }

/-- The overflow guard, in the form that is normative (41_header R127, C2). -/
def dimsTooLarge (w h : Word) : Bool := decide (pixelsMax / w.toNat ≤ h.toNat)

/-- The first check of the header that fails, in the order of 41_header R131; none when the header is accepted. -/
def headerCause (size : Word) (h : Header) : DecCause :=
  if size < 22 then .short
  else if h.magic ≠ magicWord then .magic
  else if h.width = 0 then .width0
  else if h.height = 0 then .height0
  else if h.channels < 3 ∨ 4 < h.channels then .channels
  else if dimsTooLarge h.width h.height then .dims
  else .none

/-- Acceptance: the descriptor registers together, `N`, `CHUNK_END`, `p`, `i` (41_header R129). -/
def Dec.accept (d : Dec) (h : Header) : Dec :=
  { d with
    width := h.width, height := h.height, channels := h.channels, colorspace := h.colorspace
    n := h.width * h.height, chunkEnd := d.size - padBytes, p := headerBytes, i := 0 }

/-- The header parse: acceptance, or `NotAnImage` with the first failing check (41_header R121 to R131). -/
def State.parseHeader (s : State) : State :=
  let h := s.readHeader
  let cause := headerCause s.dec.size h
  if cause = .none then s.setDec (s.dec.accept h) else s.raiseDec cause 0

/-- The first precondition of ENC that fails, in the order of 43_encoder R185; none when all hold. -/
def encCause (e : Enc) : EncCause :=
  if e.width = 0 then .width0
  else if e.height = 0 then .height0
  else if e.channels ≠ 3 ∧ e.channels ≠ 4 then .channels
  else if dimsTooLarge e.width e.height then .dims
  else if e.colorspace ≠ 0 ∧ e.colorspace ≠ 1 then .colorspace
  else if e.pixLen.toNat ≠ e.width.toNat * e.height.toNat then .len
  else .none

end Sys2Proof.Machine
end

