-- ==== Sys2Proof/Machine/Decoder.lean ====
section
/-! DEFINITION. The decoder engine: the START step, the fetch, the slot step; and the placing of one opcode where the next
fetch reads it. -/

namespace Sys2Proof.Machine

/-- The initial values of a decoder pass (70 R230). The output space is a fresh one (log 5). -/
def State.beginDec (s : State) : State :=
  { s with
    dec := { s.dec with
      ctl := Ctl.start .none, size := s.dec.inSize, px := startPx, run := 0, cache := Cache.clear }
    decOut := [] }

/-- START of DEC: the initial values, then the header parse (70 R230, 41_header R121 to R131). -/
def State.decStart (s : State) : State := s.beginDec.parseHeader

/-- The opcode at the cursor (42_decoder R143, R145). -/
def State.fetchOpcode (s : State) : Instr := decodeFrom s.opcodeByte

/-- One slot step: continue a run, or fetch and execute one opcode, or repeat the pixel when the region is used up
(42_decoder R141). -/
def State.slotStep (s : State) : Outcome :=
  if s.dec.run ≠ 0 then .next s.runContinue
  else if s.dec.p < s.dec.chunkEnd then exec s.fetchOpcode s
  else .next s.exhausted

/-- A step of DEC while BUSY. The precondition `i < N` of 42_decoder R141 fails in no state a run from reset reaches; there
the engine is stuck (log 15). -/
def State.decStep (s : State) : Outcome :=
  if s.dec.i < s.dec.n then s.slotStep else .fault .slotStepOutsidePass

/-- `s` with an opcode's bytes at the cursor, in a pass that fetches there next: five bytes stored at `p`, the region and the
input long enough for them and the padding, DEC BUSY with a slot left and no run, its turn next (log 19). -/
def State.withOpcodeBytes (s : State) (bs : List Byte) : State :=
  let d := s.dec
  let p := if d.p.toNat + 13 < 2 ^ 32 then d.p else headerBytes
  let inRegion := d.p = p ∧ (p + 5).toNat ≤ d.chunkEnd.toNat ∧ d.chunkEnd.toNat ≤ d.size.toNat
  { s with
    decIn := (bs.zipIdx).foldl (fun m bk => Memory.write m (p.toNat + bk.2) bk.1) s.decIn
    dec :=
      { d with
        ctl := { d.ctl with state := .busy, cause := .none }
        p := p
        run := 0
        chunkEnd := if inRegion then d.chunkEnd else p + 5
        size := if inRegion then d.size else p + 13
        i := if d.i < d.n then d.i else 0
        n := if d.i < d.n then d.n else 1 }
    agenda := .turn .dec :: s.agenda }

end Sys2Proof.Machine
end

