-- ==== Sys2Proof/Machine/Encoder.lean ====
section
/-! DEFINITION. The encoder engine: the START step, the pixel step with its run-length detector and opcode selector, and the
padding step. -/

namespace Sys2Proof.Machine

/-- `EmitByte(b)`: append a byte to the output stream (20_memory R55). -/
def State.emitByte (s : State) (b : Byte) : State :=
  { s with
    encBytes := Memory.write s.encBytes s.enc.ctl.outCount.toNat b
    enc := s.enc.setCtl { s.enc.ctl with outCount := s.enc.ctl.outCount + 1 } }

/-- Append bytes in order. -/
def State.emitBytes (s : State) (bs : List Byte) : State := bs.foldl State.emitByte s

/-- Append an opcode's bytes (30_encoding R73 to R77). -/
def State.emitOpcode (s : State) (i : Instr) : State := s.emitBytes (encode i)

/-- `FlushRun`: the RUN opcode of the pending run, then `run <- 0` (43_encoder R171). -/
def State.flushRun (s : State) : State :=
  let t := s.emitOpcode (.run (s.enc.run - 1))
  t.setEnc (t.enc.setRun 0)

/-! ### The opcode selector -/

/-- The signed value of an integer taken modulo 256 (00_scope R10). -/
def sext8 (v : Int) : Int := (BitVec.ofInt 8 v).toInt

/-- The deltas of 43_encoder R178. -/
structure Deltas where
  vr : Int
  vg : Int
  vb : Int
  vgr : Int
  vgb : Int
  deriving DecidableEq, Repr

/-- The deltas of a pixel from the previous one (43_encoder R178). -/
def deltasOf (px prev : Pixel) : Deltas :=
  let vr := sext8 ((px.r.toNat : Int) - prev.r.toNat)
  let vg := sext8 ((px.g.toNat : Int) - prev.g.toNat)
  let vb := sext8 ((px.b.toNat : Int) - prev.b.toNat)
  { vr := vr, vg := vg, vb := vb, vgr := sext8 (vr - vg), vgb := sext8 (vb - vg) }

/-- DIFF fits (43_encoder R179). -/
def Deltas.diffFits (d : Deltas) : Bool :=
  inRange (-2) 1 d.vr && inRange (-2) 1 d.vg && inRange (-2) 1 d.vb

/-- LUMA fits (43_encoder R180). -/
def Deltas.lumaFits (d : Deltas) : Bool :=
  inRange (-8) 7 d.vgr && inRange (-32) 31 d.vg && inRange (-8) 7 d.vgb

/-- The opcode of a changed pixel that misses the cache, in precedence order (43_encoder R177 to R181). -/
def selectOnMiss (px prev : Pixel) : Instr :=
  let d := deltasOf px prev
  if px.a ≠ prev.a then .rgba px.r px.g px.b px.a
  else if d.diffFits then .diff d.vr d.vg d.vb
  else if d.lumaFits then .luma d.vg d.vgr d.vgb
  else .rgb px.r px.g px.b

/-! ### The steps -/

/-- A pixel equal to the previous one: count it, and flush at 62 or at the last pixel (43_encoder R172, R173). -/
def State.runPixel (s : State) : State :=
  let t := s.setEnc (s.enc.setRun (s.enc.run + 1))
  if t.enc.run = runMax ∨ t.enc.i = t.enc.n - 1 then t.flushRun else t

/-- A changed pixel: INDEX on a hit (43_encoder R175); on a miss the cache is written and the literal or delta chosen
(R176 to R181). -/
def State.changedPixel (s : State) : State :=
  let e := s.enc
  if Cache.hit e.cache s.cfg.hashW e.px then s.emitOpcode (.index (slotOf s.cfg.hashW e.px))
  else
    (s.setEnc { e with cache := Cache.update e.cache s.cfg.hashW e.px }).emitOpcode (selectOnMiss e.px e.pxPrev)

/-- The pixel at the index is read (43_encoder R171). -/
def State.takePixel (s : State) : State :=
  s.setEnc { s.enc with px := Memory.readPixel s.encPix s.enc.i.toNat }

/-- The pixel taken is counted when it equals the previous one; else, after a pending run is flushed (R174), it is encoded
(43_encoder R171). -/
def State.encodePixel (s : State) : State :=
  if s.enc.px = s.enc.pxPrev then s.runPixel
  else (if s.enc.run ≠ 0 then s.flushRun else s).changedPixel

/-- The end of a pixel step: `px_prev <- px`, on every path (43_encoder R182), and `i <- i + 1`. -/
def State.nextPixel (s : State) : State := s.setEnc { s.enc with pxPrev := s.enc.px, i := s.enc.i + 1 }

/-- One pixel step (43_encoder R171). -/
def State.pixelStep (s : State) : State := s.takePixel.encodePixel.nextPixel

/-- The padding step: the 8 bytes of the sentinel, then DONE (43_encoder R183, R184). -/
def State.paddingStep (s : State) : State :=
  let t := s.emitBytes padSentinel
  t.setEnc (t.enc.setCtl t.enc.ctl.finish)

/-- A pass of ENC begins (70 R231). The output space is a fresh one (log 5). -/
def State.beginEnc (s : State) : State :=
  { s with enc := s.enc.setCtl (Ctl.start .none), encBytes := [] }

/-- The initial values of an encoder pass whose checks passed (70 R231). -/
def Enc.begin (e : Enc) : Enc :=
  { e with n := e.width * e.height, i := 0, pxPrev := startPx, run := 0, cache := Cache.clear }

/-- START of ENC: the checks, the initial values, the header (70 R231, 43_encoder R185, 41_header R133). -/
def State.encStart (s : State) : State :=
  let t := s.beginEnc
  if encCause s.enc = .none then
    (t.setEnc t.enc.begin).emitBytes (headerOf s.enc.width s.enc.height s.enc.channels s.enc.colorspace)
  else t.raiseEnc (encCause s.enc)

/-- A step of ENC while BUSY: pixel steps `0..N-1`, then the padding (43_encoder R170, 70 R241). -/
def State.encStep (s : State) : State :=
  if s.enc.i < s.enc.n then s.pixelStep else s.paddingStep

end Sys2Proof.Machine
end

