-- ==== Sys2Proof/Machine/Flags.lean ====
section
/-! DEFINITION. The status word of each engine and the codes in it. The block has no condition codes (10_state R39): `STATE`
and `CAUSE` are its only flag-like state. -/

namespace Sys2Proof.Machine

/-- The codes of `STATE` (10_state R30). -/
def EngineState.code : EngineState → BitVec 3
  | .idle => 0
  | .busy => 1
  | .done => 2
  | .error => 3
  | .aborted => 4

/-- The codes of DEC's causes (60_exceptions R201). -/
def DecCause.code : DecCause → BitVec 4
  | .none => 0
  | .short => 1
  | .magic => 2
  | .width0 => 3
  | .height0 => 4
  | .channels => 5
  | .dims => 6
  | .overrun => 7

/-- The codes of ENC's causes (60_exceptions R201). -/
def EncCause.code : EncCause → BitVec 4
  | .none => 0
  | .width0 => 1
  | .height0 => 2
  | .channels => 3
  | .dims => 4
  | .colorspace => 5
  | .len => 6

/-- A status word: `STATE` in bits 2..0, `CAUSE` in bits 11..8, every other bit reserved and 0 (10_state R32, R33). -/
def statusWord (state : EngineState) (cause : BitVec 4) : Word :=
  0#20 ++ cause ++ 0#5 ++ state.code

/-- `DEC_STATUS` (10_state R32). -/
def Dec.status (d : Dec) : Word := statusWord d.ctl.state d.ctl.cause.code

/-- `ENC_STATUS` (10_state R33). -/
def Enc.status (e : Enc) : Word := statusWord e.ctl.state e.ctl.cause.code

end Sys2Proof.Machine
end

