-- ==== Sys2Proof/Machine/HostBus.lean ====
section
/-! DEFINITION. The host's side: register writes and reads, the commands, the input spaces and the outputs. -/

namespace Sys2Proof.Machine

/-- The low byte of a written value: what an 8-bit register takes (10_state R31; log 9). -/
def lowByte (v : Word) : Byte := v.setWidth 8

/-! ### Commands and register writes -/

/-- A write to `DEC_CMD` (10_state R37): 1 is START, 2 is ABORT, anything else has no effect. -/
def State.decCommand (s : State) (c : Byte) : Outcome :=
  if c = 1 then (if s.dec.ctl.state = .busy then .refused .startWhileBusy else .next s.decStart)
  else if c = 2 then
    .next (if s.dec.ctl.state = .busy then s.setDec (s.dec.setCtl (s.dec.ctl.abort .none)) else s)
  else .next s

/-- A write to `ENC_CMD` (10_state R37). -/
def State.encCommand (s : State) (c : Byte) : Outcome :=
  if c = 1 then (if s.enc.ctl.state = .busy then .refused .startWhileBusy else .next s.encStart)
  else if c = 2 then
    .next (if s.enc.ctl.state = .busy then s.setEnc (s.enc.setCtl (s.enc.ctl.abort .none)) else s)
  else .next s

/-- An RW register of DEC, written (10_state R31): the other numbers are read-only or reserved and have no effect (log 10). -/
def Dec.writeReg (d : Dec) (no : Nat) (v : Word) : Dec :=
  match no with
  | 2 => { d with inSize := v }
  | _ => d

/-- An RW register of ENC, written (10_state R31): the other numbers are read-only or reserved and have no effect (log 10). -/
def Enc.writeReg (e : Enc) (no : Nat) (v : Word) : Enc :=
  match no with
  | 2 => { e with pixLen := v }
  | 3 => { e with width := v }
  | 4 => { e with height := v }
  | 5 => { e with channels := lowByte v }
  | 6 => { e with colorspace := lowByte v }
  | _ => e

/-- A host write of a register: a command, or an RW register, which takes the value only while its engine is not BUSY
(10_state R31, R35; 60_exceptions R217). -/
def State.hostWrite (s : State) (e : Engine) (no : Nat) (v : Word) : Outcome :=
  match e with
  | .dec =>
    if no = 0 then s.decCommand (lowByte v)
    else .next (if s.dec.ctl.state = .busy then s else s.setDec (s.dec.writeReg no v))
  | .enc =>
    if no = 0 then s.encCommand (lowByte v)
    else .next (if s.enc.ctl.state = .busy then s else s.setEnc (s.enc.writeReg no v))

/-! ### Reads -/

/-- The value of a readable register of DEC, none for `CMD` and the reserved numbers (10_state R31). -/
def Dec.readReg (d : Dec) (no : Nat) : Option Word :=
  match no with
  | 1 => some d.status
  | 2 => some d.inSize
  | 3 => some d.width
  | 4 => some d.height
  | 5 => some (d.channels.setWidth 32)
  | 6 => some (d.colorspace.setWidth 32)
  | 7 => some d.ctl.outCount
  | 8 => some d.ctl.errInfo
  | _ => none

/-- The value of a readable register of ENC, none for `CMD` and the reserved numbers (10_state R31). -/
def Enc.readReg (e : Enc) (no : Nat) : Option Word :=
  match no with
  | 1 => some e.status
  | 2 => some e.pixLen
  | 3 => some e.width
  | 4 => some e.height
  | 5 => some (e.channels.setWidth 32)
  | 6 => some (e.colorspace.setWidth 32)
  | 7 => some e.ctl.outCount
  | 8 => some e.ctl.errInfo
  | _ => none

/-- The register is an RW one, which the host may read only while its engine is not BUSY (10_state R31; log 11). -/
def isRw (e : Engine) (no : Nat) : Bool :=
  match e with
  | .dec => decide (no = 2)
  | .enc => decide (2 ≤ no) && decide (no ≤ 6)

/-- The next free value (log 8). -/
def State.freeWord (s : State) : Word := Config.freeWord s.freeCtr

/-- The free pixel of a free word. -/
def pixelOfWord (w : Word) : Pixel :=
  ⟨w.extractLsb' 0 8, w.extractLsb' 8 8, w.extractLsb' 16 8, w.extractLsb' 24 8⟩

/-- A host read answers with a value the state holds. -/
def State.answer (s : State) (d : HostData) : State := { s with hostData := d }

/-- A host read answers with a free value, and the counter moves on (U9, U10; log 8). -/
def State.answerFree (s : State) (d : HostData) : State := { s with hostData := d, freeCtr := s.freeCtr + 1 }

/-- A host read of a register (10_state R31): `CMD` is write-only; a reserved number answers any value (U9), and so does an RW
register while BUSY (log 11). -/
def State.hostRead (s : State) (e : Engine) (no : Nat) : Outcome :=
  if no = 0 then .refused .readOfWriteOnly
  else
    let busy := match e with
      | .dec => decide (s.dec.ctl.state = .busy)
      | .enc => decide (s.enc.ctl.state = .busy)
    let value := match e with
      | .dec => s.dec.readReg no
      | .enc => s.enc.readReg no
    match value with
    | some v =>
      if busy && isRw e no then .next (s.answerFree (.word s.freeWord)) else .next (s.answer (.word v))
    | none => .next (s.answerFree (.word s.freeWord))

/-- A host read of output pixel `i`: its pixel when the pass is DONE (70 R232), any value otherwise (60_exceptions R207, U10);
past the last pixel there is no address (log 14). -/
def State.readOutPixel (s : State) (i : Word) : Outcome :=
  if s.dec.ctl.state = .done then
    if i < s.dec.ctl.outCount then .next (s.answer (.pixel (Memory.readPixel s.decOut i.toNat)))
    else .fault .noSuchOutput
  else .next (s.answerFree (.pixel (pixelOfWord s.freeWord)))

/-- A host read of output byte `k`: its byte when the pass is DONE (70 R232), any value otherwise (60_exceptions R207, U10);
past the last byte there is no address (log 14). -/
def State.readOutByte (s : State) (k : Word) : Outcome :=
  if s.enc.ctl.state = .done then
    if k < s.enc.ctl.outCount then .next (s.answer (.byte (Memory.read s.encBytes k.toNat)))
    else .fault .noSuchOutput
  else .next (s.answerFree (.byte (lowByte s.freeWord)))

/-! ### The host's operations -/

/-- One host operation, between two steps of the engines (60_exceptions R210). An input space must not change while its engine
is BUSY (20_memory R63, 70 R234): the model admits no such run (U6). -/
def State.hostStep (s : State) (op : HostOp) : Outcome :=
  match op with
  | .writeReg e no v => s.hostWrite e no v
  | .readReg e no => s.hostRead e no
  | .putByte k b =>
    if s.dec.ctl.state = .busy then .refused .inputChangedWhileBusy
    else .next { s with decIn := Memory.write s.decIn k.toNat b }
  | .putPixel i px =>
    if s.enc.ctl.state = .busy then .refused .inputChangedWhileBusy
    else .next { s with encPix := Memory.writePixel s.encPix i.toNat px }
  | .readPixel i => s.readOutPixel i
  | .readByte k => s.readOutByte k

/-- An engine's turn: one step if it is BUSY; an engine that is not takes none (60_exceptions R208). -/
def State.turn (s : State) (e : Engine) : Outcome :=
  match e with
  | .dec => if s.dec.ctl.state = .busy then s.decStep else .next s
  | .enc => if s.enc.ctl.state = .busy then .next s.encStep else .next s

/-- The agenda's next event, or with none pending the turn of a BUSY engine, DEC before ENC (log 6). With neither, the block
waits for the host (70 R233). -/
def State.nextEvent (s : State) : Outcome :=
  match s.agenda with
  | .host op :: rest => State.hostStep { s with agenda := rest } op
  | .turn e :: rest => State.turn { s with agenda := rest } e
  | [] => if s.dec.ctl.state = .busy then s.turn .dec else s.turn .enc

end Sys2Proof.Machine
end

