-- ==== Sys2Proof/Machine/Step.lean ====
section
/-! DEFINITION. One step of the machine, and the host's placing of one opcode for the next step. -/

namespace Sys2Proof.Machine

/-- One step of the block: one host operation, or one step of one engine (70 R241). -/
def step (s : State) : Host.Outcome State Fault Refusal := s.nextEvent

/-- `s` with the opcode of a table word where the next step fetches (log 19). -/
def State.withFetchWord (s : State) (nbits w : Nat) : State := s.withOpcodeBytes (tableBytes nbits w)

end Sys2Proof.Machine
end

