-- ==== Sys2Proof/Safety.lean ====
section
/-! DEFINITION. The terms claims are made in: the invariant of the block, and what a step leaves and writes, said through
lookups of the cache and reads of the data spaces. -/

namespace Sys2Proof.Machine

/-! ### The invariant -/

/-- Every slot holds `ZERO_PX` or a pixel whose slot it is (40_hash_cache R108). -/
def CacheSound (w : Weights) (c : Cache) : Prop :=
  ∀ s, Cache.lookup c s = zeroPx ∨ slotOf w (Cache.lookup c s) = s

/-- Dimensions that pass every check on them (41_header R124, R125, R127). -/
def DimsAccepted (w h : Word) : Prop :=
  w ≠ 0 ∧ h ≠ 0 ∧ h.toNat < pixelsMax / w.toNat

/-- DEC between two steps of a pass (10_state R21 to R26, 41_header R129, 42_decoder R155). -/
structure DecPass (w : Weights) (d : Dec) : Prop where
  size_fixed : d.size = d.inSize
  size_min : 22 ≤ d.size.toNat
  region : d.chunkEnd.toNat + 8 = d.size.toNat
  cursor_low : 14 ≤ d.p.toNat
  cursor_high : d.p.toNat + 4 ≤ d.size.toNat
  dims : DimsAccepted d.width d.height
  channels : d.channels = 3 ∨ d.channels = 4
  slots : d.n.toNat = d.width.toNat * d.height.toNat
  slot_left : d.i < d.n
  count : d.ctl.outCount = d.i
  run_max : d.run ≤ 61#6
  cache : CacheSound w d.cache

/-- DEC at any time. -/
structure DecInv (w : Weights) (d : Dec) : Prop where
  cause_iff_error : d.ctl.cause ≠ .none ↔ d.ctl.state = .error
  info_only_overrun : d.ctl.errInfo ≠ 0 → d.ctl.cause = .overrun
  pass : d.ctl.state = .busy → DecPass w d
  done : d.ctl.state = .done →
    d.i = d.n ∧ d.ctl.outCount = d.n ∧ d.n.toNat = d.width.toNat * d.height.toNat

/-- The preconditions of an encoder pass (43_encoder R185). -/
structure EncReady (e : Enc) : Prop where
  dims : DimsAccepted e.width e.height
  channels : e.channels = 3 ∨ e.channels = 4
  colorspace : e.colorspace = 0 ∨ e.colorspace = 1
  len : e.pixLen.toNat = e.width.toNat * e.height.toNat

/-- ENC between two steps of a pass (10_state R27 to R29, 43_encoder R186, R187): each pixel so far cost at most five bytes,
a pending run none, and one byte stands for at most 62 pixels. -/
structure EncPass (w : Weights) (e : Enc) : Prop where
  ready : EncReady e
  slots : e.n.toNat = e.width.toNat * e.height.toNat
  index : e.i ≤ e.n
  run_max : e.run ≤ 61#6
  no_run_left : e.i = e.n → e.run = 0
  header_out : 14 ≤ e.ctl.outCount.toNat
  at_most : e.ctl.outCount.toNat + 5 * e.run.toNat ≤ 14 + 5 * e.i.toNat
  at_least : 868 + e.i.toNat ≤ 62 * e.ctl.outCount.toNat + e.run.toNat
  cache : CacheSound w e.cache

/-- ENC at any time. -/
structure EncInv (w : Weights) (e : Enc) : Prop where
  cause_iff_error : e.ctl.cause ≠ .none ↔ e.ctl.state = .error
  info_zero : e.ctl.errInfo = 0
  pass : e.ctl.state = .busy → EncPass w e

/-- The invariant of the block: the data spaces in canonical form, each engine as its pass requires. -/
structure State.Inv (s : State) : Prop where
  decIn : Memory.wf s.decIn
  decOut : Memory.wf s.decOut
  encPix : Memory.wf s.encPix
  encBytes : Memory.wf s.encBytes
  dec : DecInv s.cfg.hashW s.dec
  enc : EncInv s.cfg.hashW s.enc

/-! ### What a step of DEC leaves and writes -/

/-- Nothing outside DEC and its output space changes; the agenda is treated apart. -/
structure DecOnly (s t : State) : Prop where
  cfg : t.cfg = s.cfg
  enc : t.enc = s.enc
  decIn : t.decIn = s.decIn
  encPix : t.encPix = s.encPix
  encBytes : t.encBytes = s.encBytes
  hostData : t.hostData = s.hostData
  freeCtr : t.freeCtr = s.freeCtr

/-- The registers of DEC that no slot step writes (10_state R26, R34). -/
structure SlotKeeps (d d' : Dec) : Prop where
  inSize : d'.inSize = d.inSize
  width : d'.width = d.width
  height : d'.height = d.height
  channels : d'.channels = d.channels
  colorspace : d'.colorspace = d.colorspace
  size : d'.size = d.size
  n : d'.n = d.n
  chunkEnd : d'.chunkEnd = d.chunkEnd

/-- A slot step that emits `px`, moves the cursor by `len` and leaves `run` in the run counter: the cache update (42_decoder
R152), the emission (R153), the end of the pass (R154), and everything else as before. -/
structure SlotDone (s t : State) (px : Pixel) (len : Nat) (run : BitVec 6) : Prop where
  pixel : t.dec.px = px
  cursor : t.dec.p = s.dec.p + BitVec.ofNat 32 len
  runLeft : t.dec.run = run
  cached : Cache.lookup t.dec.cache (slotOf s.cfg.hashW px) = px
  cache_others : ∀ k, k ≠ slotOf s.cfg.hashW px → Cache.lookup t.dec.cache k = Cache.lookup s.dec.cache k
  emitted : Memory.readPixel t.decOut s.dec.i.toNat = px
  out_others : ∀ a, a < 4 * s.dec.i.toNat ∨ 4 * s.dec.i.toNat + 4 ≤ a → Memory.read t.decOut a = Memory.read s.decOut a
  i : t.dec.i = s.dec.i + 1
  outCount : t.dec.ctl.outCount = s.dec.i + 1
  ends : s.dec.i + 1 = s.dec.n → t.dec.ctl.state = .done
  goes_on : s.dec.i + 1 ≠ s.dec.n → t.dec.ctl.state = s.dec.ctl.state
  cause : t.dec.ctl.cause = s.dec.ctl.cause
  errInfo : t.dec.ctl.errInfo = s.dec.ctl.errInfo
  keeps : SlotKeeps s.dec t.dec
  only : DecOnly s t

/-- A slot step that raised `Overrun(k)` (60_exceptions R203, R206): nothing emitted, no cache update, no count. The cursor
stands at the fetch that raised it, and `px` may hold what earlier operands wrote (log 16). -/
structure SlotOverran (s t : State) (k : Word) : Prop where
  cursor : t.dec.p = k
  state : t.dec.ctl.state = .error
  cause : t.dec.ctl.cause = .overrun
  errInfo : t.dec.ctl.errInfo = k
  outCount : t.dec.ctl.outCount = s.dec.ctl.outCount
  i : t.dec.i = s.dec.i
  run : t.dec.run = s.dec.run
  cache : t.dec.cache = s.dec.cache
  decOut : t.decOut = s.decOut
  keeps : SlotKeeps s.dec t.dec
  only : DecOnly s t

/-- The first `k` operand fetches of the opcode at the cursor raise nothing (42_decoder R143). -/
def State.OperandsReadable (s : State) (k : Nat) : Prop :=
  s.cfg.operandPastChunk ≠ .fault ∨ s.dec.p.toNat + k < s.dec.chunkEnd.toNat

/-- Operand fetch `j` (from 0) of the opcode at the cursor is the first that raises `Overrun` (42_decoder R143). -/
def State.FirstOverrun (s : State) (j : Nat) : Prop :=
  s.cfg.operandPastChunk = .fault ∧
  (∀ m < j, s.dec.p + BitVec.ofNat 32 (1 + m) < s.dec.chunkEnd) ∧
  s.dec.chunkEnd ≤ s.dec.p + BitVec.ofNat 32 (1 + j)

/-- DEC is BUSY with a slot left, and the agenda gives it the next turn. -/
def State.DecTurn (s : State) (rest : List Event) : Prop :=
  s.agenda = .turn .dec :: rest ∧ s.dec.ctl.state = .busy ∧ s.dec.i < s.dec.n

/-- A channel changed by a delta modulo 256 (00_scope R10). -/
def ChannelPlus (c c' : Byte) (d : Int) : Prop := (c'.toNat : Int) = ((c.toNat : Int) + d) % 256

/-- The same machine under another operand policy. -/
def State.withPolicy (s : State) (pol : OperandPolicy) : State :=
  { s with cfg := { s.cfg with operandPastChunk := pol } }

/-- The same state with another channel count in the descriptor. -/
def State.withChannels (s : State) (ch : Byte) : State := { s with dec := { s.dec with channels := ch } }

/-- The slot step of `i` at `s`: with its `k` operands readable it is done with `px`, and with the first overrun at `j` it
raises `Overrun`. -/
def SlotStepOf (i : Instr) (s : State) (k : Nat) (px : Pixel) : Prop :=
  (s.OperandsReadable k → ∃ t, exec i s = .next t ∧ SlotDone s t px (1 + k) s.dec.run) ∧
  (∀ j < k, s.FirstOverrun j →
    ∃ t, exec i s = .next t ∧ SlotOverran s t (s.dec.p + BitVec.ofNat 32 (1 + j)))

/-! ### What a step of ENC leaves and writes -/

/-- Nothing outside ENC and its output space changes; the agenda is treated apart. -/
structure EncOnly (s t : State) : Prop where
  cfg : t.cfg = s.cfg
  dec : t.dec = s.dec
  decIn : t.decIn = s.decIn
  decOut : t.decOut = s.decOut
  encPix : t.encPix = s.encPix
  hostData : t.hostData = s.hostData
  freeCtr : t.freeCtr = s.freeCtr

/-- The registers of ENC that no step of a pass writes (10_state R35, R36). -/
structure EncKeeps (e e' : Enc) : Prop where
  pixLen : e'.pixLen = e.pixLen
  width : e'.width = e.width
  height : e'.height = e.height
  channels : e'.channels = e.channels
  colorspace : e'.colorspace = e.colorspace
  cause : e'.ctl.cause = e.ctl.cause
  errInfo : e'.ctl.errInfo = e.ctl.errInfo

/-- The bytes `bs` were appended to the output stream, and no other byte changed (20_memory R55). -/
structure Appended (s t : State) (bs : List Byte) : Prop where
  count : t.enc.ctl.outCount = s.enc.ctl.outCount + BitVec.ofNat 32 bs.length
  bytes : ∀ k, k < bs.length → Memory.read t.encBytes (s.enc.ctl.outCount.toNat + k) = bs.getD k 0
  others : ∀ a, a < s.enc.ctl.outCount.toNat ∨ s.enc.ctl.outCount.toNat + bs.length ≤ a →
    Memory.read t.encBytes a = Memory.read s.encBytes a

/-- The count leaves room for a step's bytes; a pass that keeps the invariant always does. -/
def State.EncRoom (s : State) : Prop := s.enc.ctl.outCount.toNat + 8 ≤ 2 ^ 32

/-- ENC is BUSY and the agenda gives it the next turn. -/
def State.EncTurn (s : State) (rest : List Event) : Prop :=
  s.agenda = .turn .enc :: rest ∧ s.enc.ctl.state = .busy

/-- A pixel step that appended `bs` and left `run` pending (43_encoder R171): `px` and `px_prev` hold the pixel (R182), the
index moves on, the cache is written at the pixel's slot alone when `miss` (R176) and is untouched otherwise. -/
structure PixelDone (s t : State) (bs : List Byte) (run : BitVec 6) (miss : Prop) : Prop where
  pixel : t.enc.px = Memory.readPixel s.encPix s.enc.i.toNat
  previous : t.enc.pxPrev = Memory.readPixel s.encPix s.enc.i.toNat
  runLeft : t.enc.run = run
  i : t.enc.i = s.enc.i + 1
  n : t.enc.n = s.enc.n
  state : t.enc.ctl.state = s.enc.ctl.state
  out : Appended s t bs
  cached : miss →
    Cache.lookup t.enc.cache (slotOf s.cfg.hashW (Memory.readPixel s.encPix s.enc.i.toNat)) =
      Memory.readPixel s.encPix s.enc.i.toNat
  cache_others : ∀ k, (miss → k ≠ slotOf s.cfg.hashW (Memory.readPixel s.encPix s.enc.i.toNat)) →
    Cache.lookup t.enc.cache k = Cache.lookup s.enc.cache k
  keeps : EncKeeps s.enc t.enc
  only : EncOnly s t

/-- The bytes that flush a pending run: none without one, else RUN with payload `run - 1` (43_encoder R174). -/
def flushBytes (run : BitVec 6) : List Byte :=
  if run.toNat = 0 then [] else [BitVec.ofNat 8 (0xC0 + (run.toNat - 1))]

/-- The bytes at the start of the decoder's input are this header (41_header R120, R133). -/
def State.HeaderAt (s : State) (w h : Word) (ch cs : Byte) : Prop :=
  ∀ k, k < 14 → Memory.read s.decIn k = (headerOf w h ch cs).getD k 0

/-- The host's next operation is START to an engine that is not BUSY. -/
def State.StartNext (s : State) (e : Engine) (rest : List Event) : Prop :=
  s.agenda = .host (.writeReg e 0 1) :: rest ∧
  (match e with
    | .dec => s.dec.ctl.state ≠ .busy
    | .enc => s.enc.ctl.state ≠ .busy)

end Sys2Proof.Machine
end

