-- ==== Sys2Proof/Certificates/Slice0/Obligations.lean ====
section
/-! DEFINITION. The statements about the model. Each docstring says which rules of spec/ it formalises, and which clause, if
any, is the model's own choice. -/

open Sys2Proof Sys2Proof.Machine

/-! ### Encoding -/

/-- Words written out from 30_encoding section 1 and the examples of 42_decoder section 2 decode to the opcodes they stand for. -/
def Obligations.SpecWordsDecodeToTheirOpcodes : Prop :=
  decode [0xFE, 0x0A, 0x14, 0x1E] = .ok (.rgb 10 20 30, []) ∧
  decode [0xFF, 0x01, 0x02, 0x03, 0x80] = .ok (.rgba 1 2 3 128, []) ∧
  decode [0x09] = .ok (.index 9, []) ∧
  decode [0x5A] = .ok (.diff (-1) 0 0, []) ∧
  decode [0xAA, 0x5D] = .ok (.luma 10 (-3) 5, []) ∧
  decode [0xC3] = .ok (.run 3, []) ∧
  decode [0xFD, 0x00] = .ok (.run 61, [0x00])

/-- Every well-formed opcode decodes back from its bytes, whatever bytes follow: no bit of an encoding is dropped (30_encoding
sections 1 and 2). -/
def Obligations.DecodeOfEncodeIsTheOpcode : Prop :=
  ∀ (i : Instr) (tail : List Byte), i.wf = true → decode (encode i ++ tail) = .ok (i, tail)

/-- What decodes is well-formed and encodes to the very bytes read: each byte sequence has one meaning and each opcode one
encoding (30_encoding sections 1 to 3). -/
def Obligations.EncodeOfDecodeIsTheBytes : Prop :=
  ∀ (bs tail : List Byte) (i : Instr), decode bs = .ok (i, tail) → i.wf = true ∧ encode i ++ tail = bs

/-- Every first byte is an opcode, of the class its range gives (30_encoding R79, an inference of the spec). -/
def Obligations.EveryFirstByteIsOneOpcode : Prop :=
  ∀ (b1 : Byte) (rest : List Byte), 4 ≤ rest.length →
    ∃ i tail, decode (b1 :: rest) = .ok (i, tail) ∧
      (b1.toNat ≤ 0x3F → ∃ slot, i = .index slot) ∧
      (0x40 ≤ b1.toNat → b1.toNat ≤ 0x7F → ∃ dr dg db, i = .diff dr dg db) ∧
      (0x80 ≤ b1.toNat → b1.toNat ≤ 0xBF → ∃ vg drdg dbdg, i = .luma vg drdg dbdg) ∧
      (0xC0 ≤ b1.toNat → b1.toNat ≤ 0xFD → ∃ n, i = .run n) ∧
      (b1.toNat = 0xFE → ∃ r g b, i = .rgb r g b) ∧
      (b1.toNat = 0xFF → ∃ r g b a, i = .rgba r g b a)

/-- An opcode's length comes from its first byte alone (30_encoding R82, an inference of the spec). -/
def Obligations.OpcodeLengthComesFromTheFirstByte : Prop :=
  ∀ (b1 : Byte) (rest tail : List Byte) (i : Instr), decode (b1 :: rest) = .ok (i, tail) →
    tail = (b1 :: rest).drop
      (if b1.toNat = 0xFF then 5 else if b1.toNat = 0xFE then 4
        else if 0x80 ≤ b1.toNat ∧ b1.toNat ≤ 0xBF then 2 else 1)

/-- The assembler encodes an opcode line whose operands meet the constraints of 30_encoding R83 and refuses every other, never
wrapping an operand: channels 0..255, slots 0..63, DIFF deltas -2..1, LUMA deltas -32..31 and -8..7, RUN of 1..62 pixels. -/
def Obligations.AssemblerRefusesOperandsOutOfRange : Prop :=
  (∀ r g b : Nat,
    (r ≤ 255 → g ≤ 255 → b ≤ 255 →
      assemble (.rgb r g b) = some [0xFE, BitVec.ofNat 8 r, BitVec.ofNat 8 g, BitVec.ofNat 8 b]) ∧
    (256 ≤ r ∨ 256 ≤ g ∨ 256 ≤ b → assemble (.rgb r g b) = none)) ∧
  (∀ r g b a : Nat,
    (r ≤ 255 → g ≤ 255 → b ≤ 255 → a ≤ 255 →
      assemble (.rgba r g b a) =
        some [0xFF, BitVec.ofNat 8 r, BitVec.ofNat 8 g, BitVec.ofNat 8 b, BitVec.ofNat 8 a]) ∧
    (256 ≤ r ∨ 256 ≤ g ∨ 256 ≤ b ∨ 256 ≤ a → assemble (.rgba r g b a) = none)) ∧
  (∀ slot : Nat,
    (slot ≤ 63 → assemble (.index slot) = some [BitVec.ofNat 8 slot]) ∧
    (64 ≤ slot → assemble (.index slot) = none)) ∧
  (∀ dr dg db : Int,
    (-2 ≤ dr → dr ≤ 1 → -2 ≤ dg → dg ≤ 1 → -2 ≤ db → db ≤ 1 →
      assemble (.diff dr dg db) = some [BitVec.ofInt 8 (0x40 + 16 * (dr + 2) + 4 * (dg + 2) + (db + 2))]) ∧
    (dr < -2 ∨ 1 < dr ∨ dg < -2 ∨ 1 < dg ∨ db < -2 ∨ 1 < db → assemble (.diff dr dg db) = none)) ∧
  (∀ vg drdg dbdg : Int,
    (-32 ≤ vg → vg ≤ 31 → -8 ≤ drdg → drdg ≤ 7 → -8 ≤ dbdg → dbdg ≤ 7 →
      assemble (.luma vg drdg dbdg) =
        some [BitVec.ofInt 8 (0x80 + (vg + 32)), BitVec.ofInt 8 (16 * (drdg + 8) + (dbdg + 8))]) ∧
    (vg < -32 ∨ 31 < vg ∨ drdg < -8 ∨ 7 < drdg ∨ dbdg < -8 ∨ 7 < dbdg → assemble (.luma vg drdg dbdg) = none)) ∧
  (∀ k : Nat,
    (1 ≤ k → k ≤ 62 → assemble (.run k) = some [BitVec.ofNat 8 (0xC0 + (k - 1))]) ∧
    (k = 0 ∨ 63 ≤ k → assemble (.run k) = none))

/-! ### The six opcodes -/

/-- RGB (42_decoder R146): its encoding; the three colour channels with alpha kept, the cursor 4 on, and the end of the slot step
(R152, R153, R154); `Overrun` when an operand lies past the region under FAULT. That `p`
stands in ERROR at the fetch that raised it is the model's own reading (log 16). -/
def Obligations.RgbWritesColourAndKeepsAlpha : Prop :=
  ∀ (r g b : Byte) (s : State),
    decode [0xFE, r, g, b] = .ok (.rgb r g b, []) ∧
    SlotStepOf (.rgb r g b) s 3 ⟨r, g, b, s.dec.px.a⟩

/-- RGBA (42_decoder R147): its encoding; all four channels, the cursor 5 on, and the end of the slot step (R152, R153, R154);
`Overrun` when an operand lies past the region under FAULT. That `p`
stands in ERROR at the fetch that raised it is the model's own reading (log 16). -/
def Obligations.RgbaWritesAllChannels : Prop :=
  ∀ (r g b a : Byte) (s : State),
    decode [0xFF, r, g, b, a] = .ok (.rgba r g b a, []) ∧
    SlotStepOf (.rgba r g b a) s 4 ⟨r, g, b, a⟩

/-- INDEX (42_decoder R148): its encoding; the pixel the slot held before this slot step's own update, the cursor 1 on, and the end
of the slot step (R152, R153, R154). -/
def Obligations.IndexReadsTheSlotBeforeTheUpdate : Prop :=
  ∀ (slot : SlotIx) (s : State),
    decode [BitVec.ofNat 8 slot.toNat] = .ok (.index slot, []) ∧
    ∃ t, exec (.index slot) s = .next t ∧ SlotDone s t (Cache.lookup s.dec.cache slot) 1 s.dec.run

/-- DIFF (42_decoder R149): its encoding; each colour channel plus its delta modulo 256, alpha kept, the cursor 1 on, and the end of
the slot step (R152, R153, R154). -/
def Obligations.DiffAddsDeltasModulo256 : Prop :=
  ∀ (dr dg db : Int) (s : State) (px : Pixel),
    -2 ≤ dr → dr ≤ 1 → -2 ≤ dg → dg ≤ 1 → -2 ≤ db → db ≤ 1 →
    ChannelPlus s.dec.px.r px.r dr → ChannelPlus s.dec.px.g px.g dg → ChannelPlus s.dec.px.b px.b db →
    px.a = s.dec.px.a →
    decode [BitVec.ofInt 8 (0x40 + 16 * (dr + 2) + 4 * (dg + 2) + (db + 2))] = .ok (.diff dr dg db, []) ∧
    ∃ t, exec (.diff dr dg db) s = .next t ∧ SlotDone s t px 1 s.dec.run

/-- LUMA (42_decoder R150): its encoding; green plus `vg`, red and blue plus `vg` and their own deltas, modulo 256, alpha kept, the
cursor 2 on, and the end of the slot step (R152, R153, R154); `Overrun` when the second byte lies past the region under FAULT. That `p`
stands in ERROR at the fetch that raised it is the model's own reading (log 16). -/
def Obligations.LumaAddsGreenRelativeDeltasModulo256 : Prop :=
  ∀ (vg drdg dbdg : Int) (s : State) (px : Pixel),
    -32 ≤ vg → vg ≤ 31 → -8 ≤ drdg → drdg ≤ 7 → -8 ≤ dbdg → dbdg ≤ 7 →
    ChannelPlus s.dec.px.r px.r (vg + drdg) → ChannelPlus s.dec.px.g px.g vg →
    ChannelPlus s.dec.px.b px.b (vg + dbdg) → px.a = s.dec.px.a →
    decode [BitVec.ofInt 8 (0x80 + (vg + 32)), BitVec.ofInt 8 (16 * (drdg + 8) + (dbdg + 8))] =
      .ok (.luma vg drdg dbdg, []) ∧
    SlotStepOf (.luma vg drdg dbdg) s 1 px

/-- RUN (42_decoder R151): its encoding; `run` takes the payload, the pixel is kept, the cursor 1 on, and the end of the slot step
(R152, R153, R154), which emits the pixel. -/
def Obligations.RunLoadsTheCounterAndKeepsThePixel : Prop :=
  ∀ (n : BitVec 6) (s : State), n.toNat ≤ 61 →
    decode [BitVec.ofNat 8 (0xC0 + n.toNat)] = .ok (.run n, []) ∧
    ∃ t, exec (.run n) s = .next t ∧ SlotDone s t s.dec.px 1 n

/-- No opcode stops the machine: every opcode at every state has a next state, in which nothing outside DEC and its output space has
changed, nor a register no slot step writes, nor an output byte of another pixel (42_decoder sections 1 to 3). -/
def Obligations.EveryOpcodeHasANextStateAndTouchesOnlyTheDecoder : Prop :=
  ∀ (i : Instr) (s : State),
    ∃ t, exec i s = .next t ∧ DecOnly s t ∧ SlotKeeps s.dec t.dec ∧ t.agenda = s.agenda ∧
      (∀ a, a < 4 * s.dec.i.toNat ∨ 4 * s.dec.i.toNat + 4 ≤ a → Memory.read t.decOut a = Memory.read s.decOut a) ∧
      ((∀ n, i ≠ .run n) → t.dec.run = s.dec.run)

/-! ### The decoder's steps -/

/-- When the bytes at the cursor decode to `i`, the step of DEC is `exec i`, the agenda moved on. The first byte is `IN(p)`, an
operand byte `IN` too, or 0 at or past `CHUNK_END` under ZERO (42_decoder R141, R143). -/
def Obligations.StepRunsTheDecodedOpcode : Prop :=
  ∀ (s : State) (rest : List Event) (bs tail : List Byte) (i : Instr),
    s.DecTurn rest → s.dec.run = 0 → s.dec.p < s.dec.chunkEnd →
    (∀ k, k < bs.length → bs.getD k 0 =
      if k ≠ 0 ∧ s.dec.chunkEnd ≤ s.dec.p + BitVec.ofNat 32 k ∧ s.cfg.operandPastChunk = .zero then 0
      else s.inByte (s.dec.p + BitVec.ofNat 32 k)) →
    decode bs = .ok (i, tail) →
    step s = exec i { s with agenda := rest }

/-- With nothing on the agenda a BUSY engine takes its turn, DEC before ENC, and with neither BUSY the block waits. The model's
own choice of schedule (log 6). -/
def Obligations.EmptyAgendaGivesABusyEngineItsTurn : Prop :=
  ∀ (s : State), s.agenda = [] →
    (s.dec.ctl.state = .busy → step s = step { s with agenda := [.turn .dec] }) ∧
    (s.dec.ctl.state ≠ .busy → s.enc.ctl.state = .busy → step s = step { s with agenda := [.turn .enc] }) ∧
    (s.dec.ctl.state ≠ .busy → s.enc.ctl.state ≠ .busy → step s = .next s)

/-- The opcode that `withFetchWord` places is the one the next step runs. The model's own way of placing an opcode (log 19). -/
def Obligations.PlacedOpcodeRunsNext : Prop :=
  ∀ (s : State) (nbits w : Nat) (i : Instr), decodeTableWord nbits w = some i →
    ∃ u, step (s.withFetchWord nbits w) = exec i u ∧
      u.dec.px = s.dec.px ∧ u.dec.cache = s.dec.cache ∧ u.cfg = s.cfg ∧ u.agenda = s.agenda ∧ u.enc = s.enc

/-- RunContinue (42_decoder R142): the counter down by one, the pixel emitted again, nothing fetched, and the end of the slot
step. -/
def Obligations.RunContinueRepeatsThePixel : Prop :=
  ∀ (s : State) (rest : List Event), s.DecTurn rest → s.dec.run ≠ 0 →
    ∃ t, step s = .next t ∧ t.agenda = rest ∧ SlotDone s t s.dec.px 0 (s.dec.run - 1)

/-- Exhausted (42_decoder R144, an inference of the spec): the pixel emitted again, nothing fetched, no error. -/
def Obligations.ExhaustedRegionRepeatsThePixel : Prop :=
  ∀ (s : State) (rest : List Event), s.DecTurn rest → s.dec.run = 0 → s.dec.chunkEnd ≤ s.dec.p →
    ∃ t, step s = .next t ∧ t.agenda = rest ∧ SlotDone s t s.dec.px 0 0

/-- No fetch of a pass leaves the input, operands past the region come from its first four padding bytes, and the cursor ends at
most at `SIZE - 4` (42_decoder R155, an inference of the spec). Where `p` stands after an `Overrun` is the model's own reading
(log 16). -/
def Obligations.FetchesStayInsideTheInput : Prop :=
  ∀ (s : State), DecPass s.cfg.hashW s.dec → s.dec.run = 0 → s.dec.p < s.dec.chunkEnd →
    (∀ j, j < 5 → (s.dec.p + BitVec.ofNat 32 j).toNat = s.dec.p.toNat + j ∧
      s.dec.p.toNat + j + 5 ≤ s.dec.size.toNat) ∧
    ∃ t, s.slotStep = .next t ∧ t.dec.p.toNat + 4 ≤ s.dec.size.toNat ∧ s.dec.p.toNat < t.dec.p.toNat

/-- On an input whose first four padding bytes are zero, READ_INPUT and ZERO take the same slot steps (42_decoder R143, its last
sentence, an inference of the spec). -/
def Obligations.ZeroPaddingMakesReadInputAndZeroAgree : Prop :=
  ∀ (s : State), DecPass s.cfg.hashW s.dec → s.cfg.operandPastChunk = .readInput →
    (∀ a, s.dec.chunkEnd.toNat ≤ a → a < s.dec.chunkEnd.toNat + 4 → Memory.read s.decIn a = 0) →
    ∃ t, s.slotStep = .next t ∧ (s.withPolicy .zero).slotStep = .next (t.withPolicy .zero)

/-- The channel count does not change decoding (42_decoder R157): a slot step under another count does the same to everything
else. -/
def Obligations.ChannelCountDoesNotChangeDecoding : Prop :=
  ∀ (s t : State) (ch : Byte), s.slotStep = .next t → (s.withChannels ch).slotStep = .next (t.withChannels ch)

/-- A pass given its turns runs exactly its remaining slots and is DONE after the last and not before (42_decoder R154, 70 R241),
under the policies that raise nothing. That with an empty agenda the turns are DEC's even when ENC is BUSY too is the model's own
schedule (log 6). -/
def Obligations.PassEndsAfterExactlyItsSlots : Prop :=
  ∀ (s : State), s.agenda = [] → s.dec.ctl.state = .busy → s.dec.i < s.dec.n → s.cfg.operandPastChunk ≠ .fault →
    (∃ t, core.run (s.dec.n.toNat - s.dec.i.toNat) s = .next t ∧
      t.dec.ctl.state = .done ∧ t.dec.i = s.dec.n ∧ t.dec.ctl.outCount = s.dec.n) ∧
    ∀ k, k < s.dec.n.toNat - s.dec.i.toNat →
      ∃ u, core.run k s = .next u ∧ u.dec.ctl.state = .busy ∧ u.dec.i.toNat = s.dec.i.toNat + k

/-- A pass ends by its last slot, by `Overrun` under FAULT, or by the host's ABORT, and in no other way (42_decoder R140,
60_exceptions R200). That a host word whose low byte is 2 is the ABORT command, whatever its other bits, is the model's own (log 9). -/
def Obligations.OnlyThreeEventsEndADecoderPass : Prop :=
  ∀ (s t : State), s.dec.ctl.state = .busy → step s = .next t → t.dec.ctl.state ≠ .busy →
    (t.dec.ctl.state = .done ∧ t.dec.i = t.dec.n) ∨
    (t.dec.ctl.state = .error ∧ t.dec.ctl.cause = .overrun ∧ s.cfg.operandPastChunk = .fault) ∨
    (t.dec.ctl.state = .aborted ∧ t.dec.ctl.cause = .none ∧
      ∃ v rest, s.agenda = .host (.writeReg .dec 0 v) :: rest ∧ v.toNat % 256 = 2)

/-! ### The header -/

/-- START of DEC on an accepted header (70 R230, 41_header R129): the start values of 10_state R43, the descriptor registers, `N`,
`CHUNK_END` and the cursor. -/
def Obligations.AcceptedHeaderStartsThePass : Prop :=
  ∀ (s : State) (rest : List Event) (w h : Word) (ch cs : Byte),
    s.StartNext .dec rest → 22 ≤ s.dec.inSize.toNat → s.HeaderAt w h ch cs → DimsAccepted w h →
    (ch = 3 ∨ ch = 4) →
    ∃ t, step s = .next t ∧ t.agenda = rest ∧
      t.dec.ctl.state = .busy ∧ t.dec.ctl.cause = .none ∧ t.dec.ctl.outCount = 0 ∧ t.dec.ctl.errInfo = 0 ∧
      t.dec.px = ⟨0, 0, 0, 255⟩ ∧ t.dec.run = 0 ∧ (∀ k, Cache.lookup t.dec.cache k = ⟨0, 0, 0, 0⟩) ∧
      t.dec.width = w ∧ t.dec.height = h ∧ t.dec.channels = ch ∧ t.dec.colorspace = cs ∧
      t.dec.n.toNat = w.toNat * h.toNat ∧ t.dec.chunkEnd.toNat = s.dec.inSize.toNat - 8 ∧
      t.dec.p = 14 ∧ t.dec.i = 0 ∧ t.dec.size = s.dec.inSize ∧ t.dec.inSize = s.dec.inSize ∧ DecOnly s t

/-- START of DEC on a rejected header: the first failing check in the order of 41_header R131 is the cause (R121, R123 to R127); the
pass ends in ERROR with nothing emitted and the descriptor registers kept (R130, 60_exceptions R202). -/
def Obligations.RejectedHeaderReportsTheFirstFailingCheck : Prop :=
  ∀ (s : State) (rest : List Event) (w h : Word) (ch cs : Byte), s.StartNext .dec rest →
    let rejected (cause : DecCause) : Prop :=
      ∃ t, step s = .next t ∧ t.agenda = rest ∧ t.dec.ctl = ⟨.error, cause, 0, 0⟩ ∧
        t.dec.width = s.dec.width ∧ t.dec.height = s.dec.height ∧ t.dec.channels = s.dec.channels ∧
        t.dec.colorspace = s.dec.colorspace ∧ t.dec.inSize = s.dec.inSize ∧ DecOnly s t
    let size := s.dec.inSize.toNat;
    (size < 22 → rejected .short) ∧
    (22 ≤ size → (∃ k, k < 4 ∧ Memory.read s.decIn k ≠ [0x71, 0x6F, 0x69, 0x66].getD k 0) → rejected .magic) ∧
    (22 ≤ size → s.HeaderAt w h ch cs →
      (w = 0 → rejected .width0) ∧
      (w ≠ 0 → h = 0 → rejected .height0) ∧
      (w ≠ 0 → h ≠ 0 → ch.toNat < 3 ∨ 4 < ch.toNat → rejected .channels) ∧
      (w ≠ 0 → h ≠ 0 → ch = 3 ∨ ch = 4 → 400000000 / w.toNat ≤ h.toNat → rejected .dims))

/-- The dimensions that pass are exactly those with `1 <= height <= PIXELS_MAX / width - 1`, and their pixel count stays below
`PIXELS_MAX - width` (41_header R132, an inference of the spec). -/
def Obligations.AcceptedDimensionsAreBounded : Prop :=
  ∀ (w h : Word),
    (DimsAccepted w h ↔ 1 ≤ w.toNat ∧ 1 ≤ h.toNat ∧ h.toNat + 1 ≤ 400000000 / w.toNat) ∧
    (DimsAccepted w h →
      w.toNat ≤ 200000000 ∧ h.toNat ≤ 399999999 ∧ w.toNat * h.toNat + w.toNat ≤ 400000000 ∧
      (w * h).toNat = w.toNat * h.toNat ∧ w.toNat * h.toNat < 2 ^ 29)

/-! ### The hash and the cache -/

/-- The slot of a pixel is the weighted sum of its channels modulo 64 (40_hash_cache R101), for every choice of weights. -/
def Obligations.SlotIsTheWeightedSumModulo64 : Prop :=
  ∀ (w : Weights) (px : Pixel),
    (slotOf w px).toNat =
      (w.wr * px.r.toNat + w.wg * px.g.toNat + w.wb * px.b.toNat + w.wa * px.a.toNat) % 64

/-- UPDATE writes the pixel's slot and no other, LOOKUP reads it back, HIT is equality with the slot's pixel, and CLEAR leaves
`ZERO_PX` in every slot (40_hash_cache R104 to R107). -/
def Obligations.CacheOperationsReadBackWhatWasWritten : Prop :=
  ∀ (c : Cache) (w : Weights) (px : Pixel) (k : SlotIx),
    Cache.lookup (Cache.update c w px) k = (if k = slotOf w px then px else Cache.lookup c k) ∧
    (Cache.hit c w px = true ↔ Cache.lookup c (slotOf w px) = px) ∧
    Cache.hit (Cache.update c w px) w px = true ∧
    Cache.lookup Cache.clear k = ⟨0, 0, 0, 0⟩

/-- `START_PX` and `ZERO_PX` have different slots exactly when `wa` is no multiple of 64, and `ZERO_PX` has slot 0 (40_hash_cache
R102, R103, inferences of the spec). -/
def Obligations.StartPixelSlotDiffersUnlessAlphaWeightVanishes : Prop :=
  ∀ (w : Weights),
    slotOf w zeroPx = 0 ∧ (slotOf w startPx).toNat = (64 - w.wa % 64) % 64 ∧
    (slotOf w startPx ≠ slotOf w zeroPx ↔ w.wa % 64 ≠ 0)

/-! ### The encoder's steps -/

/-- A pixel equal to the previous one, below the limit and not the last, is counted and emits nothing (43_encoder R172). -/
def Obligations.RunPixelIsCounted : Prop :=
  ∀ (s : State) (rest : List Event), s.EncTurn rest → s.enc.i < s.enc.n → s.enc.i + 1 ≠ s.enc.n →
    s.enc.run.toNat ≤ 60 → Memory.readPixel s.encPix s.enc.i.toNat = s.enc.pxPrev →
    ∃ t, step s = .next t ∧ t.agenda = rest ∧ PixelDone s t [] (s.enc.run + 1) False

/-- A run pixel that makes the count 62, or is the last pixel, flushes the run as one RUN byte (43_encoder R173). -/
def Obligations.RunIsFlushedAtTheLimitAndAtTheEnd : Prop :=
  ∀ (s : State) (rest : List Event), s.EncTurn rest → s.EncRoom → s.enc.i < s.enc.n → s.enc.run.toNat ≤ 61 →
    s.enc.run.toNat = 61 ∨ s.enc.i + 1 = s.enc.n →
    Memory.readPixel s.encPix s.enc.i.toNat = s.enc.pxPrev →
    ∃ t, step s = .next t ∧ t.agenda = rest ∧ PixelDone s t [BitVec.ofNat 8 (0xC0 + s.enc.run.toNat)] 0 False

/-- A changed pixel that its slot holds is emitted as INDEX, after a pending run is flushed, whatever its alpha; the cache is
untouched (43_encoder R174, R175). -/
def Obligations.CacheHitEmitsIndex : Prop :=
  ∀ (s : State) (rest : List Event), s.EncTurn rest → s.EncRoom → s.enc.i < s.enc.n →
    let px := Memory.readPixel s.encPix s.enc.i.toNat
    px ≠ s.enc.pxPrev → Cache.lookup s.enc.cache (slotOf s.cfg.hashW px) = px →
    ∃ t, step s = .next t ∧ t.agenda = rest ∧
      PixelDone s t (flushBytes s.enc.run ++ [BitVec.ofNat 8 (slotOf s.cfg.hashW px).toNat]) 0 False

/-- On a miss a changed alpha emits RGBA, after a pending run is flushed; the cache takes the pixel (43_encoder R176, R177). -/
def Obligations.AlphaChangeEmitsRgba : Prop :=
  ∀ (s : State) (rest : List Event), s.EncTurn rest → s.EncRoom → s.enc.i < s.enc.n →
    let px := Memory.readPixel s.encPix s.enc.i.toNat
    px.a ≠ s.enc.pxPrev.a → Cache.lookup s.enc.cache (slotOf s.cfg.hashW px) ≠ px →
    ∃ t, step s = .next t ∧ t.agenda = rest ∧
      PixelDone s t (flushBytes s.enc.run ++ [0xFF, px.r, px.g, px.b, px.a]) 0 True

/-- On a miss with the alpha kept, the cheapest form that fits is emitted: DIFF, else LUMA, else RGB (43_encoder R178 to R181). The
deltas are the signed values of the wrapped differences. -/
def Obligations.CheapestFittingDeltaIsEmitted : Prop :=
  ∀ (s : State) (rest : List Event), s.EncTurn rest → s.EncRoom → s.enc.i < s.enc.n →
    let px := Memory.readPixel s.encPix s.enc.i.toNat
    let q := s.enc.pxPrev
    px ≠ q → px.a = q.a → Cache.lookup s.enc.cache (slotOf s.cfg.hashW px) ≠ px →
    let vr := (px.r - q.r).toInt
    let vg := (px.g - q.g).toInt
    let vb := (px.b - q.b).toInt
    let vgr := ((px.r - q.r) - (px.g - q.g)).toInt
    let vgb := ((px.b - q.b) - (px.g - q.g)).toInt
    let diffFits := -2 ≤ vr ∧ vr ≤ 1 ∧ -2 ≤ vg ∧ vg ≤ 1 ∧ -2 ≤ vb ∧ vb ≤ 1
    let lumaFits := -8 ≤ vgr ∧ vgr ≤ 7 ∧ -32 ≤ vg ∧ vg ≤ 31 ∧ -8 ≤ vgb ∧ vgb ≤ 7
    let emits (bs : List Byte) : Prop :=
      ∃ t, step s = .next t ∧ t.agenda = rest ∧ PixelDone s t (flushBytes s.enc.run ++ bs) 0 True;
    (diffFits → emits [BitVec.ofInt 8 (0x40 + 16 * (vr + 2) + 4 * (vg + 2) + (vb + 2))]) ∧
    (¬diffFits → lumaFits →
      emits [BitVec.ofInt 8 (0x80 + (vg + 32)), BitVec.ofInt 8 (16 * (vgr + 8) + (vgb + 8))]) ∧
    (¬diffFits → ¬lumaFits → emits [0xFE, px.r, px.g, px.b])

/-- The wrap of the green-relative deltas never changes the LUMA decision (43_encoder R178, an inference of the spec). -/
def Obligations.DeltaWrapNeverChangesTheLumaDecision : Prop :=
  ∀ (px q : Pixel),
    -32 ≤ (deltasOf px q).vg → (deltasOf px q).vg ≤ 31 →
    let d := deltasOf px q;
    ((-8 ≤ d.vgr ∧ d.vgr ≤ 7 ↔ -8 ≤ d.vr - d.vg ∧ d.vr - d.vg ≤ 7) ∧
     (-8 ≤ d.vgb ∧ d.vgb ≤ 7 ↔ -8 ≤ d.vb - d.vg ∧ d.vb - d.vg ≤ 7))

/-- After the last pixel step the eight padding bytes are appended and the pass is DONE (43_encoder R183, R184). -/
def Obligations.PaddingEndsTheEncoderPass : Prop :=
  ∀ (s : State) (rest : List Event), s.EncTurn rest → s.EncRoom → s.enc.i = s.enc.n →
    ∃ t, step s = .next t ∧ t.agenda = rest ∧ t.enc.ctl.state = .done ∧
      Appended s t [0, 0, 0, 0, 0, 0, 0, 1] ∧ EncKeeps s.enc t.enc ∧ EncOnly s t ∧
      t.enc.px = s.enc.px ∧ t.enc.pxPrev = s.enc.pxPrev ∧ t.enc.run = s.enc.run ∧ t.enc.i = s.enc.i ∧
      t.enc.n = s.enc.n ∧ t.enc.cache = s.enc.cache

/-- START of ENC with every precondition met (70 R231, 10_state R44): the start values, and the header's 14 bytes in the order of
41_header R133. -/
def Obligations.EncoderStartEmitsTheHeader : Prop :=
  ∀ (s : State) (rest : List Event), s.StartNext .enc rest → EncReady s.enc →
    ∃ t, step s = .next t ∧ t.agenda = rest ∧
      t.enc.ctl.state = .busy ∧ t.enc.ctl.cause = .none ∧ t.enc.ctl.errInfo = 0 ∧ t.enc.ctl.outCount = 14 ∧
      (∀ k, k < 4 → Memory.read t.encBytes k = [0x71, 0x6F, 0x69, 0x66].getD k 0) ∧
      (∀ k, k < 4 → (Memory.read t.encBytes (4 + k)).toNat = s.enc.width.toNat / 256 ^ (3 - k) % 256) ∧
      (∀ k, k < 4 → (Memory.read t.encBytes (8 + k)).toNat = s.enc.height.toNat / 256 ^ (3 - k) % 256) ∧
      Memory.read t.encBytes 12 = s.enc.channels ∧ Memory.read t.encBytes 13 = s.enc.colorspace ∧
      t.enc.n.toNat = s.enc.width.toNat * s.enc.height.toNat ∧ t.enc.i = 0 ∧ t.enc.pxPrev = ⟨0, 0, 0, 255⟩ ∧
      t.enc.run = 0 ∧ (∀ k, Cache.lookup t.enc.cache k = ⟨0, 0, 0, 0⟩) ∧
      t.enc.pixLen = s.enc.pixLen ∧ t.enc.width = s.enc.width ∧ t.enc.height = s.enc.height ∧
      t.enc.channels = s.enc.channels ∧ t.enc.colorspace = s.enc.colorspace ∧ EncOnly s t

/-- START of ENC with a precondition that fails: the first in the order of 43_encoder R185 is the cause, and nothing is emitted
(60_exceptions R204). -/
def Obligations.FirstFailingPreconditionEndsTheEncoderPass : Prop :=
  ∀ (s : State) (rest : List Event), s.StartNext .enc rest →
    let e := s.enc
    let rejected (cause : EncCause) : Prop :=
      ∃ t, step s = .next t ∧ t.agenda = rest ∧ t.enc = { e with ctl := ⟨.error, cause, 0, 0⟩ } ∧ EncOnly s t
    let dims := e.width ≠ 0 ∧ e.height ≠ 0
    let channels := e.channels = 3 ∨ e.channels = 4
    let guard := e.height.toNat < 400000000 / e.width.toNat
    let colour := e.colorspace = 0 ∨ e.colorspace = 1;
    (e.width = 0 → rejected .width0) ∧
    (e.width ≠ 0 → e.height = 0 → rejected .height0) ∧
    (dims → ¬channels → rejected .channels) ∧
    (dims → channels → ¬guard → rejected .dims) ∧
    (dims → channels → guard → ¬colour → rejected .colorspace) ∧
    (dims → channels → guard → colour → e.pixLen.toNat ≠ e.width.toNat * e.height.toNat → rejected .len)

/-- An encoder pass given its turns is DONE after START, `N` pixel steps and the padding step, and its output has
`14 + B + 8` bytes with `ceil(N / 62) <= B <= 5N` (70 R241, 43_encoder R184, R187, the last an inference of the spec). -/
def Obligations.EncoderPassEndsWithinItsSizeBounds : Prop :=
  ∀ (s : State), s.StartNext .enc [] → s.dec.ctl.state ≠ .busy → EncReady s.enc →
    let n := s.enc.width.toNat * s.enc.height.toNat
    ∃ t, core.run (n + 2) s = .next t ∧ t.enc.ctl.state = .done ∧
      22 + (n + 61) / 62 ≤ t.enc.ctl.outCount.toNat ∧ t.enc.ctl.outCount.toNat ≤ 22 + 5 * n

/-- The opcode the selector chooses for a changed pixel is well-formed and, executed by DEC on the previous pixel, gives that pixel
back; so does INDEX on a cache that holds it (40_hash_cache R110, an inference of the spec). -/
def Obligations.SelectedOpcodeReproducesThePixel : Prop :=
  ∀ (px : Pixel) (s : State), px ≠ s.dec.px → s.OperandsReadable 4 →
    (selectOnMiss px s.dec.px).wf = true ∧
    (∃ t, exec (selectOnMiss px s.dec.px) s = .next t ∧ t.dec.px = px) ∧
    (Cache.lookup s.dec.cache (slotOf s.cfg.hashW px) = px →
      ∃ t, exec (.index (slotOf s.cfg.hashW px)) s = .next t ∧ t.dec.px = px)

/-- The round trip (40_hash_cache R110, an inference of the spec, under the premise of R103): an encoder pass on any image the
preconditions admit, its output given to DEC, and a decoder pass, give back the descriptor and every pixel, under every operand
policy. -/
def Obligations.DecodingAnEncodedImageGivesItsPixelsBack : Prop :=
  ∀ (s : State), s.StartNext .enc [] → s.dec.ctl.state ≠ .busy → EncReady s.enc → s.cfg.hashW.wa % 64 ≠ 0 →
    let n := s.enc.width.toNat * s.enc.height.toNat
    ∃ e d, core.run (n + 2) s = .next e ∧ e.enc.ctl.state = .done ∧
      core.run (n + 1)
        { e with
          decIn := e.encBytes
          dec := { e.dec with inSize := e.enc.ctl.outCount }
          agenda := [.host (.writeReg .dec 0 1)] } = .next d ∧
      d.dec.ctl.state = .done ∧ d.dec.width = s.enc.width ∧ d.dec.height = s.enc.height ∧
      d.dec.channels = s.enc.channels ∧ d.dec.colorspace = s.enc.colorspace ∧ d.dec.ctl.outCount.toNat = n ∧
      ∀ j, j < n → Memory.readPixel d.decOut j = Memory.readPixel s.encPix j

/-! ### Host commands and registers -/

/-- START to a BUSY engine has no step, and a write to an RW register of a BUSY engine has no effect (60_exceptions R217); nor has
one to a reserved number (10_state R31). That a write to a read-only register has none either is the model's own reading (log 10),
and so is the refusal of START (log 13). -/
def Obligations.BusyEngineAdmitsNoStartAndIgnoresWrites : Prop :=
  ∀ (s : State) (rest : List Event) (no : Nat) (v : Word), no ≠ 0 →
    (s.dec.ctl.state = .busy →
      (s.agenda = .host (.writeReg .dec 0 1) :: rest → step s = .refused .startWhileBusy) ∧
      (s.agenda = .host (.writeReg .dec no v) :: rest → step s = .next { s with agenda := rest })) ∧
    (s.enc.ctl.state = .busy →
      (s.agenda = .host (.writeReg .enc 0 1) :: rest → step s = .refused .startWhileBusy) ∧
      (s.agenda = .host (.writeReg .enc no v) :: rest → step s = .next { s with agenda := rest }))

/-- A write to `CMD` of DEC (10_state R37, 60_exceptions R211): START begins a pass unless BUSY, ABORT ends one, and every other
write has no effect. -/
def Obligations.DecoderCommandsStartAndAbort : Prop :=
  ∀ (s : State) (rest : List Event) (v : Word), v.toNat < 256 → s.agenda = .host (.writeReg .dec 0 v) :: rest →
    (v = 1 → s.dec.ctl.state ≠ .busy → ∃ t, step s = .next t ∧ t.agenda = rest ∧ DecOnly s t ∧
      t.dec.px = ⟨0, 0, 0, 255⟩ ∧ t.dec.run = 0 ∧ (∀ k, Cache.lookup t.dec.cache k = ⟨0, 0, 0, 0⟩) ∧
      t.dec.ctl.outCount = 0 ∧ (t.dec.ctl.state = .busy ∨ t.dec.ctl.state = .error)) ∧
    (v = 1 → s.dec.ctl.state = .busy → step s = .refused .startWhileBusy) ∧
    (v = 2 → s.dec.ctl.state = .busy →
      step s = .next { s with agenda := rest, dec := { s.dec with ctl := { s.dec.ctl with state := .aborted, cause := .none } } }) ∧
    (v = 2 → s.dec.ctl.state ≠ .busy → step s = .next { s with agenda := rest }) ∧
    (v ≠ 1 → v ≠ 2 → step s = .next { s with agenda := rest })

/-- A write to `CMD` of ENC (10_state R37, 60_exceptions R211): START begins a pass unless BUSY, ABORT ends one, and every other
write has no effect. -/
def Obligations.EncoderCommandsStartAndAbort : Prop :=
  ∀ (s : State) (rest : List Event) (v : Word), v.toNat < 256 → s.agenda = .host (.writeReg .enc 0 v) :: rest →
    (v = 1 → s.enc.ctl.state ≠ .busy → ∃ t, step s = .next t ∧ t.agenda = rest ∧ EncOnly s t ∧
      (t.enc.ctl.state = .busy ∨ t.enc.ctl.state = .error)) ∧
    (v = 1 → s.enc.ctl.state = .busy → step s = .refused .startWhileBusy) ∧
    (v = 2 → s.enc.ctl.state = .busy →
      step s = .next { s with agenda := rest, enc := { s.enc with ctl := { s.enc.ctl with state := .aborted, cause := .none } } }) ∧
    (v = 2 → s.enc.ctl.state ≠ .busy → step s = .next { s with agenda := rest }) ∧
    (v ≠ 1 → v ≠ 2 → step s = .next { s with agenda := rest })

/-- A write to an RW register of an engine that is not BUSY stores the value there and changes nothing else; a write to any other
number has no effect (10_state R31, R35, R36; that a read-only register ignores a write is log 10). -/
def Obligations.HostWritesReachOnlyTheRwRegisters : Prop :=
  ∀ (s : State) (rest : List Event) (no : Nat) (v : Word), no ≠ 0 →
    (s.dec.ctl.state ≠ .busy → s.agenda = .host (.writeReg .dec no v) :: rest →
      step s = .next { s with agenda := rest, dec := if no = 2 then { s.dec with inSize := v } else s.dec }) ∧
    (s.enc.ctl.state ≠ .busy → s.agenda = .host (.writeReg .enc no v) :: rest →
      (no = 2 → step s = .next { s with agenda := rest, enc := { s.enc with pixLen := v } }) ∧
      (no = 3 → step s = .next { s with agenda := rest, enc := { s.enc with width := v } }) ∧
      (no = 4 → step s = .next { s with agenda := rest, enc := { s.enc with height := v } }) ∧
      (no = 5 → ∀ b : Byte, v.toNat = b.toNat → step s = .next { s with agenda := rest, enc := { s.enc with channels := b } }) ∧
      (no = 6 → ∀ b : Byte, v.toNat = b.toNat → step s = .next { s with agenda := rest, enc := { s.enc with colorspace := b } }) ∧
      (no = 1 ∨ 7 ≤ no → step s = .next { s with agenda := rest }))

/-- The status words (10_state R32, R33): `STATE` in bits 2..0 with the codes of R30, `CAUSE` in bits 11..8 with the codes of
60_exceptions R201, every other bit 0; reading one changes nothing but what the host holds. -/
def Obligations.StatusWordHoldsStateAndCause : Prop :=
  ∀ (s : State) (rest : List Event),
    let stateCode : EngineState → Nat := fun x => match x with
      | .idle => 0 | .busy => 1 | .done => 2 | .error => 3 | .aborted => 4
    let decCode : DecCause → Nat := fun x => match x with
      | .none => 0 | .short => 1 | .magic => 2 | .width0 => 3 | .height0 => 4 | .channels => 5 | .dims => 6 | .overrun => 7
    let encCode : EncCause → Nat := fun x => match x with
      | .none => 0 | .width0 => 1 | .height0 => 2 | .channels => 3 | .dims => 4 | .colorspace => 5 | .len => 6;
    (s.agenda = .host (.readReg .dec 1) :: rest →
      ∃ v, step s = .next { s with agenda := rest, hostData := .word v } ∧
        v.toNat = stateCode s.dec.ctl.state + 256 * decCode s.dec.ctl.cause) ∧
    (s.agenda = .host (.readReg .enc 1) :: rest →
      ∃ v, step s = .next { s with agenda := rest, hostData := .word v } ∧
        v.toNat = stateCode s.enc.ctl.state + 256 * encCode s.enc.ctl.cause)

/-- Reads of the registers (10_state R31): a read-only register answers its value at any time, an RW register while its engine is
not BUSY. The rest is the model's own: `CMD` is refused (log 12), a reserved number answers a free value and moves the free counter
on (log 8), and so does an RW register while BUSY (log 11); a register that a failed pass keeps reads as kept (log 18), and an 8-bit
one zero-extended (log 9). -/
def Obligations.RegisterReadsAnswerTheirValues : Prop :=
  ∀ (s : State) (rest : List Event) (no : Nat) (e : Engine), s.agenda = .host (.readReg e no) :: rest →
    let answersFree : Prop := step s = .next
      { s with agenda := rest, hostData := .word (Config.freeWord s.freeCtr), freeCtr := s.freeCtr + 1 }
    let answers (n : Nat) : Prop := ∃ v, step s = .next { s with agenda := rest, hostData := .word v } ∧ v.toNat = n;
    (no = 0 → step s = .refused .readOfWriteOnly) ∧
    (9 ≤ no → answersFree) ∧
    (e = .dec → s.dec.ctl.state = .busy → no = 2 → answersFree) ∧
    (e = .enc → s.enc.ctl.state = .busy → 2 ≤ no → no ≤ 6 → answersFree) ∧
    (∀ k, e = .dec → s.dec.ctl.state ≠ .busy ∨ 3 ≤ no → no = 2 + k → k < 7 →
      answers ([s.dec.inSize.toNat, s.dec.width.toNat, s.dec.height.toNat, s.dec.channels.toNat,
        s.dec.colorspace.toNat, s.dec.ctl.outCount.toNat, s.dec.ctl.errInfo.toNat].getD k 0)) ∧
    (∀ k, e = .enc → s.enc.ctl.state ≠ .busy ∨ 7 ≤ no → no = 2 + k → k < 7 →
      answers ([s.enc.pixLen.toNat, s.enc.width.toNat, s.enc.height.toNat, s.enc.channels.toNat,
        s.enc.colorspace.toNat, s.enc.ctl.outCount.toNat, s.enc.ctl.errInfo.toNat].getD k 0))

/-- Outputs are readable only when the pass is DONE (60_exceptions R207): then a read answers the pixel or byte; otherwise what it
answers does not depend on the output space at all (it is a free value, log 8). -/
def Obligations.UnfinishedOutputsTellTheHostNothing : Prop :=
  ∀ (s : State) (rest : List Event) (k : Word) (other : Memory),
    (s.agenda = .host (.readPixel k) :: rest →
      (s.dec.ctl.state = .done → k < s.dec.ctl.outCount →
        step s = .next { s with agenda := rest, hostData := .pixel (Memory.readPixel s.decOut k.toNat) }) ∧
      (s.dec.ctl.state ≠ .done → ∃ t u, step s = .next t ∧ step { s with decOut := other } = .next u ∧
        u = { t with decOut := other })) ∧
    (s.agenda = .host (.readByte k) :: rest →
      (s.enc.ctl.state = .done → k < s.enc.ctl.outCount →
        step s = .next { s with agenda := rest, hostData := .byte (Memory.read s.encBytes k.toNat) }) ∧
      (s.enc.ctl.state ≠ .done → ∃ t u, step s = .next t ∧ step { s with encBytes := other } = .next u ∧
        u = { t with encBytes := other }))

/-- The inputs of a pass are fixed (20_memory R63, 70 R234): no step changes the input space of a BUSY engine, nor the registers it
took at START; a host that would change the space is refused (log 13), and one that waits is served. -/
def Obligations.InputsAreFixedDuringAPass : Prop :=
  (∀ (s t : State), step s = .next t →
    (s.dec.ctl.state = .busy → t.decIn = s.decIn ∧ t.dec.inSize = s.dec.inSize) ∧
    (s.enc.ctl.state = .busy → t.encPix = s.encPix ∧ t.enc.pixLen = s.enc.pixLen ∧ t.enc.width = s.enc.width ∧
      t.enc.height = s.enc.height ∧ t.enc.channels = s.enc.channels ∧ t.enc.colorspace = s.enc.colorspace)) ∧
  (∀ (s : State) (rest : List Event) (k : Word) (b : Byte) (px : Pixel),
    (s.agenda = .host (.putByte k b) :: rest →
      (s.dec.ctl.state = .busy → step s = .refused .inputChangedWhileBusy) ∧
      (s.dec.ctl.state ≠ .busy → ∃ t, step s = .next t ∧ ∀ a, Memory.read t.decIn a =
        if a = k.toNat then b else Memory.read s.decIn a)) ∧
    (s.agenda = .host (.putPixel k px) :: rest →
      (s.enc.ctl.state = .busy → step s = .refused .inputChangedWhileBusy) ∧
      (s.enc.ctl.state ≠ .busy → ∃ t, step s = .next t ∧ ∀ j, Memory.readPixel t.encPix j =
        if j = k.toNat then px else Memory.readPixel s.encPix j)))

/-! ### The whole machine -/

/-- Power-on (10_state R42): both engines IDLE with no cause, nothing counted, no error detail, the descriptor of DEC zero. -/
def Obligations.ResetLeavesBothEnginesIdle : Prop :=
  let s := State.reset
  s.dec.ctl.state = .idle ∧ s.dec.ctl.cause = .none ∧ s.dec.ctl.outCount = 0 ∧ s.dec.ctl.errInfo = 0 ∧
  s.enc.ctl.state = .idle ∧ s.enc.ctl.cause = .none ∧ s.enc.ctl.outCount = 0 ∧ s.enc.ctl.errInfo = 0 ∧
  s.dec.width = 0 ∧ s.dec.height = 0 ∧ s.dec.channels = 0 ∧ s.dec.colorspace = 0

/-- The state after reset meets the invariant. -/
def Obligations.ResetMeetsTheInvariant : Prop := State.reset.Inv

/-- Every step keeps the invariant, from every state that meets it: the data spaces stay canonical, and each pass stays within its
counters, its cursor bounds, its run limits and a sound cache (10_state, 20_memory, 40_hash_cache R108, 42_decoder R155, 43_encoder
R186, R187). -/
def Obligations.EveryStepKeepsTheInvariant : Prop :=
  ∀ (s t : State), s.Inv → step s = .next t → t.Inv

/-- In a state that meets the invariant no turn of an engine is stuck: only a host operation can stop the machine (42_decoder R141,
60_exceptions R200). -/
def Obligations.EnginesNeverStopTheMachine : Prop :=
  ∀ (s : State), s.Inv → (∀ op rest, s.agenda ≠ .host op :: rest) → ∃ t, step s = .next t

/-- The engines share nothing (00_scope R6, 20_memory R61): what an engine's turn does to its own registers and output space depends
on them, its input and the parameters alone, and it leaves the other engine and its spaces as they are. -/
def Obligations.EnginesDoNotInterfere : Prop :=
  (∀ (s s' t : State) (rest rest' : List Event),
    s.agenda = .turn .dec :: rest → s'.agenda = .turn .dec :: rest' →
    s'.cfg = s.cfg → s'.dec = s.dec → s'.decIn = s.decIn → s'.decOut = s.decOut → step s = .next t →
    ∃ t', step s' = .next t' ∧ t'.dec = t.dec ∧ t'.decOut = t.decOut ∧ DecOnly s' t' ∧ t'.agenda = rest') ∧
  (∀ (s s' t : State) (rest rest' : List Event),
    s.agenda = .turn .enc :: rest → s'.agenda = .turn .enc :: rest' →
    s'.cfg = s.cfg → s'.enc = s.enc → s'.encPix = s.encPix → s'.encBytes = s.encBytes → step s = .next t →
    ∃ t', step s' = .next t' ∧ t'.enc = t.enc ∧ t'.encBytes = t.encBytes ∧ EncOnly s' t' ∧ t'.agenda = rest')

/-- A pass that has ended, or has not begun, stays as it is until the host writes START (60_exceptions R208): its status, its
pass-local registers and its output space are kept by every other step. That every host word whose low byte is 1 counts as START is
the model's own (log 9). -/
def Obligations.OnlyStartLeavesAnEndedPass : Prop :=
  ∀ (s t : State), step s = .next t →
    (s.dec.ctl.state ≠ .busy →
      (∀ v rest, s.agenda = .host (.writeReg .dec 0 v) :: rest → v.toNat % 256 ≠ 1) →
      t.dec = { s.dec with inSize := t.dec.inSize } ∧ t.decOut = s.decOut) ∧
    (s.enc.ctl.state ≠ .busy →
      (∀ v rest, s.agenda = .host (.writeReg .enc 0 v) :: rest → v.toNat % 256 ≠ 1) →
      t.enc.ctl = s.enc.ctl ∧ t.enc.px = s.enc.px ∧ t.enc.pxPrev = s.enc.pxPrev ∧ t.enc.run = s.enc.run ∧
      t.enc.i = s.enc.i ∧ t.enc.n = s.enc.n ∧ t.enc.cache = s.enc.cache ∧ t.encBytes = s.encBytes)

/-- No step changes the parameters of the machine (00_scope R7; log 1). -/
def Obligations.ParametersNeverChange : Prop :=
  ∀ (s t : State), step s = .next t → t.cfg = s.cfg
end

