-- ==== Sys2Proof/Laws/Cache.lean ====
section
/-! SUPPORT. The pixel cache: lookups after updates and after CLEAR, and the hash as a number. -/

namespace Sys2Proof.Machine

/-- A slot as the number the hash computes (40_hash_cache R101). -/
theorem slotOf_toNat (w : Weights) (px : Pixel) :
    (slotOf w px).toNat =
      (w.wr * px.r.toNat + w.wg * px.g.toNat + w.wb * px.b.toNat + w.wa * px.a.toNat) % 64 := by
  simp [slotOf]

/-- An update changes the pixel's own slot and no other (40_hash_cache R106). -/
theorem Cache.lookup_update (c : Cache) (w : Weights) (px : Pixel) (s : SlotIx) :
    Cache.lookup (Cache.update c w px) s = if s = slotOf w px then px else Cache.lookup c s := by
  unfold Cache.lookup Cache.update
  rw [Vector.getElem_set]
  by_cases h : s = slotOf w px
  · subst h; simp
  · have h' : (slotOf w px).toNat ≠ s.toNat := fun e => h (BitVec.eq_of_toNat_eq e.symm)
    simp [h, h']

@[simp] theorem Cache.lookup_update_same (c : Cache) (w : Weights) (px : Pixel) :
    Cache.lookup (Cache.update c w px) (slotOf w px) = px := by simp [Cache.lookup_update]

@[simp] theorem Cache.lookup_clear (s : SlotIx) : Cache.lookup Cache.clear s = zeroPx := by
  simp [Cache.lookup, Cache.clear]

theorem Cache.hit_iff (c : Cache) (w : Weights) (px : Pixel) :
    Cache.hit c w px = true ↔ Cache.lookup c (slotOf w px) = px := by simp [Cache.hit]

/-- Caches that agree in every lookup are equal. -/
theorem Cache.ext_lookup (c d : Cache) (h : ∀ s, Cache.lookup c s = Cache.lookup d s) : c = d := by
  apply Vector.ext
  intro k hk
  have := h (BitVec.ofNat 6 k)
  simp only [Cache.lookup, BitVec.toNat_ofNat] at this
  simpa [Nat.mod_eq_of_lt hk] using this

end Sys2Proof.Machine
end

