-- ==== Sys2Proof/Laws/Memory.lean ====
section
/-! SUPPORT. Reads after writes in a data space, and the canonical form every write keeps. -/

namespace Sys2Proof.Machine

@[simp] theorem Memory.read_nil (a : Nat) : Memory.read [] a = 0 := rfl

theorem Memory.read_cons (k a : Nat) (b : Byte) (m : Memory) :
    Memory.read ((k, b) :: m) a = if k = a then b else Memory.read m a := rfl

theorem Memory.read_erase (m : Memory) (a x : Nat) :
    Memory.read (Memory.erase m a) x = if x = a then 0 else Memory.read m x := by
  induction m with
  | nil => simp [Memory.erase]
  | cons c m ih =>
    obtain ⟨k, b⟩ := c
    unfold Memory.erase at ih ⊢
    rw [List.filter_cons]
    by_cases hk : k = a
    · subst hk
      simp only [bne_self_eq_false, Bool.false_eq_true, if_false, ih, Memory.read_cons]
      by_cases hx : x = k
      · simp [hx]
      · simp [hx, Ne.symm hx]
    · have : (k != a) = true := by simpa using hk
      simp only [this, if_true, Memory.read_cons, ih]
      by_cases hx : k = x
      · subst hx; simp [hk]
      · simp [hx]

/-- Putting an entry in at an address that has none changes that address alone. -/
theorem Memory.read_place (m : Memory) (a x : Nat) (b : Byte) (h : ∀ c ∈ m, c.1 ≠ a) :
    Memory.read (Memory.place m a b) x = if x = a then b else Memory.read m x := by
  induction m with
  | nil => simp only [Memory.place, Memory.read_cons, Memory.read_nil, eq_comm]
  | cons c m ih =>
    obtain ⟨k, e⟩ := c
    have hk : k ≠ a := h (k, e) (by simp)
    have ih := ih (fun c hc => h c (by simp [hc]))
    unfold Memory.place
    split
    · simp only [Memory.read_cons, eq_comm]
    · simp only [Memory.read_cons, ih]
      by_cases hx : k = x
      · subst hx; simp [hk]
      · simp [hx]

theorem Memory.ne_of_mem_erase (m : Memory) (a : Nat) : ∀ c ∈ Memory.erase m a, c.1 ≠ a := by
  intro c hc
  simpa using (List.mem_filter.mp hc).2

/-- A write changes the byte at its address and no other (the memory need not be canonical). -/
theorem Memory.read_write (m : Memory) (a x : Nat) (b : Byte) :
    Memory.read (Memory.write m a b) x = if x = a then b else Memory.read m x := by
  unfold Memory.write
  split
  · rename_i h; subst h; exact Memory.read_erase m a x
  · rw [Memory.read_place _ _ _ _ (Memory.ne_of_mem_erase m a), Memory.read_erase]
    split <;> rfl

@[simp] theorem Memory.read_write_same (m : Memory) (a : Nat) (b : Byte) :
    Memory.read (Memory.write m a b) a = b := by simp [Memory.read_write]

theorem Memory.read_write_other {a x : Nat} (m : Memory) (b : Byte) (h : x ≠ a) :
    Memory.read (Memory.write m a b) x = Memory.read m x := by simp [Memory.read_write, h]

/-! ### The canonical form -/

theorem Memory.wf_nil : Memory.wf [] := ⟨List.Pairwise.nil, fun _ h => nomatch h⟩

theorem Memory.erase_wf (m : Memory) (a : Nat) (h : Memory.wf m) : Memory.wf (Memory.erase m a) :=
  ⟨h.1.filter _, fun c hc => h.2 c (List.mem_of_mem_filter hc)⟩

theorem Memory.mem_place (m : Memory) (a : Nat) (b : Byte) (c : Host.Cell) :
    c ∈ Memory.place m a b ↔ c = (a, b) ∨ c ∈ m := by
  induction m with
  | nil => simp [Memory.place]
  | cons d m ih =>
    obtain ⟨k, e⟩ := d
    unfold Memory.place
    split
    · simp
    · simp only [List.mem_cons, ih]; tauto

theorem Memory.place_wf (m : Memory) (a : Nat) (b : Byte) (hb : b ≠ 0) (hm : ∀ c ∈ m, c.1 ≠ a)
    (h : Memory.wf m) : Memory.wf (Memory.place m a b) := by
  refine ⟨?_, fun c hc => ?_⟩
  · obtain ⟨hs, -⟩ := h
    induction m with
    | nil => simp [Memory.place]
    | cons d m ih =>
      obtain ⟨k, e⟩ := d
      have hk : k ≠ a := hm (k, e) (by simp)
      rw [List.pairwise_cons] at hs
      unfold Memory.place
      split
      · rename_i hlt
        refine List.pairwise_cons.mpr ⟨fun c hc => ?_, List.pairwise_cons.mpr hs⟩
        rcases List.mem_cons.mp hc with rfl | hc
        · exact hlt
        · exact lt_trans hlt (hs.1 c hc)
      · rename_i hlt
        refine List.pairwise_cons.mpr ⟨fun c hc => ?_, ih (fun c hc => hm c (by simp [hc])) hs.2⟩
        rcases (Memory.mem_place m a b c).mp hc with rfl | hc
        · show k < a; omega
        · exact hs.1 c hc
  · rcases (Memory.mem_place m a b c).mp hc with rfl | hc
    · exact hb
    · exact h.2 c hc

/-- A write keeps the canonical form. -/
theorem Memory.write_wf (m : Memory) (a : Nat) (b : Byte) (h : Memory.wf m) : Memory.wf (Memory.write m a b) := by
  unfold Memory.write
  split
  · exact Memory.erase_wf m a h
  · rename_i hb
    exact Memory.place_wf _ a b hb (Memory.ne_of_mem_erase m a) (Memory.erase_wf m a h)

/-! ### Pixels -/

/-- A pixel write changes the four bytes of its pixel and no other. -/
theorem Memory.read_writePixel (m : Memory) (i a : Nat) (px : Pixel) :
    Memory.read (Memory.writePixel m i px) a =
      if a = 4 * i then px.r else if a = 4 * i + 1 then px.g else if a = 4 * i + 2 then px.b
      else if a = 4 * i + 3 then px.a else Memory.read m a := by
  simp only [Memory.writePixel, Memory.read_write]
  split_ifs <;> first | rfl | omega

theorem Memory.read_writePixel_outside (m : Memory) (i a : Nat) (px : Pixel) (h : a < 4 * i ∨ 4 * i + 4 ≤ a) :
    Memory.read (Memory.writePixel m i px) a = Memory.read m a := by
  rw [Memory.read_writePixel]
  split_ifs <;> first | rfl | omega

/-- A pixel read after a pixel write. -/
theorem Memory.readPixel_writePixel (m : Memory) (i j : Nat) (px : Pixel) :
    Memory.readPixel (Memory.writePixel m i px) j = if j = i then px else Memory.readPixel m j := by
  by_cases h : j = i
  · subst h
    simp [Memory.readPixel, Memory.read_writePixel]
  · simp only [Memory.readPixel, if_neg h]
    congr 1 <;> exact Memory.read_writePixel_outside m i _ px (by omega)

theorem Memory.writePixel_wf (m : Memory) (i : Nat) (px : Pixel) (h : Memory.wf m) :
    Memory.wf (Memory.writePixel m i px) :=
  Memory.write_wf _ _ _ (Memory.write_wf _ _ _ (Memory.write_wf _ _ _ (Memory.write_wf _ _ _ h)))

end Sys2Proof.Machine
end

