-- ==== Sys2Proof/Laws/State.lean ====
section
/-! SUPPORT. What each named update of the state writes and what it leaves, field by field. -/

namespace Sys2Proof.Machine

section StateSetDec
variable (s : State) (d : Dec)

@[simp] theorem State.setDec_cfg : (s.setDec d).cfg = s.cfg := rfl
@[simp] theorem State.setDec_dec : (s.setDec d).dec = d := rfl
@[simp] theorem State.setDec_enc : (s.setDec d).enc = s.enc := rfl
@[simp] theorem State.setDec_decIn : (s.setDec d).decIn = s.decIn := rfl
@[simp] theorem State.setDec_decOut : (s.setDec d).decOut = s.decOut := rfl
@[simp] theorem State.setDec_encPix : (s.setDec d).encPix = s.encPix := rfl
@[simp] theorem State.setDec_encBytes : (s.setDec d).encBytes = s.encBytes := rfl
@[simp] theorem State.setDec_agenda : (s.setDec d).agenda = s.agenda := rfl
@[simp] theorem State.setDec_hostData : (s.setDec d).hostData = s.hostData := rfl
@[simp] theorem State.setDec_freeCtr : (s.setDec d).freeCtr = s.freeCtr := rfl

end StateSetDec

section StateSetEnc
variable (s : State) (e : Enc)

@[simp] theorem State.setEnc_cfg : (s.setEnc e).cfg = s.cfg := rfl
@[simp] theorem State.setEnc_dec : (s.setEnc e).dec = s.dec := rfl
@[simp] theorem State.setEnc_enc : (s.setEnc e).enc = e := rfl
@[simp] theorem State.setEnc_decIn : (s.setEnc e).decIn = s.decIn := rfl
@[simp] theorem State.setEnc_decOut : (s.setEnc e).decOut = s.decOut := rfl
@[simp] theorem State.setEnc_encPix : (s.setEnc e).encPix = s.encPix := rfl
@[simp] theorem State.setEnc_encBytes : (s.setEnc e).encBytes = s.encBytes := rfl
@[simp] theorem State.setEnc_agenda : (s.setEnc e).agenda = s.agenda := rfl
@[simp] theorem State.setEnc_hostData : (s.setEnc e).hostData = s.hostData := rfl
@[simp] theorem State.setEnc_freeCtr : (s.setEnc e).freeCtr = s.freeCtr := rfl

end StateSetEnc

section DecSetCtl
variable (d : Dec) (c : Ctl DecCause)

@[simp] theorem Dec.setCtl_ctl : (d.setCtl c).ctl = c := rfl
@[simp] theorem Dec.setCtl_inSize : (d.setCtl c).inSize = d.inSize := rfl
@[simp] theorem Dec.setCtl_width : (d.setCtl c).width = d.width := rfl
@[simp] theorem Dec.setCtl_height : (d.setCtl c).height = d.height := rfl
@[simp] theorem Dec.setCtl_channels : (d.setCtl c).channels = d.channels := rfl
@[simp] theorem Dec.setCtl_colorspace : (d.setCtl c).colorspace = d.colorspace := rfl
@[simp] theorem Dec.setCtl_size : (d.setCtl c).size = d.size := rfl
@[simp] theorem Dec.setCtl_px : (d.setCtl c).px = d.px := rfl
@[simp] theorem Dec.setCtl_run : (d.setCtl c).run = d.run := rfl
@[simp] theorem Dec.setCtl_p : (d.setCtl c).p = d.p := rfl
@[simp] theorem Dec.setCtl_i : (d.setCtl c).i = d.i := rfl
@[simp] theorem Dec.setCtl_n : (d.setCtl c).n = d.n := rfl
@[simp] theorem Dec.setCtl_chunkEnd : (d.setCtl c).chunkEnd = d.chunkEnd := rfl
@[simp] theorem Dec.setCtl_cache : (d.setCtl c).cache = d.cache := rfl

end DecSetCtl

section DecSetPx
variable (d : Dec) (v : Pixel)

@[simp] theorem Dec.setPx_ctl : (d.setPx v).ctl = d.ctl := rfl
@[simp] theorem Dec.setPx_inSize : (d.setPx v).inSize = d.inSize := rfl
@[simp] theorem Dec.setPx_width : (d.setPx v).width = d.width := rfl
@[simp] theorem Dec.setPx_height : (d.setPx v).height = d.height := rfl
@[simp] theorem Dec.setPx_channels : (d.setPx v).channels = d.channels := rfl
@[simp] theorem Dec.setPx_colorspace : (d.setPx v).colorspace = d.colorspace := rfl
@[simp] theorem Dec.setPx_size : (d.setPx v).size = d.size := rfl
@[simp] theorem Dec.setPx_px : (d.setPx v).px = v := rfl
@[simp] theorem Dec.setPx_run : (d.setPx v).run = d.run := rfl
@[simp] theorem Dec.setPx_p : (d.setPx v).p = d.p := rfl
@[simp] theorem Dec.setPx_i : (d.setPx v).i = d.i := rfl
@[simp] theorem Dec.setPx_n : (d.setPx v).n = d.n := rfl
@[simp] theorem Dec.setPx_chunkEnd : (d.setPx v).chunkEnd = d.chunkEnd := rfl
@[simp] theorem Dec.setPx_cache : (d.setPx v).cache = d.cache := rfl

end DecSetPx

section DecSetRun
variable (d : Dec) (v : BitVec 6)

@[simp] theorem Dec.setRun_ctl : (d.setRun v).ctl = d.ctl := rfl
@[simp] theorem Dec.setRun_inSize : (d.setRun v).inSize = d.inSize := rfl
@[simp] theorem Dec.setRun_width : (d.setRun v).width = d.width := rfl
@[simp] theorem Dec.setRun_height : (d.setRun v).height = d.height := rfl
@[simp] theorem Dec.setRun_channels : (d.setRun v).channels = d.channels := rfl
@[simp] theorem Dec.setRun_colorspace : (d.setRun v).colorspace = d.colorspace := rfl
@[simp] theorem Dec.setRun_size : (d.setRun v).size = d.size := rfl
@[simp] theorem Dec.setRun_px : (d.setRun v).px = d.px := rfl
@[simp] theorem Dec.setRun_run : (d.setRun v).run = v := rfl
@[simp] theorem Dec.setRun_p : (d.setRun v).p = d.p := rfl
@[simp] theorem Dec.setRun_i : (d.setRun v).i = d.i := rfl
@[simp] theorem Dec.setRun_n : (d.setRun v).n = d.n := rfl
@[simp] theorem Dec.setRun_chunkEnd : (d.setRun v).chunkEnd = d.chunkEnd := rfl
@[simp] theorem Dec.setRun_cache : (d.setRun v).cache = d.cache := rfl

end DecSetRun

section DecSetP
variable (d : Dec) (v : Word)

@[simp] theorem Dec.setP_ctl : (d.setP v).ctl = d.ctl := rfl
@[simp] theorem Dec.setP_inSize : (d.setP v).inSize = d.inSize := rfl
@[simp] theorem Dec.setP_width : (d.setP v).width = d.width := rfl
@[simp] theorem Dec.setP_height : (d.setP v).height = d.height := rfl
@[simp] theorem Dec.setP_channels : (d.setP v).channels = d.channels := rfl
@[simp] theorem Dec.setP_colorspace : (d.setP v).colorspace = d.colorspace := rfl
@[simp] theorem Dec.setP_size : (d.setP v).size = d.size := rfl
@[simp] theorem Dec.setP_px : (d.setP v).px = d.px := rfl
@[simp] theorem Dec.setP_run : (d.setP v).run = d.run := rfl
@[simp] theorem Dec.setP_p : (d.setP v).p = v := rfl
@[simp] theorem Dec.setP_i : (d.setP v).i = d.i := rfl
@[simp] theorem Dec.setP_n : (d.setP v).n = d.n := rfl
@[simp] theorem Dec.setP_chunkEnd : (d.setP v).chunkEnd = d.chunkEnd := rfl
@[simp] theorem Dec.setP_cache : (d.setP v).cache = d.cache := rfl

end DecSetP

section EncSetCtl
variable (e : Enc) (c : Ctl EncCause)

@[simp] theorem Enc.setCtl_ctl : (e.setCtl c).ctl = c := rfl
@[simp] theorem Enc.setCtl_pixLen : (e.setCtl c).pixLen = e.pixLen := rfl
@[simp] theorem Enc.setCtl_width : (e.setCtl c).width = e.width := rfl
@[simp] theorem Enc.setCtl_height : (e.setCtl c).height = e.height := rfl
@[simp] theorem Enc.setCtl_channels : (e.setCtl c).channels = e.channels := rfl
@[simp] theorem Enc.setCtl_colorspace : (e.setCtl c).colorspace = e.colorspace := rfl
@[simp] theorem Enc.setCtl_px : (e.setCtl c).px = e.px := rfl
@[simp] theorem Enc.setCtl_pxPrev : (e.setCtl c).pxPrev = e.pxPrev := rfl
@[simp] theorem Enc.setCtl_run : (e.setCtl c).run = e.run := rfl
@[simp] theorem Enc.setCtl_i : (e.setCtl c).i = e.i := rfl
@[simp] theorem Enc.setCtl_n : (e.setCtl c).n = e.n := rfl
@[simp] theorem Enc.setCtl_cache : (e.setCtl c).cache = e.cache := rfl

end EncSetCtl

section EncSetRun
variable (e : Enc) (v : BitVec 6)

@[simp] theorem Enc.setRun_ctl : (e.setRun v).ctl = e.ctl := rfl
@[simp] theorem Enc.setRun_pixLen : (e.setRun v).pixLen = e.pixLen := rfl
@[simp] theorem Enc.setRun_width : (e.setRun v).width = e.width := rfl
@[simp] theorem Enc.setRun_height : (e.setRun v).height = e.height := rfl
@[simp] theorem Enc.setRun_channels : (e.setRun v).channels = e.channels := rfl
@[simp] theorem Enc.setRun_colorspace : (e.setRun v).colorspace = e.colorspace := rfl
@[simp] theorem Enc.setRun_px : (e.setRun v).px = e.px := rfl
@[simp] theorem Enc.setRun_pxPrev : (e.setRun v).pxPrev = e.pxPrev := rfl
@[simp] theorem Enc.setRun_run : (e.setRun v).run = v := rfl
@[simp] theorem Enc.setRun_i : (e.setRun v).i = e.i := rfl
@[simp] theorem Enc.setRun_n : (e.setRun v).n = e.n := rfl
@[simp] theorem Enc.setRun_cache : (e.setRun v).cache = e.cache := rfl

end EncSetRun

/-! ### The status registers -/

section CtlOps
variable {κ : Type} (c : Ctl κ) (none cause : κ) (info : Word)

@[simp] theorem Ctl.start_state : (Ctl.start none).state = .busy := rfl
@[simp] theorem Ctl.start_cause : (Ctl.start none).cause = none := rfl
@[simp] theorem Ctl.start_outCount : (Ctl.start none).outCount = 0 := rfl
@[simp] theorem Ctl.start_errInfo : (Ctl.start none).errInfo = 0 := rfl
@[simp] theorem Ctl.raise_state : (c.raise cause info).state = .error := rfl
@[simp] theorem Ctl.raise_cause : (c.raise cause info).cause = cause := rfl
@[simp] theorem Ctl.raise_outCount : (c.raise cause info).outCount = c.outCount := rfl
@[simp] theorem Ctl.raise_errInfo : (c.raise cause info).errInfo = info := rfl
@[simp] theorem Ctl.abort_state : (c.abort none).state = .aborted := rfl
@[simp] theorem Ctl.abort_cause : (c.abort none).cause = none := rfl
@[simp] theorem Ctl.abort_outCount : (c.abort none).outCount = c.outCount := rfl
@[simp] theorem Ctl.abort_errInfo : (c.abort none).errInfo = c.errInfo := rfl
@[simp] theorem Ctl.finish_state : (c.finish).state = .done := rfl
@[simp] theorem Ctl.finish_cause : (c.finish).cause = c.cause := rfl
@[simp] theorem Ctl.finish_outCount : (c.finish).outCount = c.outCount := rfl
@[simp] theorem Ctl.finish_errInfo : (c.finish).errInfo = c.errInfo := rfl

end CtlOps

/-! ### Taking an exception -/

section Raise
variable (s : State) (cause : DecCause) (ecause : EncCause) (info : Word)

@[simp] theorem State.raiseDec_cfg : (s.raiseDec cause info).cfg = s.cfg := rfl
@[simp] theorem State.raiseDec_enc : (s.raiseDec cause info).enc = s.enc := rfl
@[simp] theorem State.raiseDec_decIn : (s.raiseDec cause info).decIn = s.decIn := rfl
@[simp] theorem State.raiseDec_decOut : (s.raiseDec cause info).decOut = s.decOut := rfl
@[simp] theorem State.raiseDec_encPix : (s.raiseDec cause info).encPix = s.encPix := rfl
@[simp] theorem State.raiseDec_encBytes : (s.raiseDec cause info).encBytes = s.encBytes := rfl
@[simp] theorem State.raiseDec_agenda : (s.raiseDec cause info).agenda = s.agenda := rfl
@[simp] theorem State.raiseDec_hostData : (s.raiseDec cause info).hostData = s.hostData := rfl
@[simp] theorem State.raiseDec_freeCtr : (s.raiseDec cause info).freeCtr = s.freeCtr := rfl
@[simp] theorem State.raiseDec_dec_ctl : (s.raiseDec cause info).dec.ctl = s.dec.ctl.raise cause info := rfl
@[simp] theorem State.raiseDec_dec_inSize : (s.raiseDec cause info).dec.inSize = s.dec.inSize := rfl
@[simp] theorem State.raiseDec_dec_width : (s.raiseDec cause info).dec.width = s.dec.width := rfl
@[simp] theorem State.raiseDec_dec_height : (s.raiseDec cause info).dec.height = s.dec.height := rfl
@[simp] theorem State.raiseDec_dec_channels : (s.raiseDec cause info).dec.channels = s.dec.channels := rfl
@[simp] theorem State.raiseDec_dec_colorspace : (s.raiseDec cause info).dec.colorspace = s.dec.colorspace := rfl
@[simp] theorem State.raiseDec_dec_size : (s.raiseDec cause info).dec.size = s.dec.size := rfl
@[simp] theorem State.raiseDec_dec_px : (s.raiseDec cause info).dec.px = s.dec.px := rfl
@[simp] theorem State.raiseDec_dec_run : (s.raiseDec cause info).dec.run = s.dec.run := rfl
@[simp] theorem State.raiseDec_dec_p : (s.raiseDec cause info).dec.p = s.dec.p := rfl
@[simp] theorem State.raiseDec_dec_i : (s.raiseDec cause info).dec.i = s.dec.i := rfl
@[simp] theorem State.raiseDec_dec_n : (s.raiseDec cause info).dec.n = s.dec.n := rfl
@[simp] theorem State.raiseDec_dec_chunkEnd : (s.raiseDec cause info).dec.chunkEnd = s.dec.chunkEnd := rfl
@[simp] theorem State.raiseDec_dec_cache : (s.raiseDec cause info).dec.cache = s.dec.cache := rfl
@[simp] theorem State.raiseEnc_cfg : (s.raiseEnc ecause).cfg = s.cfg := rfl
@[simp] theorem State.raiseEnc_dec : (s.raiseEnc ecause).dec = s.dec := rfl
@[simp] theorem State.raiseEnc_decIn : (s.raiseEnc ecause).decIn = s.decIn := rfl
@[simp] theorem State.raiseEnc_decOut : (s.raiseEnc ecause).decOut = s.decOut := rfl
@[simp] theorem State.raiseEnc_encPix : (s.raiseEnc ecause).encPix = s.encPix := rfl
@[simp] theorem State.raiseEnc_encBytes : (s.raiseEnc ecause).encBytes = s.encBytes := rfl
@[simp] theorem State.raiseEnc_agenda : (s.raiseEnc ecause).agenda = s.agenda := rfl
@[simp] theorem State.raiseEnc_hostData : (s.raiseEnc ecause).hostData = s.hostData := rfl
@[simp] theorem State.raiseEnc_freeCtr : (s.raiseEnc ecause).freeCtr = s.freeCtr := rfl
@[simp] theorem State.raiseEnc_enc_ctl : (s.raiseEnc ecause).enc.ctl = s.enc.ctl.raise ecause 0 := rfl
@[simp] theorem State.raiseEnc_enc_pixLen : (s.raiseEnc ecause).enc.pixLen = s.enc.pixLen := rfl
@[simp] theorem State.raiseEnc_enc_width : (s.raiseEnc ecause).enc.width = s.enc.width := rfl
@[simp] theorem State.raiseEnc_enc_height : (s.raiseEnc ecause).enc.height = s.enc.height := rfl
@[simp] theorem State.raiseEnc_enc_channels : (s.raiseEnc ecause).enc.channels = s.enc.channels := rfl
@[simp] theorem State.raiseEnc_enc_colorspace : (s.raiseEnc ecause).enc.colorspace = s.enc.colorspace := rfl
@[simp] theorem State.raiseEnc_enc_px : (s.raiseEnc ecause).enc.px = s.enc.px := rfl
@[simp] theorem State.raiseEnc_enc_pxPrev : (s.raiseEnc ecause).enc.pxPrev = s.enc.pxPrev := rfl
@[simp] theorem State.raiseEnc_enc_run : (s.raiseEnc ecause).enc.run = s.enc.run := rfl
@[simp] theorem State.raiseEnc_enc_i : (s.raiseEnc ecause).enc.i = s.enc.i := rfl
@[simp] theorem State.raiseEnc_enc_n : (s.raiseEnc ecause).enc.n = s.enc.n := rfl
@[simp] theorem State.raiseEnc_enc_cache : (s.raiseEnc ecause).enc.cache = s.enc.cache := rfl

end Raise

end Sys2Proof.Machine
end

