-- ==== Sys2Proof/Laws/Encoder.lean ====
section
/-! SUPPORT. What appending bytes to the encoder's output stream writes and what it leaves. -/

namespace Sys2Proof.Machine

theorem State.emitBytes_nil (s : State) : s.emitBytes [] = s := rfl

theorem State.emitBytes_cons (s : State) (b : Byte) (bs : List Byte) :
    s.emitBytes (b :: bs) = (s.emitByte b).emitBytes bs := rfl

/-- Appending leaves all of the state but the output stream and `ENC_OUT_COUNT`. -/
theorem State.emitBytes_eq (s : State) (bs : List Byte) :
    s.emitBytes bs =
      { s with
        encBytes := (s.emitBytes bs).encBytes
        enc := { s.enc with ctl := { s.enc.ctl with
          outCount := s.enc.ctl.outCount + BitVec.ofNat 32 bs.length } } } := by
  induction bs generalizing s with
  | nil => simp [State.emitBytes_nil]
  | cons b bs ih =>
    rw [State.emitBytes_cons, ih]
    simp only [State.emitByte, Enc.setCtl]
    congr 3
    rw [List.length_cons, Nat.add_comm, BitVec.ofNat_add, ← BitVec.add_assoc]
    rfl

section Fields
variable (s : State) (bs : List Byte)

@[simp] theorem State.emitBytes_cfg : (s.emitBytes bs).cfg = s.cfg := by rw [State.emitBytes_eq]
@[simp] theorem State.emitBytes_dec : (s.emitBytes bs).dec = s.dec := by rw [State.emitBytes_eq]
@[simp] theorem State.emitBytes_decIn : (s.emitBytes bs).decIn = s.decIn := by rw [State.emitBytes_eq]
@[simp] theorem State.emitBytes_decOut : (s.emitBytes bs).decOut = s.decOut := by rw [State.emitBytes_eq]
@[simp] theorem State.emitBytes_encPix : (s.emitBytes bs).encPix = s.encPix := by rw [State.emitBytes_eq]
@[simp] theorem State.emitBytes_agenda : (s.emitBytes bs).agenda = s.agenda := by rw [State.emitBytes_eq]
@[simp] theorem State.emitBytes_hostData : (s.emitBytes bs).hostData = s.hostData := by rw [State.emitBytes_eq]
@[simp] theorem State.emitBytes_freeCtr : (s.emitBytes bs).freeCtr = s.freeCtr := by rw [State.emitBytes_eq]
@[simp] theorem State.emitBytes_enc : (s.emitBytes bs).enc =
    { s.enc with ctl := { s.enc.ctl with outCount := s.enc.ctl.outCount + BitVec.ofNat 32 bs.length } } := by
  rw [State.emitBytes_eq]

end Fields

/-- Each appended byte stands at its place in the stream, and every other byte is as before, as long as the count does not wrap
(20_memory R55). -/
theorem State.emitBytes_read (s : State) (bs : List Byte) (a : Nat)
    (h : s.enc.ctl.outCount.toNat + bs.length ≤ 2 ^ 32) :
    Memory.read (s.emitBytes bs).encBytes a =
      if s.enc.ctl.outCount.toNat ≤ a ∧ a < s.enc.ctl.outCount.toNat + bs.length
      then bs.getD (a - s.enc.ctl.outCount.toNat) 0 else Memory.read s.encBytes a := by
  induction bs generalizing s with
  | nil => rw [State.emitBytes_nil, if_neg (by simp)]
  | cons b bs ih =>
    rw [List.length_cons] at h ⊢
    rw [State.emitBytes_cons]
    by_cases hb : bs = []
    · subst hb
      rw [State.emitBytes_nil]
      simp only [State.emitByte, Memory.read_write, List.length_nil, Nat.zero_add]
      by_cases ha : a = s.enc.ctl.outCount.toNat
      · subst ha; simp
      · rw [if_neg ha, if_neg (by omega)]
    · have hl : 0 < bs.length := List.length_pos_iff.mpr hb
      have hc : (s.emitByte b).enc.ctl.outCount.toNat = s.enc.ctl.outCount.toNat + 1 := by
        show (s.enc.ctl.outCount + 1#32).toNat = _
        rw [BitVec.toNat_add]
        exact Nat.mod_eq_of_lt (by simp only [BitVec.toNat_ofNat]; omega)
      rw [ih _ (by rw [hc]; omega), hc]
      simp only [State.emitByte, Memory.read_write]
      by_cases ha : a = s.enc.ctl.outCount.toNat
      · subst ha
        rw [if_neg (by omega), if_pos rfl, if_pos (by omega)]
        simp
      · by_cases hr : s.enc.ctl.outCount.toNat + 1 ≤ a ∧ a < s.enc.ctl.outCount.toNat + 1 + bs.length
        · rw [if_pos hr, if_pos (by omega)]
          obtain ⟨k, rfl⟩ : ∃ k, a = s.enc.ctl.outCount.toNat + 1 + k := ⟨a - (s.enc.ctl.outCount.toNat + 1), by omega⟩
          rw [Nat.add_sub_cancel_left, Nat.add_assoc, Nat.add_sub_cancel_left, Nat.add_comm 1 k, List.getD_cons_succ]
        · rw [if_neg hr, if_neg ha, if_neg (by omega)]

theorem State.emitBytes_wf (s : State) (bs : List Byte) (h : Memory.wf s.encBytes) :
    Memory.wf (s.emitBytes bs).encBytes := by
  induction bs generalizing s with
  | nil => exact h
  | cons b bs ih => exact ih (s.emitByte b) (Memory.write_wf _ _ _ h)

end Sys2Proof.Machine
end

