-- ==== Sys2Proof/Laws/Encoding.lean ====
section
/-! SUPPORT. The encodings as numbers, and how many bytes each takes. -/

namespace Sys2Proof

theorem encode_length_le (i : Instr) : (encode i).length ≤ 5 := by cases i <;> simp [encode]

theorem encode_ne_nil (i : Instr) : encode i ≠ [] := by cases i <;> simp [encode]

theorem encode_index_eq (slot : SlotIx) : encode (.index slot) = [BitVec.ofNat 8 slot.toNat] := by
  revert slot; decide

theorem encode_run_eq (n : BitVec 6) : encode (.run n) = [BitVec.ofNat 8 (0xC0 + n.toNat)] := by
  revert n; decide

theorem encode_diff_eq (dr dg db : Int) (h1 : -2 ≤ dr) (h2 : dr ≤ 1) (h3 : -2 ≤ dg) (h4 : dg ≤ 1) (h5 : -2 ≤ db)
    (h6 : db ≤ 1) :
    encode (.diff dr dg db) = [BitVec.ofInt 8 (0x40 + 16 * (dr + 2) + 4 * (dg + 2) + (db + 2))] := by
  interval_cases dr <;> interval_cases dg <;> interval_cases db <;> rfl

theorem encode_luma_eq (vg drdg dbdg : Int) (h1 : -32 ≤ vg) (h2 : vg ≤ 31) (h3 : -8 ≤ drdg) (h4 : drdg ≤ 7)
    (h5 : -8 ≤ dbdg) (h6 : dbdg ≤ 7) :
    encode (.luma vg drdg dbdg) =
      [BitVec.ofInt 8 (0x80 + (vg + 32)), BitVec.ofInt 8 (16 * (drdg + 8) + (dbdg + 8))] := by
  have e1 : 0x80#8 ||| biased vg 32 = BitVec.ofInt 8 (0x80 + (vg + 32)) := by interval_cases vg <;> rfl
  have e2 : biased drdg 8 <<< 4 ||| biased dbdg 8 = BitVec.ofInt 8 (16 * (drdg + 8) + (dbdg + 8)) := by
    interval_cases drdg <;> interval_cases dbdg <;> rfl
  simp only [encode, e1, e2]

/-! ### The assembler -/

theorem assemble_of_wf (l : AsmLine) (h : l.wf = true) : assemble l = some l.bytes := if_pos h

theorem assemble_eq_none_iff (l : AsmLine) : assemble l = none ↔ l.wf = false := by
  unfold assemble
  cases l.wf <;> simp

end Sys2Proof
end

