-- ==== Sys2Proof/Laws/Slot.lean ====
section
/-! SUPPORT. What the end of a slot step writes, and everything the operand fetches of a handler can do. -/

namespace Sys2Proof.Machine

section EndSlot
variable (s : State)

@[simp] theorem State.endSlot_cfg : s.endSlot.cfg = s.cfg := rfl
@[simp] theorem State.endSlot_enc : s.endSlot.enc = s.enc := rfl
@[simp] theorem State.endSlot_decIn : s.endSlot.decIn = s.decIn := rfl
@[simp] theorem State.endSlot_encPix : s.endSlot.encPix = s.encPix := rfl
@[simp] theorem State.endSlot_encBytes : s.endSlot.encBytes = s.encBytes := rfl
@[simp] theorem State.endSlot_agenda : s.endSlot.agenda = s.agenda := rfl
@[simp] theorem State.endSlot_hostData : s.endSlot.hostData = s.hostData := rfl
@[simp] theorem State.endSlot_freeCtr : s.endSlot.freeCtr = s.freeCtr := rfl
@[simp] theorem State.endSlot_decOut :
    s.endSlot.decOut = Memory.writePixel s.decOut s.dec.i.toNat s.dec.px := rfl
@[simp] theorem State.endSlot_dec_inSize : s.endSlot.dec.inSize = s.dec.inSize := rfl
@[simp] theorem State.endSlot_dec_width : s.endSlot.dec.width = s.dec.width := rfl
@[simp] theorem State.endSlot_dec_height : s.endSlot.dec.height = s.dec.height := rfl
@[simp] theorem State.endSlot_dec_channels : s.endSlot.dec.channels = s.dec.channels := rfl
@[simp] theorem State.endSlot_dec_colorspace : s.endSlot.dec.colorspace = s.dec.colorspace := rfl
@[simp] theorem State.endSlot_dec_size : s.endSlot.dec.size = s.dec.size := rfl
@[simp] theorem State.endSlot_dec_px : s.endSlot.dec.px = s.dec.px := rfl
@[simp] theorem State.endSlot_dec_run : s.endSlot.dec.run = s.dec.run := rfl
@[simp] theorem State.endSlot_dec_p : s.endSlot.dec.p = s.dec.p := rfl
@[simp] theorem State.endSlot_dec_i : s.endSlot.dec.i = s.dec.i + 1 := rfl
@[simp] theorem State.endSlot_dec_n : s.endSlot.dec.n = s.dec.n := rfl
@[simp] theorem State.endSlot_dec_chunkEnd : s.endSlot.dec.chunkEnd = s.dec.chunkEnd := rfl
@[simp] theorem State.endSlot_dec_cache :
    s.endSlot.dec.cache = Cache.update s.dec.cache s.cfg.hashW s.dec.px := rfl
@[simp] theorem State.endSlot_dec_cause : s.endSlot.dec.ctl.cause = s.dec.ctl.cause := rfl
@[simp] theorem State.endSlot_dec_errInfo : s.endSlot.dec.ctl.errInfo = s.dec.ctl.errInfo := rfl
@[simp] theorem State.endSlot_dec_outCount : s.endSlot.dec.ctl.outCount = s.dec.i + 1 := rfl
@[simp] theorem State.endSlot_dec_state :
    s.endSlot.dec.ctl.state = if s.dec.i + 1 = s.dec.n then .done else s.dec.ctl.state := rfl

end EndSlot

/-- What a slot step does from the state in which its pixel stands: the one spec of `endSlot`. -/
theorem State.endSlot_done (s u : State) (px : Pixel) (len : Nat) (run : BitVec 6)
    (hpx : u.dec.px = px) (hp : u.dec.p = s.dec.p + BitVec.ofNat 32 len) (hr : u.dec.run = run)
    (hc : u.dec.cache = s.dec.cache) (ho : u.decOut = s.decOut) (hi : u.dec.i = s.dec.i)
    (hctl : u.dec.ctl = s.dec.ctl) (hk : SlotKeeps s.dec u.dec) (hd : DecOnly s u) :
    SlotDone s u.endSlot px len run where
  pixel := hpx
  cursor := hp
  runLeft := hr
  cached := by simp [hd.cfg, hpx]
  cache_others k hk := by rw [State.endSlot_dec_cache, Cache.lookup_update, hd.cfg, hpx, if_neg hk, hc]
  emitted := by rw [State.endSlot_decOut, Memory.readPixel_writePixel, hi, if_pos rfl, hpx]
  out_others a h := by rw [State.endSlot_decOut, Memory.read_writePixel_outside _ _ _ _ (by rwa [hi]), ho]
  i := by simp [hi]
  outCount := by simp [hi]
  ends h := by rw [State.endSlot_dec_state, hi, hk.n, if_pos h]
  goes_on h := by rw [State.endSlot_dec_state, hi, hk.n, if_neg h, hctl]
  cause := by simp [hctl]
  errInfo := by simp [hctl]
  keeps := ⟨hk.1, hk.2, hk.3, hk.4, hk.5, hk.6, hk.7, hk.8⟩
  only := ⟨hd.1, hd.2, hd.3, hd.4, hd.5, hd.6, hd.7⟩

/-! ### Operand fetches -/

/-- The state after the operands `fs` are taken. -/
def State.operandsTaken (s : State) (fs : List (Pixel → Pixel)) : State := fs.foldl State.operandTaken s

/-- Taking operands moves the cursor by one each and changes the pixel, and nothing else. -/
theorem State.operandsTaken_eq (s : State) (fs : List (Pixel → Pixel)) :
    s.operandsTaken fs =
      { s with dec := { s.dec with
        p := s.dec.p + BitVec.ofNat 32 fs.length
        px := fs.foldl (fun px f => f px) s.dec.px } } := by
  induction fs generalizing s with
  | nil => simp [State.operandsTaken]
  | cons f fs ih =>
    refine (ih (s.operandTaken f)).trans ?_
    have e : s.dec.p + 1#32 + BitVec.ofNat 32 fs.length = s.dec.p + BitVec.ofNat 32 (f :: fs).length := by
      rw [BitVec.add_assoc, ← BitVec.ofNat_add, Nat.add_comm 1]; rfl
    simp only [← e]
    rfl

theorem State.overruns_operandTaken (s : State) (f : Pixel → Pixel) (k : Nat) :
    (s.operandTaken f).overruns ((s.operandTaken f).dec.p + BitVec.ofNat 32 k) =
      s.overruns (s.dec.p + BitVec.ofNat 32 (k + 1)) := by
  have e : (s.operandTaken f).dec.p + BitVec.ofNat 32 k = s.dec.p + BitVec.ofNat 32 (k + 1) := by
    show s.dec.p + 1#32 + BitVec.ofNat 32 k = _
    rw [BitVec.add_assoc, ← BitVec.ofNat_add, Nat.add_comm 1 k]
  rw [e]; rfl

/-- No fetch overruns: all operands are taken and the slot step ends. -/
theorem takeOperands_next (fs : List (Pixel → Pixel)) (s : State)
    (h : ∀ k < fs.length, s.overruns (s.dec.p + BitVec.ofNat 32 k) = false) :
    takeOperands fs s = .next (s.operandsTaken fs).endSlot := by
  induction fs generalizing s with
  | nil => rfl
  | cons f fs ih =>
    have h0 : s.overruns s.dec.p = false := by simpa using h 0 (by simp)
    unfold takeOperands
    rw [h0]
    refine ih (s.operandTaken f) (fun k hk => ?_)
    rw [State.overruns_operandTaken]
    exact h (k + 1) (by simpa using hk)

/-- The first fetch that overruns, at operand `k`, raises `Overrun` at its offset; the operands before it are taken (42_decoder
R143, 60_exceptions R206). -/
theorem takeOperands_overrun (fs : List (Pixel → Pixel)) (s : State) (k : Nat) (hk : k < fs.length)
    (hb : ∀ m < k, s.overruns (s.dec.p + BitVec.ofNat 32 m) = false)
    (h : s.overruns (s.dec.p + BitVec.ofNat 32 k) = true) :
    takeOperands fs s =
      .next ((s.operandsTaken (fs.take k)).raiseDec .overrun (s.dec.p + BitVec.ofNat 32 k)) := by
  induction fs generalizing s k with
  | nil => simp at hk
  | cons f fs ih =>
    unfold takeOperands
    cases k with
    | zero =>
      have h0 : s.overruns s.dec.p = true := by simpa using h
      rw [h0]
      simp [State.operandsTaken]
    | succ k =>
      have h0 : s.overruns s.dec.p = false := by simpa using hb 0 (by omega)
      rw [h0]
      refine (ih (s.operandTaken f) k (by simpa using hk) (fun m hm => ?_) ?_).trans ?_
      · rw [State.overruns_operandTaken]; exact hb (m + 1) (by omega)
      · rw [State.overruns_operandTaken]; exact h
      · rw [show (s.operandTaken f).dec.p + BitVec.ofNat 32 k = s.dec.p + BitVec.ofNat 32 (k + 1) by
          show s.dec.p + 1#32 + BitVec.ofNat 32 k = _
          rw [BitVec.add_assoc, ← BitVec.ofNat_add, Nat.add_comm 1 k]]
        rfl

/-- Everything the operand fetches of a handler can do: all are taken and the slot step ends, or a first one overruns. -/
theorem takeOperands_cases (fs : List (Pixel → Pixel)) (s : State) :
    takeOperands fs s = .next (s.operandsTaken fs).endSlot ∨
    ∃ k, k < fs.length ∧ s.overruns (s.dec.p + BitVec.ofNat 32 k) = true ∧
      takeOperands fs s =
        .next ((s.operandsTaken (fs.take k)).raiseDec .overrun (s.dec.p + BitVec.ofNat 32 k)) := by
  by_cases hall : ∀ k < fs.length, s.overruns (s.dec.p + BitVec.ofNat 32 k) = false
  · exact .inl (takeOperands_next fs s hall)
  · have hex : ∃ k, k < fs.length ∧ s.overruns (s.dec.p + BitVec.ofNat 32 k) = true := by
      push Not at hall
      obtain ⟨k, hk, ho⟩ := hall
      exact ⟨k, hk, by simpa using ho⟩
    classical
    refine .inr ⟨Nat.find hex, (Nat.find_spec hex).1, (Nat.find_spec hex).2, ?_⟩
    refine takeOperands_overrun fs s _ (Nat.find_spec hex).1 (fun m hm => ?_) (Nat.find_spec hex).2
    have hn := Nat.find_min hex hm
    have hl := (Nat.find_spec hex).1
    simp only [not_and, Bool.not_eq_true] at hn
    exact hn (by omega)

end Sys2Proof.Machine
end

