-- ==== Sys2Proof/Laws/Exec.lean ====
section
/-! SUPPORT. Everything one opcode can do, said once for all six; and what decoding reads. -/

namespace Sys2Proof.Machine

/-! ### The decoder of opcodes -/

theorem opcodeLength_pos (b : Byte) : 1 ≤ opcodeLength b := by unfold opcodeLength; split_ifs <;> simp

theorem opcodeLength_le (b : Byte) : opcodeLength b ≤ 5 := by unfold opcodeLength; split_ifs <;> simp

/-- An opcode is read from no more bytes than its first one calls for (30_encoding R82). -/
theorem decodeFrom_congr (f g : Nat → Byte) (h : ∀ k, k < opcodeLength (f 0) → f k = g k) :
    decodeFrom f = decodeFrom g := by
  have h0 : f 0 = g 0 := h 0 (opcodeLength_pos _)
  unfold decodeFrom
  rw [← h0]
  by_cases h1 : f 0 = 0xFE#8
  · rw [if_pos h1, if_pos h1]
    rw [h1] at h
    rw [h 1 (by decide), h 2 (by decide), h 3 (by decide)]
  rw [if_neg h1, if_neg h1]
  by_cases h2 : f 0 = 0xFF#8
  · rw [if_pos h2, if_pos h2]
    rw [h2] at h
    rw [h 1 (by decide), h 2 (by decide), h 3 (by decide), h 4 (by decide)]
  rw [if_neg h2, if_neg h2]
  by_cases h3 : (f 0).extractLsb' 6 2 = 2#2
  · rw [h 1 (by unfold opcodeLength; simp [h1, h2, h3])]
  · simp only [h3, if_false]

/-- Whatever bytes are read, the operands are in range (30_encoding R78). -/
theorem decodeFrom_wf (f : Nat → Byte) : (decodeFrom f).wf = true := by
  have hr : ∀ b : Byte, b ≠ 0xFE#8 → b ≠ 0xFF#8 → b.extractLsb' 6 2 ≠ 0#2 → b.extractLsb' 6 2 ≠ 1#2 →
      b.extractLsb' 6 2 ≠ 2#2 → (b.extractLsb' 0 6) ≤ 61#6 := by decide
  have hd : ∀ b : Byte, (Instr.diff (unbias (field b 4 2) 2) (unbias (field b 2 2) 2)
      (unbias (field b 0 2) 2)).wf = true := by decide
  have hl : ∀ b : Byte, inRange (-32) 31 (unbias (field b 0 6) 32) = true := by decide
  have hm : ∀ b : Byte, inRange (-8) 7 (unbias (field b 4 4) 8) = true ∧
      inRange (-8) 7 (unbias (field b 0 4) 8) = true := by decide
  unfold decodeFrom
  split_ifs
  · rfl
  · rfl
  · rfl
  · exact hd _
  · simp only [Instr.wf]; rw [hl, (hm _).1, (hm _).2]; rfl
  · simp only [Instr.wf, decide_eq_true_eq]; apply hr <;> assumption

/-! ### The opcodes -/

/-- A slot step that ended normally: all of its effect, as one record of equations. -/
structure SlotRan (s t : State) (px : Pixel) (len : Nat) (run : BitVec 6) : Prop where
  done : SlotDone s t px len run
  agenda : t.agenda = s.agenda
  cache : t.dec.cache = Cache.update s.dec.cache s.cfg.hashW px
  decOut : t.decOut = Memory.writePixel s.decOut s.dec.i.toNat px
  state : t.dec.ctl.state = if s.dec.i + 1 = s.dec.n then .done else s.dec.ctl.state

/-- `endSlot_done` with the equations behind it. -/
theorem State.endSlot_ran (s u : State) (px : Pixel) (len : Nat) (run : BitVec 6)
    (hpx : u.dec.px = px) (hp : u.dec.p = s.dec.p + BitVec.ofNat 32 len) (hr : u.dec.run = run)
    (hc : u.dec.cache = s.dec.cache) (ho : u.decOut = s.decOut) (hi : u.dec.i = s.dec.i)
    (hctl : u.dec.ctl = s.dec.ctl) (hk : SlotKeeps s.dec u.dec) (hd : DecOnly s u) (ha : u.agenda = s.agenda) :
    SlotRan s u.endSlot px len run where
  done := State.endSlot_done s u px len run hpx hp hr hc ho hi hctl hk hd
  agenda := ha
  cache := by simp [hc, hd.cfg, hpx]
  decOut := by simp [ho, hi, hpx]
  state := by simp [hi, hk.n, hctl]

/-- The offset of operand fetch `k`, counted from the first byte. -/
theorem State.fetched_operand (s : State) (k : Nat) :
    s.fetched.dec.p + BitVec.ofNat 32 k = s.dec.p + BitVec.ofNat 32 (1 + k) := by
  show s.dec.p + 1#32 + _ = _
  rw [BitVec.add_assoc, ← BitVec.ofNat_add]

/-- The handlers with operand bytes: all operands taken, or the first that overruns. -/
theorem takeOperands_fetched (fs : List (Pixel → Pixel)) (s : State) :
    (∃ t, takeOperands fs s.fetched = .next t ∧
      SlotRan s t (fs.foldl (fun px f => f px) s.dec.px) (1 + fs.length) s.dec.run) ∨
    (∃ t k, k < fs.length ∧ s.cfg.operandPastChunk = .fault ∧ takeOperands fs s.fetched = .next t ∧
      SlotOverran s t (s.dec.p + BitVec.ofNat 32 (1 + k)) ∧ t.agenda = s.agenda) := by
  rcases takeOperands_cases fs s.fetched with h | ⟨k, hk, ho, h⟩
  · refine .inl ⟨_, h, ?_⟩
    rw [State.operandsTaken_eq]
    exact State.endSlot_ran _ _ _ _ _ rfl (State.fetched_operand s _) rfl rfl rfl rfl rfl
      ⟨rfl, rfl, rfl, rfl, rfl, rfl, rfl, rfl⟩ ⟨rfl, rfl, rfl, rfl, rfl, rfl, rfl⟩ rfl
  · rw [State.fetched_operand] at h
    refine .inr ⟨_, k, hk, ?_, h, ?_, by rw [State.operandsTaken_eq]; rfl⟩
    · unfold State.overruns at ho
      simp only [Bool.and_eq_true, decide_eq_true_eq] at ho
      exact ho.1
    · have hl : (fs.take k).length = k := by rw [List.length_take]; omega
      rw [State.operandsTaken_eq, hl]
      exact ⟨State.fetched_operand s k, rfl, rfl, rfl, rfl, rfl, rfl, rfl, rfl,
        ⟨rfl, rfl, rfl, rfl, rfl, rfl, rfl, rfl⟩, ⟨rfl, rfl, rfl, rfl, rfl, rfl, rfl⟩⟩

/-- Everything one opcode can do: a slot step that ends normally, or an `Overrun` raised by one of its operand fetches. -/
theorem exec_cases (i : Instr) (s : State) :
    (∃ t px len run, exec i s = .next t ∧ SlotRan s t px len run ∧ 1 ≤ len ∧ len ≤ 5 ∧
      (run = s.dec.run ∨ i = .run run)) ∨
    (∃ t k, k < 4 ∧ s.cfg.operandPastChunk = .fault ∧ exec i s = .next t ∧
      SlotOverran s t (s.dec.p + BitVec.ofNat 32 (1 + k)) ∧ t.agenda = s.agenda) := by
  have take : ∀ fs : List (Pixel → Pixel), fs.length ≤ 4 → exec i s = takeOperands fs s.fetched →
      (∃ t px len run, exec i s = .next t ∧ SlotRan s t px len run ∧ 1 ≤ len ∧ len ≤ 5 ∧
        (run = s.dec.run ∨ i = .run run)) ∨
      (∃ t k, k < 4 ∧ s.cfg.operandPastChunk = .fault ∧ exec i s = .next t ∧
        SlotOverran s t (s.dec.p + BitVec.ofNat 32 (1 + k)) ∧ t.agenda = s.agenda) := by
    intro fs hl h
    rcases takeOperands_fetched fs s with ⟨t, ht, hs⟩ | ⟨t, k, hk, hf, ht, ho, ha⟩
    · exact .inl ⟨t, _, _, _, h.trans ht, hs, by omega, by omega, .inl rfl⟩
    · exact .inr ⟨t, k, by omega, hf, h.trans ht, ho, ha⟩
  cases i with
  | rgb r g b => exact take [Pixel.setR r, Pixel.setG g, Pixel.setB b] (by simp) rfl
  | rgba r g b a => exact take [Pixel.setR r, Pixel.setG g, Pixel.setB b, Pixel.setA a] (by simp) rfl
  | luma a b c => exact take [Pixel.addLuma a b c] (by simp) rfl
  | index k =>
    exact .inl ⟨_, _, 1, _, rfl, State.endSlot_ran _ _ _ _ _ rfl rfl rfl rfl rfl rfl rfl
      ⟨rfl, rfl, rfl, rfl, rfl, rfl, rfl, rfl⟩ ⟨rfl, rfl, rfl, rfl, rfl, rfl, rfl⟩ rfl, by simp, by simp, .inl rfl⟩
  | diff a b c =>
    exact .inl ⟨_, _, 1, _, rfl, State.endSlot_ran _ _ _ _ _ rfl rfl rfl rfl rfl rfl rfl
      ⟨rfl, rfl, rfl, rfl, rfl, rfl, rfl, rfl⟩ ⟨rfl, rfl, rfl, rfl, rfl, rfl, rfl⟩ rfl, by simp, by simp, .inl rfl⟩
  | run n =>
    exact .inl ⟨_, _, 1, n, rfl, State.endSlot_ran _ _ _ _ _ rfl rfl rfl rfl rfl rfl rfl
      ⟨rfl, rfl, rfl, rfl, rfl, rfl, rfl, rfl⟩ ⟨rfl, rfl, rfl, rfl, rfl, rfl, rfl⟩ rfl, by simp, by simp, .inr rfl⟩

end Sys2Proof.Machine
end

