-- ==== Sys2Proof/Laws/Header.lean ====
section
/-! SUPPORT. The header: its bytes read back as its fields, when the checks pass, and what accepted dimensions bound. -/

namespace Sys2Proof.Machine

theorem ofBigEndian_bigEndian (w : Word) :
    ofBigEndian (w.extractLsb' 24 8) (w.extractLsb' 16 8) (w.extractLsb' 8 8) (w.extractLsb' 0 8) = w := by
  apply BitVec.eq_of_getLsbD_eq
  intro i hi
  simp only [ofBigEndian, BitVec.getLsbD_append, BitVec.getLsbD_extractLsb']
  rcases Nat.lt_or_ge i 8 with h | h
  · simp [h]
  rcases Nat.lt_or_ge i 16 with h2 | h2
  · simp [show ¬ i < 8 by omega, show i - 8 < 8 by omega, show 8 + (i - 8) = i by omega]
  rcases Nat.lt_or_ge i 24 with h3 | h3
  · simp [show ¬ i < 8 by omega, show ¬ i - 8 < 8 by omega, show i - 8 - 8 < 8 by omega,
      show 16 + (i - 8 - 8) = i by omega]
  · simp [show ¬ i < 8 by omega, show ¬ i - 8 < 8 by omega, show ¬ i - 8 - 8 < 8 by omega,
      show i - 8 - 8 - 8 < 8 by omega, show 24 + (i - 8 - 8 - 8) = i by omega]

/-- The four bytes of a big-endian word are determined by it. -/
theorem ofBigEndian_inj {a b c d a' b' c' d' : Byte} (h : ofBigEndian a b c d = ofBigEndian a' b' c' d') :
    a = a' ∧ b = b' ∧ c = c' ∧ d = d' := by
  have e : ∀ a b c d : Byte, ∀ i < 8,
      (ofBigEndian a b c d).getLsbD i = d.getLsbD i ∧ (ofBigEndian a b c d).getLsbD (8 + i) = c.getLsbD i ∧
      (ofBigEndian a b c d).getLsbD (16 + i) = b.getLsbD i ∧ (ofBigEndian a b c d).getLsbD (24 + i) = a.getLsbD i := by
    intro a b c d i hi
    simp only [ofBigEndian, BitVec.getLsbD_append]
    refine ⟨by simp [hi], ?_, ?_, ?_⟩
    · simp [show ¬ 8 + i < 8 by omega, show 8 + i - 8 = i by omega, hi]
    · simp [show ¬ 16 + i < 8 by omega, show ¬ 16 + i - 8 < 8 by omega, show 16 + i - 8 - 8 = i by omega, hi]
    · simp [show ¬ 24 + i < 8 by omega, show ¬ 24 + i - 8 < 8 by omega, show ¬ 24 + i - 8 - 8 < 8 by omega,
        show 24 + i - 8 - 8 - 8 = i by omega]
  refine ⟨?_, ?_, ?_, ?_⟩ <;> apply BitVec.eq_of_getLsbD_eq <;> intro i hi <;>
    obtain ⟨h0, h1, h2, h3⟩ := e a b c d i hi <;> obtain ⟨g0, g1, g2, g3⟩ := e a' b' c' d' i hi <;>
    rw [h] at h0 h1 h2 h3
  · rw [← h3, g3]
  · rw [← h2, g2]
  · rw [← h1, g1]
  · rw [← h0, g0]

/-- A header at the start of the input is read back field by field (41_header R122). -/
theorem State.readHeader_of_bytes (s : State) (w h : Word) (ch cs : Byte) (hs : 22 ≤ s.dec.size.toNat)
    (hb : s.HeaderAt w h ch cs) : s.readHeader = ⟨magicWord, w, h, ch, cs⟩ := by
  have ib : ∀ k : Nat, k < 14 → s.inByte (BitVec.ofNat 32 k) = (headerOf w h ch cs).getD k 0 := by
    intro k hk
    have e : (BitVec.ofNat 32 k).toNat = k := by rw [BitVec.toNat_ofNat]; omega
    unfold State.inByte
    rw [if_pos (by rw [BitVec.lt_def, e]; omega), e, hb k hk]
  have hr : s.readHeader =
      ⟨ofBigEndian (s.inByte (BitVec.ofNat 32 0)) (s.inByte (BitVec.ofNat 32 1)) (s.inByte (BitVec.ofNat 32 2))
          (s.inByte (BitVec.ofNat 32 3)),
        ofBigEndian (s.inByte (BitVec.ofNat 32 4)) (s.inByte (BitVec.ofNat 32 5)) (s.inByte (BitVec.ofNat 32 6))
          (s.inByte (BitVec.ofNat 32 7)),
        ofBigEndian (s.inByte (BitVec.ofNat 32 8)) (s.inByte (BitVec.ofNat 32 9)) (s.inByte (BitVec.ofNat 32 10))
          (s.inByte (BitVec.ofNat 32 11)),
        s.inByte (BitVec.ofNat 32 12), s.inByte (BitVec.ofNat 32 13)⟩ := rfl
  rw [hr]
  simp only [ib 0 (by omega), ib 1 (by omega), ib 2 (by omega), ib 3 (by omega), ib 4 (by omega), ib 5 (by omega),
    ib 6 (by omega), ib 7 (by omega), ib 8 (by omega), ib 9 (by omega), ib 10 (by omega), ib 11 (by omega),
    ib 12 (by omega), ib 13 (by omega)]
  simp only [headerOf, bigEndian, List.cons_append, List.nil_append, List.getD_cons_succ, List.getD_cons_zero,
    ofBigEndian_bigEndian]

theorem word_pos_iff (w : Word) : w ≠ 0 ↔ 0 < w.toNat :=
  ⟨fun h => Nat.pos_of_ne_zero (fun e => h (BitVec.eq_of_toNat_eq (by simpa using e))),
    fun h e => by subst e; simp at h⟩

/-- Accepted dimensions multiply without wrapping, to at least one and less than `PIXELS_MAX` pixels (41_header R132). -/
theorem DimsAccepted.bounds {w h : Word} (hd : DimsAccepted w h) :
    (w * h).toNat = w.toNat * h.toNat ∧ w.toNat * h.toNat + w.toNat ≤ pixelsMax ∧ 0 < w.toNat * h.toNat := by
  obtain ⟨h1, h2, h3⟩ := hd
  rw [word_pos_iff] at h1 h2
  have h4 : (h.toNat + 1) * w.toNat ≤ pixelsMax := (Nat.le_div_iff_mul_le h1).mp h3
  have h5 : w.toNat * h.toNat + w.toNat ≤ pixelsMax := by rw [Nat.add_mul, Nat.mul_comm] at h4; omega
  refine ⟨?_, h5, Nat.mul_pos h1 h2⟩
  rw [BitVec.toNat_mul]
  exact Nat.mod_eq_of_lt (by unfold pixelsMax at h5; omega)

theorem dimsTooLarge_false_iff (w h : Word) : dimsTooLarge w h = false ↔ h.toNat < pixelsMax / w.toNat := by
  simp [dimsTooLarge]

/-- A header is accepted exactly when every check passes (41_header R129, R131). -/
theorem headerCause_none_iff (size : Word) (h : Header) :
    headerCause size h = .none ↔
      22 ≤ size.toNat ∧ h.magic = magicWord ∧ DimsAccepted h.width h.height ∧ (h.channels = 3 ∨ h.channels = 4) := by
  have hch : ∀ b : Byte, ¬(b < 3 ∨ 4 < b) ↔ b = 3 ∨ b = 4 := by decide
  have h22 : ¬ size < 22 ↔ 22 ≤ size.toNat := by rw [BitVec.lt_def]; exact not_lt
  unfold headerCause DimsAccepted
  constructor
  · intro hc
    split_ifs at hc with a b c d e f
    exact ⟨h22.mp a, not_not.mp b, ⟨c, d, (dimsTooLarge_false_iff _ _).mp (by simpa using f)⟩, (hch _).mp e⟩
  · rintro ⟨a, b, ⟨c, d, e⟩, f⟩
    rw [if_neg (h22.mpr a), if_neg (not_not.mpr b), if_neg c, if_neg d, if_neg ((hch _).mpr f),
      if_neg (by rw [(dimsTooLarge_false_iff _ _).mpr e]; simp)]

/-- ENC's checks pass exactly when every precondition holds (43_encoder R185). -/
theorem encCause_none_iff (e : Enc) : encCause e = .none ↔ EncReady e := by
  have hch : ∀ b c d : Byte, ¬(b ≠ c ∧ b ≠ d) ↔ b = c ∨ b = d := by intro b c d; tauto
  unfold encCause
  constructor
  · intro hc
    split_ifs at hc with a b c d f g
    exact ⟨⟨a, b, (dimsTooLarge_false_iff _ _).mp (by simpa using d)⟩, (hch _ _ _).mp c, (hch _ _ _).mp f, not_not.mp g⟩
  · rintro ⟨⟨a, b, c⟩, d, f, g⟩
    rw [if_neg a, if_neg b, if_neg ((hch _ _ _).mpr d), if_neg (by rw [(dimsTooLarge_false_iff _ _).mpr c]; simp),
      if_neg ((hch _ _ _).mpr f), if_neg (not_not.mpr g)]

/-- Everything the header parse can do: acceptance, or the first failing check raised (41_header R129 to R131). -/
theorem State.parseHeader_cases (s : State) :
    (headerCause s.dec.size s.readHeader = .none ∧ s.parseHeader = s.setDec (s.dec.accept s.readHeader)) ∨
    (headerCause s.dec.size s.readHeader ≠ .none ∧
      s.parseHeader = s.raiseDec (headerCause s.dec.size s.readHeader) 0) := by
  unfold State.parseHeader
  by_cases h : headerCause s.dec.size s.readHeader = .none
  · exact .inl ⟨h, if_pos h⟩
  · exact .inr ⟨h, if_neg h⟩

end Sys2Proof.Machine
end

