-- ==== Sys2Proof/Laws/PerInstr.lean ====
section
/-! SUPPORT. The family of laws said once for each opcode as syntax. -/

namespace Sys2Proof.Laws

/-- The length of an opcode in bytes, by its class (30_encoding R71). -/
def EncodeShape.length : Instr → Nat
  | .rgb _ _ _ => 4
  | .rgba _ _ _ _ => 5
  | .index _ => 1
  | .diff _ _ _ => 1
  | .luma _ _ _ => 2
  | .run _ => 1

/-- The encoding of a well-formed opcode has its class's length, and its first byte alone says so (30_encoding R71, R82). -/
def EncodeShape.Statement (i : Instr) : Prop :=
  i.wf = true → (encode i).length = EncodeShape.length i ∧ opcodeLength ((encode i).getD 0 0) = EncodeShape.length i

theorem EncodeShape.rgb (r g b : Byte) : EncodeShape.Statement (.rgb r g b) := fun _ => ⟨rfl, rfl⟩

theorem EncodeShape.rgba (r g b a : Byte) : EncodeShape.Statement (.rgba r g b a) := fun _ => ⟨rfl, rfl⟩

theorem EncodeShape.index (s : SlotIx) : EncodeShape.Statement (.index s) := by
  revert s; unfold EncodeShape.Statement; decide

theorem EncodeShape.diff (dr dg db : Int) : EncodeShape.Statement (.diff dr dg db) := by
  intro h
  simp only [Instr.wf, inRange, Bool.and_eq_true, decide_eq_true_eq] at h
  obtain ⟨⟨⟨h1, h2⟩, h3, h4⟩, h5, h6⟩ := h
  interval_cases dr <;> interval_cases dg <;> interval_cases db <;> exact ⟨rfl, rfl⟩

theorem EncodeShape.luma (vg drdg dbdg : Int) : EncodeShape.Statement (.luma vg drdg dbdg) := by
  intro h
  simp only [Instr.wf, inRange, Bool.and_eq_true, decide_eq_true_eq] at h
  obtain ⟨⟨⟨h1, h2⟩, -⟩, -⟩ := h
  refine ⟨rfl, ?_⟩
  show opcodeLength (0x80#8 ||| biased vg 32) = 2
  interval_cases vg <;> rfl

theorem EncodeShape.run (n : BitVec 6) : EncodeShape.Statement (.run n) := by
  revert n; unfold EncodeShape.Statement; decide

end Sys2Proof.Laws
end

