-- ==== Sys2Proof/Laws/PixelStep.lean ====
section
/-! SUPPORT. What one pixel step of the encoder does in each of its cases: the bytes it appends, the run it leaves, the cache. -/

namespace Sys2Proof.Machine

/-- Appended bytes depend on the output stream and its count alone. -/
theorem State.emitBytes_congr (s t : State) (bs : List Byte) (h1 : s.encBytes = t.encBytes)
    (h2 : s.enc.ctl.outCount = t.enc.ctl.outCount) : (s.emitBytes bs).encBytes = (t.emitBytes bs).encBytes := by
  induction bs generalizing s t with
  | nil => exact h1
  | cons b bs ih =>
    rw [State.emitBytes_cons, State.emitBytes_cons]
    apply ih
    · simp only [State.emitByte, h1, h2]
    · simp only [State.emitByte, Enc.setCtl, h2]

theorem State.emitBytes_append (s : State) (bs cs : List Byte) :
    s.emitBytes (bs ++ cs) = (s.emitBytes bs).emitBytes cs := by
  simp [State.emitBytes, List.foldl_append]

/-- The state after a pixel step that appends `bs` and leaves this run and this cache. -/
def State.encoded (s : State) (px : Pixel) (bs : List Byte) (run : BitVec 6) (cache : Cache) : State :=
  (s.emitBytes bs).setEnc
    { (s.emitBytes bs).enc with px := px, pxPrev := px, i := s.enc.i + 1, run := run, cache := cache }

theorem State.encoded_eq (s : State) (px : Pixel) (bs : List Byte) (run : BitVec 6) (cache : Cache) :
    s.encoded px bs run cache =
      { s with
        encBytes := (s.emitBytes bs).encBytes
        enc := { s.enc with
          ctl := { s.enc.ctl with outCount := s.enc.ctl.outCount + BitVec.ofNat 32 bs.length }
          px := px, pxPrev := px, i := s.enc.i + 1, run := run, cache := cache } } := by
  unfold State.encoded
  rw [State.emitBytes_eq]
  rfl

/-- The bytes of the pending run, as the encoder emits them (43_encoder R174). -/
def pendingBytes (run : BitVec 6) : List Byte := if run ≠ 0 then encode (.run (run - 1)) else []

theorem pendingBytes_eq (run : BitVec 6) (h : run ≤ 62#6) : pendingBytes run = flushBytes run := by
  revert h; revert run; decide

/-- The end of a pixel step after bytes were appended to a state that differs from `s` in pass-local registers only. -/
theorem State.encoded_of (s u : State) (px : Pixel) (bs : List Byte) (run : BitVec 6) (cache : Cache)
    (hu : u = { s with
        encBytes := (s.emitBytes bs).encBytes
        enc := { s.enc with
          ctl := { s.enc.ctl with outCount := s.enc.ctl.outCount + BitVec.ofNat 32 bs.length }
          px := px, run := run, cache := cache } }) :
    u.nextPixel = s.encoded px bs run cache := by
  subst hu
  rw [State.encoded_eq]
  rfl

/-- Appending to a state that differs in pass-local registers only. -/
theorem State.emitBytes_of (s u : State) (px : Pixel) (bs cs : List Byte) (run : BitVec 6) (cache : Cache)
    (hu : u = { s with
        encBytes := (s.emitBytes bs).encBytes
        enc := { s.enc with
          ctl := { s.enc.ctl with outCount := s.enc.ctl.outCount + BitVec.ofNat 32 bs.length }
          px := px, run := run, cache := cache } }) :
    u.emitBytes cs = { s with
        encBytes := (s.emitBytes (bs ++ cs)).encBytes
        enc := { s.enc with
          ctl := { s.enc.ctl with outCount := s.enc.ctl.outCount + BitVec.ofNat 32 (bs ++ cs).length }
          px := px, run := run, cache := cache } } := by
  have e : (u.emitBytes cs).encBytes = (s.emitBytes (bs ++ cs)).encBytes := by
    rw [State.emitBytes_append]
    apply State.emitBytes_congr <;> subst hu
    · rfl
    · simp
  rw [State.emitBytes_eq, e]
  subst hu
  simp only [List.length_append, BitVec.ofNat_add, BitVec.add_assoc]

/-- The step of a pixel equal to the previous one (43_encoder R172, R173). -/
theorem State.pixelStep_run (s : State) (h : Memory.readPixel s.encPix s.enc.i.toNat = s.enc.pxPrev) :
    s.pixelStep =
      if s.enc.run + 1 = runMax ∨ s.enc.i = s.enc.n - 1 then
        s.encoded s.enc.pxPrev (encode (.run s.enc.run)) 0 s.enc.cache
      else s.encoded s.enc.pxPrev [] (s.enc.run + 1) s.enc.cache := by
  have ht : s.takePixel = s.setEnc { s.enc with px := s.enc.pxPrev } := by unfold State.takePixel; rw [h]
  have he : s.takePixel.encodePixel = s.takePixel.runPixel := by
    unfold State.encodePixel; rw [ht]; exact if_pos rfl
  have hu : s.takePixel.setEnc (s.takePixel.enc.setRun (s.takePixel.enc.run + 1)) =
      { s with
        encBytes := (s.emitBytes []).encBytes
        enc := { s.enc with
          ctl := { s.enc.ctl with outCount := s.enc.ctl.outCount + BitVec.ofNat 32 ([] : List Byte).length }
          px := s.enc.pxPrev, run := s.enc.run + 1, cache := s.enc.cache } } := by
    rw [ht, State.emitBytes_nil, List.length_nil]
    simp [State.setEnc, Enc.setRun]
  unfold State.pixelStep
  rw [he]
  unfold State.runPixel
  have hc : ∀ u : State, (s.takePixel.setEnc (s.takePixel.enc.setRun (s.takePixel.enc.run + 1))) = u →
      (u.enc.run = s.enc.run + 1 ∧ u.enc.i = s.enc.i ∧ u.enc.n = s.enc.n) := by
    intro u hu; subst hu; exact ⟨rfl, rfl, rfl⟩
  generalize hu' : s.takePixel.setEnc (s.takePixel.enc.setRun (s.takePixel.enc.run + 1)) = u at hu
  obtain ⟨h1, h2, h3⟩ := hc u hu'
  simp only [h1, h2, h3]
  split
  · apply State.encoded_of
    unfold State.flushRun State.emitOpcode
    rw [State.emitBytes_of s u s.enc.pxPrev [] _ (s.enc.run + 1) s.enc.cache hu, h1]
    simp only [State.setEnc, Enc.setRun, BitVec.add_sub_cancel, List.nil_append]
  · exact State.encoded_of s u _ _ _ _ hu

/-- The step of a changed pixel: a pending run flushed, then INDEX on a hit, else the selected opcode with the cache written
(43_encoder R174 to R181). -/
theorem State.pixelStep_changed (s : State) (px : Pixel) (hpx : Memory.readPixel s.encPix s.enc.i.toNat = px)
    (h : px ≠ s.enc.pxPrev) :
    s.pixelStep =
      if Cache.hit s.enc.cache s.cfg.hashW px then
        s.encoded px (pendingBytes s.enc.run ++ encode (.index (slotOf s.cfg.hashW px))) 0 s.enc.cache
      else
        s.encoded px (pendingBytes s.enc.run ++ encode (selectOnMiss px s.enc.pxPrev)) 0
          (Cache.update s.enc.cache s.cfg.hashW px) := by
  have ht : s.takePixel = s.setEnc { s.enc with px := px } := by unfold State.takePixel; rw [hpx]
  have he : s.takePixel.encodePixel =
      (if s.enc.run ≠ 0 then s.takePixel.flushRun else s.takePixel).changedPixel := by
    unfold State.encodePixel; rw [ht]; exact if_neg h
  have hf : (if s.enc.run ≠ 0 then s.takePixel.flushRun else s.takePixel) =
      { s with
        encBytes := (s.emitBytes (pendingBytes s.enc.run)).encBytes
        enc := { s.enc with
          ctl := { s.enc.ctl with outCount := s.enc.ctl.outCount + BitVec.ofNat 32 (pendingBytes s.enc.run).length }
          px := px, run := 0, cache := s.enc.cache } } := by
    unfold pendingBytes
    split
    · unfold State.flushRun State.emitOpcode
      have hu : s.takePixel = { s with
          encBytes := (s.emitBytes []).encBytes
          enc := { s.enc with
            ctl := { s.enc.ctl with outCount := s.enc.ctl.outCount + BitVec.ofNat 32 ([] : List Byte).length }
            px := px, run := s.enc.run, cache := s.enc.cache } } := by
        rw [ht, State.emitBytes_nil, List.length_nil]
        simp [State.setEnc]
      rw [State.emitBytes_of s _ px [] _ s.enc.run s.enc.cache hu, ht]
      simp only [State.setEnc, Enc.setRun, List.nil_append]
    · rename_i h0
      have h0 : s.enc.run = 0 := by simpa using h0
      rw [ht, State.emitBytes_nil, List.length_nil]
      simp only [State.setEnc, ← h0]
      simp
  unfold State.pixelStep
  rw [he, hf]
  unfold State.changedPixel
  simp only []
  split
  · apply State.encoded_of
    unfold State.emitOpcode
    exact State.emitBytes_of s _ px _ _ 0 s.enc.cache rfl
  · apply State.encoded_of
    unfold State.emitOpcode
    exact State.emitBytes_of s _ px _ _ 0 _ rfl

end Sys2Proof.Machine
end

