-- ==== Sys2Proof/Laws/Step.lean ====
section
/-! SUPPORT. How a step takes the agenda's next event, and everything a step of each engine and a host operation can do. -/

namespace Sys2Proof.Machine

/-! ### The agenda -/

theorem step_turn (s : State) (e : Engine) (rest : List Event) (h : s.agenda = .turn e :: rest) :
    step s = State.turn { s with agenda := rest } e := by
  unfold step State.nextEvent; rw [h]

theorem step_host (s : State) (op : HostOp) (rest : List Event) (h : s.agenda = .host op :: rest) :
    step s = State.hostStep { s with agenda := rest } op := by
  unfold step State.nextEvent; rw [h]

theorem step_empty (s : State) (h : s.agenda = []) :
    step s = if s.dec.ctl.state = .busy then s.turn .dec else s.turn .enc := by
  unfold step State.nextEvent; rw [h]

theorem State.turn_dec (s : State) :
    s.turn .dec = if s.dec.ctl.state = .busy then s.decStep else .next s := by
  simp [State.turn]

theorem State.turn_enc (s : State) :
    s.turn .enc = if s.enc.ctl.state = .busy then .next s.encStep else .next s := by
  simp [State.turn]

theorem State.DecTurn.step_eq {s : State} {rest : List Event} (h : s.DecTurn rest) :
    step s = State.slotStep { s with agenda := rest } := by
  obtain ⟨h1, h2, h3⟩ := h
  rw [step_turn s .dec rest h1, State.turn_dec, if_pos h2]
  exact if_pos h3

theorem State.EncTurn.step_eq {s : State} {rest : List Event} (h : s.EncTurn rest) :
    step s = .next (State.encStep { s with agenda := rest }) := by
  obtain ⟨h1, h2⟩ := h
  rw [step_turn s .enc rest h1, State.turn_enc]
  exact if_pos h2

theorem State.StartNext.step_dec {s : State} {rest : List Event} (h : s.StartNext .dec rest) :
    step s = .next (State.decStart { s with agenda := rest }) := by
  obtain ⟨h1, h2⟩ := h
  have h2' : s.dec.ctl.state ≠ .busy := h2
  have h3 : lowByte 1#32 = 1#8 := by decide
  rw [step_host s _ rest h1]
  simp [State.hostStep, State.hostWrite, State.decCommand, h2', h3]

theorem State.StartNext.step_enc {s : State} {rest : List Event} (h : s.StartNext .enc rest) :
    step s = .next (State.encStart { s with agenda := rest }) := by
  obtain ⟨h1, h2⟩ := h
  have h2' : s.enc.ctl.state ≠ .busy := h2
  have h3 : lowByte 1#32 = 1#8 := by decide
  rw [step_host s _ rest h1]
  simp [State.hostStep, State.hostWrite, State.encCommand, h2', h3]

/-! ### A slot step -/

/-- Everything a slot step can do: it ends normally, at most five bytes on and only from inside the region, or an operand fetch
raises `Overrun`. -/
theorem State.slotStep_cases (s : State) :
    (∃ t px len run, s.slotStep = .next t ∧ SlotRan s t px len run ∧ len ≤ 5 ∧
      (len ≠ 0 → s.dec.run = 0 ∧ s.dec.p < s.dec.chunkEnd) ∧ (s.dec.run ≤ 61#6 → run ≤ 61#6)) ∨
    (∃ t k, k < 4 ∧ s.cfg.operandPastChunk = .fault ∧ s.dec.p < s.dec.chunkEnd ∧ s.slotStep = .next t ∧
      SlotOverran s t (s.dec.p + BitVec.ofNat 32 (1 + k)) ∧ t.agenda = s.agenda) := by
  unfold State.slotStep
  have hp0 : s.dec.p = s.dec.p + BitVec.ofNat 32 0 := by simp
  split
  · rename_i hr
    refine .inl ⟨_, _, 0, _, rfl, State.endSlot_ran _ _ _ _ _ rfl hp0 rfl rfl rfl rfl rfl
      ⟨rfl, rfl, rfl, rfl, rfl, rfl, rfl, rfl⟩ ⟨rfl, rfl, rfl, rfl, rfl, rfl, rfl⟩ rfl, by simp, by simp, ?_⟩
    show s.dec.run ≤ 61#6 → s.dec.run - 1 ≤ 61#6
    revert hr; generalize s.dec.run = r; revert r; decide
  split
  · rename_i hr hp
    rcases exec_cases s.fetchOpcode s with ⟨t, px, len, run, h, d, h1, h5, hrun⟩ | ⟨t, k, hk, hf, h, d, ha⟩
    · refine .inl ⟨t, px, len, run, h, d, h5, fun _ => ⟨by simpa using hr, hp⟩, fun hm => ?_⟩
      rcases hrun with rfl | hi
      · exact hm
      · have hw := decodeFrom_wf s.opcodeByte
        rw [show decodeFrom s.opcodeByte = .run run from hi] at hw
        simpa [Instr.wf] using hw
    · exact .inr ⟨t, k, hk, hf, hp, h, d, ha⟩
  · exact .inl ⟨_, _, 0, _, rfl, State.endSlot_ran _ _ _ _ _ rfl hp0 rfl rfl rfl rfl rfl
      ⟨rfl, rfl, rfl, rfl, rfl, rfl, rfl, rfl⟩ ⟨rfl, rfl, rfl, rfl, rfl, rfl, rfl⟩ rfl, by simp, by simp, id⟩

/-- Everything START of DEC can do: the pass begins, or a check of the header fails and it ends in ERROR (41_header R129 to
R131). -/
theorem State.decStart_cases (s : State) :
    (headerCause s.dec.inSize s.beginDec.readHeader = .none ∧
      s.decStart = s.beginDec.setDec (s.beginDec.dec.accept s.beginDec.readHeader)) ∨
    (headerCause s.dec.inSize s.beginDec.readHeader ≠ .none ∧
      s.decStart = s.beginDec.raiseDec (headerCause s.dec.inSize s.beginDec.readHeader) 0) :=
  State.parseHeader_cases s.beginDec

/-- START of DEC touches DEC and its output space alone; the output space is empty. -/
theorem State.decStart_frame (s : State) : DecOnly s s.decStart ∧ s.decStart.agenda = s.agenda ∧ s.decStart.decOut = [] := by
  rcases State.decStart_cases s with ⟨-, e⟩ | ⟨-, e⟩ <;> rw [e] <;>
    exact ⟨⟨rfl, rfl, rfl, rfl, rfl, rfl, rfl⟩, rfl, rfl⟩

/-! ### Steps of ENC -/

/-- A step of ENC touches ENC and its output space alone. -/
theorem State.encStep_frame (s : State) : EncOnly s s.encStep ∧ s.encStep.agenda = s.agenda := by
  unfold State.encStep
  split
  · by_cases hp : Memory.readPixel s.encPix s.enc.i.toNat = s.enc.pxPrev
    · rw [State.pixelStep_run s hp]
      split <;> rw [State.encoded_eq] <;> exact ⟨⟨rfl, rfl, rfl, rfl, rfl, rfl, rfl⟩, rfl⟩
    · rw [State.pixelStep_changed s _ rfl hp]
      split <;> rw [State.encoded_eq] <;> exact ⟨⟨rfl, rfl, rfl, rfl, rfl, rfl, rfl⟩, rfl⟩
  · unfold State.paddingStep
    rw [State.emitBytes_eq]
    exact ⟨⟨rfl, rfl, rfl, rfl, rfl, rfl, rfl⟩, rfl⟩

/-- No step of ENC writes a register the host wrote before START, nor the cause (10_state R35, R36). -/
theorem State.encStep_keeps (s : State) : EncKeeps s.enc s.encStep.enc := by
  unfold State.encStep
  split
  · by_cases hp : Memory.readPixel s.encPix s.enc.i.toNat = s.enc.pxPrev
    · rw [State.pixelStep_run s hp]
      split <;> rw [State.encoded_eq] <;> exact ⟨rfl, rfl, rfl, rfl, rfl, rfl, rfl⟩
    · rw [State.pixelStep_changed s _ rfl hp]
      split <;> rw [State.encoded_eq] <;> exact ⟨rfl, rfl, rfl, rfl, rfl, rfl, rfl⟩
  · unfold State.paddingStep
    rw [State.emitBytes_eq]
    exact ⟨rfl, rfl, rfl, rfl, rfl, rfl, rfl⟩

theorem State.encStep_wf (s : State) (h : Memory.wf s.encBytes) : Memory.wf s.encStep.encBytes := by
  unfold State.encStep
  split
  · by_cases hp : Memory.readPixel s.encPix s.enc.i.toNat = s.enc.pxPrev
    · rw [State.pixelStep_run s hp]
      split <;> rw [State.encoded_eq] <;> exact State.emitBytes_wf _ _ h
    · rw [State.pixelStep_changed s _ rfl hp]
      split <;> rw [State.encoded_eq] <;> exact State.emitBytes_wf _ _ h
  · exact State.emitBytes_wf _ _ h

/-- START of ENC touches ENC and its output space alone. -/
theorem State.encStart_frame (s : State) : EncOnly s s.encStart ∧ s.encStart.agenda = s.agenda := by
  unfold State.encStart
  simp only []
  split
  · rw [State.emitBytes_eq]
    exact ⟨⟨rfl, rfl, rfl, rfl, rfl, rfl, rfl⟩, rfl⟩
  · exact ⟨⟨rfl, rfl, rfl, rfl, rfl, rfl, rfl⟩, rfl⟩

theorem State.encStart_wf (s : State) : Memory.wf s.encStart.encBytes := by
  unfold State.encStart
  simp only []
  split
  · exact State.emitBytes_wf _ _ Memory.wf_nil
  · exact Memory.wf_nil

/-! ### Host operations -/

/-- A host read of a register changes at most what the host holds and the free counter. -/
theorem State.hostRead_cases (s : State) (e : Engine) (no : Nat) :
    s.hostRead e no = .refused .readOfWriteOnly ∨
    ∃ d k, s.hostRead e no = .next { s with hostData := d, freeCtr := k } := by
  by_cases h0 : no = 0
  · subst h0; exact .inl rfl
  refine .inr ?_
  unfold State.hostRead
  rw [if_neg h0]
  simp only []
  split
  · split_ifs
    · exact ⟨_, _, rfl⟩
    · exact ⟨_, s.freeCtr, rfl⟩
  · exact ⟨_, _, rfl⟩

/-- What a host read of a register of DEC answers: the value, but for the RW register while BUSY and the numbers with none. -/
theorem State.hostRead_dec_eq (s : State) (no : Nat) (h : no ≠ 0) :
    s.hostRead .dec no =
      match s.dec.readReg no with
      | some v =>
        if s.dec.ctl.state = .busy ∧ no = 2 then .next (s.answerFree (.word s.freeWord)) else .next (s.answer (.word v))
      | none => .next (s.answerFree (.word s.freeWord)) := by
  unfold State.hostRead
  cases s.dec.readReg no <;> simp [h, isRw]

/-- What a host read of a register of ENC answers: the value, but for the RW registers while BUSY and the numbers with none. -/
theorem State.hostRead_enc_eq (s : State) (no : Nat) (h : no ≠ 0) :
    s.hostRead .enc no =
      match s.enc.readReg no with
      | some v =>
        if s.enc.ctl.state = .busy ∧ 2 ≤ no ∧ no ≤ 6 then .next (s.answerFree (.word s.freeWord))
        else .next (s.answer (.word v))
      | none => .next (s.answerFree (.word s.freeWord)) := by
  unfold State.hostRead
  cases s.enc.readReg no <;> simp [h, isRw]

/-- A host read of an output pixel changes at most what the host holds and the free counter. -/
theorem State.readOutPixel_cases (s : State) (i : Word) :
    s.readOutPixel i = .fault .noSuchOutput ∨
    ∃ d k, s.readOutPixel i = .next { s with hostData := d, freeCtr := k } := by
  unfold State.readOutPixel
  split_ifs
  · exact .inr ⟨_, s.freeCtr, rfl⟩
  · exact .inl rfl
  · exact .inr ⟨_, _, rfl⟩

/-- A host read of an output byte changes at most what the host holds and the free counter. -/
theorem State.readOutByte_cases (s : State) (i : Word) :
    s.readOutByte i = .fault .noSuchOutput ∨
    ∃ d k, s.readOutByte i = .next { s with hostData := d, freeCtr := k } := by
  unfold State.readOutByte
  split_ifs
  · exact .inr ⟨_, s.freeCtr, rfl⟩
  · exact .inl rfl
  · exact .inr ⟨_, _, rfl⟩

/-- Everything a host write to DEC's bank can do. -/
theorem State.hostWrite_dec_cases (s : State) (no : Nat) (v : Word) :
    (s.dec.ctl.state = .busy ∧ s.hostWrite .dec no v = .refused .startWhileBusy) ∨
    (s.dec.ctl.state ≠ .busy ∧ no = 0 ∧ lowByte v = 1 ∧ s.hostWrite .dec no v = .next s.decStart) ∨
    (s.dec.ctl.state = .busy ∧ s.hostWrite .dec no v = .next (s.setDec (s.dec.setCtl (s.dec.ctl.abort .none)))) ∨
    s.hostWrite .dec no v = .next s ∨
    (s.dec.ctl.state ≠ .busy ∧ ∃ x, s.hostWrite .dec no v = .next (s.setDec { s.dec with inSize := x })) := by
  have hw : ∃ x, s.dec.writeReg no v = { s.dec with inSize := x } := by
    unfold Dec.writeReg
    split
    · exact ⟨_, rfl⟩
    · exact ⟨s.dec.inSize, rfl⟩
  obtain ⟨x, hw⟩ := hw
  by_cases hb : s.dec.ctl.state = .busy <;> by_cases h0 : no = 0 <;> by_cases h1 : lowByte v = 1 <;>
    by_cases h2 : lowByte v = 2 <;>
    simp_all [State.hostWrite, State.decCommand]
  all_goals exact .inr ⟨x, rfl⟩

/-- Everything a host write to ENC's bank can do. -/
theorem State.hostWrite_enc_cases (s : State) (no : Nat) (v : Word) :
    (s.enc.ctl.state = .busy ∧ s.hostWrite .enc no v = .refused .startWhileBusy) ∨
    (s.enc.ctl.state ≠ .busy ∧ no = 0 ∧ lowByte v = 1 ∧ s.hostWrite .enc no v = .next s.encStart) ∨
    (s.enc.ctl.state = .busy ∧ s.hostWrite .enc no v = .next (s.setEnc (s.enc.setCtl (s.enc.ctl.abort .none)))) ∨
    s.hostWrite .enc no v = .next s ∨
    (s.enc.ctl.state ≠ .busy ∧ ∃ len w h ch cs, s.hostWrite .enc no v =
      .next (s.setEnc { s.enc with pixLen := len, width := w, height := h, channels := ch, colorspace := cs })) := by
  have hw : ∃ len w h ch cs, s.enc.writeReg no v =
      { s.enc with pixLen := len, width := w, height := h, channels := ch, colorspace := cs } := by
    unfold Enc.writeReg
    split <;> exact ⟨_, _, _, _, _, rfl⟩
  obtain ⟨len, w, h, ch, cs, hw⟩ := hw
  by_cases hb : s.enc.ctl.state = .busy <;> by_cases h0 : no = 0 <;> by_cases h1 : lowByte v = 1 <;>
    by_cases h2 : lowByte v = 2 <;>
    simp_all [State.hostWrite, State.encCommand]
  all_goals exact .inr ⟨len, w, h, ch, cs, rfl⟩

/-! ### The whole machine -/

/-- Everything a step that goes on can be: a slot step of DEC, a step of ENC, a turn of an engine that is not BUSY, or a host
operation; `r` is what is left of the agenda. -/
theorem step_next_cases (s t : State) (h : step s = .next t) : ∃ r,
    (s.dec.ctl.state = .busy ∧ s.dec.i < s.dec.n ∧ State.slotStep { s with agenda := r } = .next t) ∨
    (s.enc.ctl.state = .busy ∧ t = State.encStep { s with agenda := r }) ∨
    t = { s with agenda := r } ∨
    (∃ op, s.agenda = .host op :: r ∧ State.hostStep { s with agenda := r } op = .next t) := by
  have dec : ∀ r, State.turn { s with agenda := r } .dec = .next t →
      (s.dec.ctl.state = .busy ∧ s.dec.i < s.dec.n ∧ State.slotStep { s with agenda := r } = .next t) ∨
      t = { s with agenda := r } := by
    intro r h
    rw [State.turn_dec] at h
    split at h
    · rename_i hb
      unfold State.decStep at h
      split at h
      · rename_i hi; exact .inl ⟨hb, hi, h⟩
      · cases h
    · cases h; exact .inr rfl
  have enc : ∀ r, State.turn { s with agenda := r } .enc = .next t →
      (s.enc.ctl.state = .busy ∧ t = State.encStep { s with agenda := r }) ∨ t = { s with agenda := r } := by
    intro r h
    rw [State.turn_enc] at h
    split at h
    · rename_i hb; cases h; exact .inl ⟨hb, rfl⟩
    · cases h; exact .inr rfl
  unfold step State.nextEvent at h
  split at h
  · rename_i op r e; exact ⟨r, .inr (.inr (.inr ⟨op, e, h⟩))⟩
  · rename_i e r _
    cases e
    · rcases dec r h with h | h
      · exact ⟨r, .inl h⟩
      · exact ⟨r, .inr (.inr (.inl h))⟩
    · rcases enc r h with h | h
      · exact ⟨r, .inr (.inl h)⟩
      · exact ⟨r, .inr (.inr (.inl h))⟩
  · split at h
    · rcases dec s.agenda h with h | h
      · exact ⟨s.agenda, .inl h⟩
      · exact ⟨s.agenda, .inr (.inr (.inl h))⟩
    · rcases enc s.agenda h with h | h
      · exact ⟨s.agenda, .inr (.inl h)⟩
      · exact ⟨s.agenda, .inr (.inr (.inl h))⟩

end Sys2Proof.Machine
end

