-- ==== Sys2Proof/Tests/Slice0.lean ====
section
/-! SUPPORT. The model's own tests: refusals of ill-formed terms, words written out from the spec, one-step tests with results
from 42_decoder section 2 and 95_test_vectors, and for each statement with hypotheses a witness that meets them. -/

namespace Sys2Proof.Tests

open Sys2Proof Sys2Proof.Machine

/-! ### Well-formedness: one ill-formed term per check (30_encoding R78, R83) -/

theorem test_wf_diff_refuses_each_bound :
    (Instr.diff (-3) 0 0).wf = false ∧ (Instr.diff 2 0 0).wf = false ∧ (Instr.diff 0 (-3) 0).wf = false ∧
    (Instr.diff 0 2 0).wf = false ∧ (Instr.diff 0 0 (-3)).wf = false ∧ (Instr.diff 0 0 2).wf = false := by decide

theorem test_wf_luma_refuses_each_bound :
    (Instr.luma (-33) 0 0).wf = false ∧ (Instr.luma 32 0 0).wf = false ∧ (Instr.luma 0 (-9) 0).wf = false ∧
    (Instr.luma 0 8 0).wf = false ∧ (Instr.luma 0 0 (-9)).wf = false ∧ (Instr.luma 0 0 8).wf = false := by decide

theorem test_wf_run_refuses_62_and_63 : (Instr.run 62).wf = false ∧ (Instr.run 63).wf = false := by decide

theorem test_wf_admits_the_extremes :
    (Instr.diff (-2) 1 (-2)).wf = true ∧ (Instr.luma (-32) 7 (-8)).wf = true ∧ (Instr.luma 31 (-8) 7).wf = true ∧
    (Instr.run 61).wf = true := by decide

theorem test_assembler_refuses_each_constraint :
    assemble (.rgb 256 0 0) = none ∧ assemble (.rgb 0 256 0) = none ∧ assemble (.rgb 0 0 256) = none ∧
    assemble (.rgba 256 0 0 0) = none ∧ assemble (.rgba 0 256 0 0) = none ∧ assemble (.rgba 0 0 256 0) = none ∧
    assemble (.rgba 0 0 0 256) = none ∧ assemble (.index 64) = none ∧ assemble (.diff 2 0 0) = none ∧
    assemble (.luma 0 0 8) = none ∧ assemble (.run 0) = none ∧ assemble (.run 63) = none := by decide

/-! ### Decoding: words written out bit by bit (30_encoding R71, R73 to R77) -/

theorem test_decode_rgb :
    decode [0b11111110#8, 0b00001010#8, 0b00010100#8, 0b00011110#8] = .ok (.rgb 10 20 30, []) := by decide

theorem test_decode_rgba :
    decode [0b11111111#8, 0b00000001#8, 0b00000010#8, 0b00000011#8, 0b10000000#8] = .ok (.rgba 1 2 3 128, []) := by decide

theorem test_decode_index : decode [0b00001001#8] = .ok (.index 9, []) := by decide

theorem test_decode_diff :
    decode [0b01011010#8] = .ok (.diff (-1) 0 0, []) ∧ decode [0b01000111#8] = .ok (.diff (-2) (-1) 1, []) := by decide

theorem test_decode_luma :
    decode [0b10101010#8, 0b01011101#8] = .ok (.luma 10 (-3) 5, []) ∧
    decode [0b10000000#8, 0b00001111#8] = .ok (.luma (-32) (-8) 7, []) := by decide

theorem test_decode_run :
    decode [0b11000011#8] = .ok (.run 3, []) ∧ decode [0b11111101#8, 0#8] = .ok (.run 61, [0#8]) := by decide

theorem test_decode_refuses_short_input :
    decode [] = .error .noBytes ∧ decode [0xFE#8, 1#8, 2#8] = .error (.truncated 4 3) ∧
    decode [0xFF#8, 1#8, 2#8, 3#8] = .error (.truncated 5 4) ∧ decode [0x80#8] = .error (.truncated 2 1) := by decide

theorem test_table_words :
    decodeTableWord 32 0x1E140AFE = some (.rgb 10 20 30) ∧ decodeTableWord 40 0x80030201FF = some (.rgba 1 2 3 128) ∧
    decodeTableWord 8 0x09 = some (.index 9) ∧ decodeTableWord 8 0x5A = some (.diff (-1) 0 0) ∧
    decodeTableWord 16 0x5DAA = some (.luma 10 (-3) 5) ∧ decodeTableWord 8 0xC3 = some (.run 3) ∧
    decodeTableWord 8 0xFE = some (.rgb 0 0 0) := by decide

/-- A header's 14 bytes (41_header R133) and the padding (00_scope R7). -/
theorem test_directives :
    assemble (.hdr 2 1 3 0) = some [0x71, 0x6F, 0x69, 0x66, 0, 0, 0, 2, 0, 0, 0, 1, 3, 0] ∧
    assemble .pad = some [0, 0, 0, 0, 0, 0, 0, 1] := by decide

/-! ### Small states -/

/-- Bytes from an offset on. -/
def bytesAt (k : Nat) (bs : List Byte) : Memory := bs.zipIdx.foldl (fun m b => Memory.write m (k + b.2) b.1) []

/-- DEC in a pass of `n` slots at slot `i`, its region the bytes given, the cursor at the first. -/
def busyDec (pol : OperandPolicy) (bs : List Byte) (px : Pixel) (run : BitVec 6) (i n : Word) : State :=
  { State.reset with
    cfg := { hashW := ⟨3, 5, 7, 11⟩, operandPastChunk := pol }
    decIn := bytesAt 14 bs
    agenda := [.turn .dec]
    dec := { Dec.reset with
      ctl := { Ctl.start .none with outCount := i }
      inSize := 22 + BitVec.ofNat 32 bs.length, size := 22 + BitVec.ofNat 32 bs.length
      width := n, height := 1, channels := 3, px := px, run := run, p := 14, i := i, n := n
      chunkEnd := 14 + BitVec.ofNat 32 bs.length } }

/-- ENC in a pass of `n` pixels at pixel 0, which is `px`. -/
def busyEnc (px prev : Pixel) (run : BitVec 6) (i n : Word) : State :=
  { State.reset with
    encPix := Memory.writePixel [] i.toNat px
    agenda := [.turn .enc]
    enc := { Enc.reset with
      ctl := { Ctl.start .none with outCount := 14 }
      pixLen := n, width := n, height := 1, channels := 4, pxPrev := prev, run := run, i := i, n := n } }

/-- The same encoder with one pixel in its cache. -/
def caching (s : State) (px : Pixel) : State :=
  { s with enc := { s.enc with cache := Cache.update s.enc.cache s.cfg.hashW px } }

/-- An idle machine whose next event is this host operation. -/
def asked (op : HostOp) : State := { State.reset with agenda := [.host op] }

/-- A value of the next state, if there is one. -/
def after {α : Type} (o : Outcome) (f : State → α) : Option α :=
  match o with
  | .next t => some (f t)
  | .fault _ => none
  | .refused _ => none

/-! ### One step of each opcode -/

/-- The example of R146: alpha 4 is kept, `p` advances by 4. -/
theorem test_rgb_example :
    after (exec (.rgb 10 20 30) (busyDec .readInput [0xFE, 10, 20, 30] ⟨1, 2, 3, 4⟩ 0 0 2)) (fun t => (t.dec.px, t.dec.p)) =
      some (⟨10, 20, 30, 4⟩, 18) := by decide

/-- D-OV-1 under FAULT: `Overrun(15)`, nothing emitted. -/
theorem test_rgb_overrun :
    after (step (busyDec .fault [0xFE] startPx 0 0 2)) (fun t => t.dec.ctl) = some ⟨.error, .overrun, 0, 15⟩ := by decide

/-- The example of R147. -/
theorem test_rgba_example :
    after (step (busyDec .readInput [0xFF, 1, 2, 3, 0x80] ⟨9, 9, 9, 9⟩ 0 0 1))
      (fun t => (t.dec.px, t.dec.p, t.dec.ctl.state)) = some (⟨1, 2, 3, 128⟩, 19, .done) := by decide

/-- D-OV-6 under ZERO: operands past the region are 0, whatever the padding holds. -/
theorem test_rgba_zero_policy :
    after (step
      { busyDec .zero [0xFF, 1, 2] startPx 0 0 1 with decIn := bytesAt 14 [0xFF, 1, 2, 7, 8, 9, 10] })
      (fun t => t.dec.px) = some ⟨1, 2, 0, 0⟩ := by decide

/-- D-IDX-1: slot 53 was never written, and the slot's own update comes after the read. -/
theorem test_index_before_update :
    after (step (busyDec .readInput [0x35] startPx 0 0 1)) (fun t => (t.dec.px, Cache.lookup t.dec.cache 53)) =
      some (zeroPx, zeroPx) := by decide

/-- The example of R149: 0 - 1 wraps. -/
theorem test_diff_example :
    after (step (busyDec .readInput [0x5A] startPx 0 0 1)) (fun t => t.dec.px) = some ⟨255, 0, 0, 255⟩ := by decide

/-- The example of R150. -/
theorem test_luma_example :
    after (step (busyDec .readInput [0xAA, 0x5D] ⟨100, 100, 100, 255⟩ 0 0 1)) (fun t => (t.dec.px, t.dec.p)) =
      some (⟨107, 110, 115, 255⟩, 16) := by decide

/-- D-LUMA-1: -40 wraps. -/
theorem test_luma_wraps :
    after (exec (.luma (-32) (-8) (-8)) (busyDec .readInput [0x80, 0] startPx 0 0 1)) (fun t => t.dec.px) =
      some ⟨216, 224, 216, 255⟩ := by decide

/-- The example of R151: the payload is the count of further slots, and the RUN slot emits the pixel. -/
theorem test_run_example :
    after (step (busyDec .readInput [0xC3] ⟨5, 5, 5, 255⟩ 0 0 4))
      (fun t => (t.dec.run, t.dec.ctl.outCount, Memory.readPixel t.decOut 0)) = some (3, 1, ⟨5, 5, 5, 255⟩) := by decide

/-- D-UPD-1, its first slot: the RUN slot writes the cache too. -/
theorem test_run_updates_cache :
    after (step (busyDec .readInput [0xC0, 0x35] startPx 0 0 2)) (fun t => Cache.lookup t.dec.cache 53) =
      some startPx := by decide

/-! ### One step of each other kind -/

/-- D-EX-1, its second slot: nothing left to fetch. -/
theorem test_exhausted :
    after (step (busyDec .fault [] ⟨255, 0, 0, 255⟩ 0 1 3)) (fun t => (t.dec.p, t.dec.ctl.outCount, t.dec.ctl.state)) =
      some (14, 2, .busy) := by decide

/-- E-IDX-2, its third pixel: INDEX wins over DIFF. -/
theorem test_encoder_index :
    after (step (caching (busyEnc ⟨1, 1, 1, 255⟩ ⟨2, 2, 2, 255⟩ 0 0 2) ⟨1, 1, 1, 255⟩))
      (fun t => (Memory.read t.encBytes 14, t.enc.ctl.outCount)) = some (0x04, 15) := by decide

/-- E-RGBA-2, its third pixel: the pending run is flushed first. -/
theorem test_encoder_flush_then_rgba :
    after (step (busyEnc ⟨0, 0, 0, 254⟩ startPx 2 0 2))
      (fun t => ((List.range 6).map (fun k => Memory.read t.encBytes (14 + k)), t.enc.run)) =
      some ([0xC1, 0xFF, 0, 0, 0, 254], 0) := by decide

/-- E-DIFF-2, E-LUMA-1, E-LUMA-3: the forms by range. -/
theorem test_selector :
    selectOnMiss ⟨255, 255, 255, 255⟩ startPx = .diff (-1) (-1) (-1) ∧
    selectOnMiss ⟨216, 224, 216, 255⟩ startPx = .luma (-32) (-8) (-8) ∧
    selectOnMiss ⟨39, 31, 38, 255⟩ startPx = .rgb 39 31 38 := by decide

/-- E-RUN-2, its 62nd pixel: `FD`. -/
theorem test_encoder_run_limit :
    after (step (busyEnc startPx startPx 61 0 2)) (fun t => (Memory.read t.encBytes 14, t.enc.run)) =
      some (0xFD, 0) := by decide

/-- START on an empty input: `SHORT` (41_header R121). -/
theorem test_start_short :
    after (step (asked (.writeReg .dec 0 1))) (fun t => t.dec.status) = some 0x103 := by decide

/-- The default slots that 95_test_vectors uses: `S`, `Z` and the pixels of E-IDX-1 and E-RUN-1. -/
theorem test_slots :
    slotOf ⟨3, 5, 7, 11⟩ startPx = 53 ∧ slotOf ⟨3, 5, 7, 11⟩ zeroPx = 0 ∧ slotOf ⟨3, 5, 7, 11⟩ ⟨1, 2, 3, 255⟩ = 23 ∧
    slotOf ⟨3, 5, 7, 11⟩ ⟨7, 7, 7, 255⟩ = 30 := by decide

/-- The opcode placed by the host runs as the first step after reset, for each row of the table. -/
theorem test_placed_words_run :
    (after (step (State.reset.withFetchWord 32 0x1E140AFE)) (fun t => t.dec.px) = some ⟨10, 20, 30, 255⟩) ∧
    (after (step (State.reset.withFetchWord 40 0x80030201FF)) (fun t => t.dec.px) = some ⟨1, 2, 3, 128⟩) ∧
    (after (step (State.reset.withFetchWord 8 0x09)) (fun t => t.dec.px) = some zeroPx) ∧
    (after (step (State.reset.withFetchWord 8 0x5A)) (fun t => t.dec.px) = some ⟨255, 0, 0, 255⟩) ∧
    (after (step (State.reset.withFetchWord 16 0x5DAA)) (fun t => t.dec.px) = some ⟨7, 10, 15, 255⟩) ∧
    (after (step (State.reset.withFetchWord 8 0xC3)) (fun t => t.dec.run) = some 3) := by decide

/-! ### Witnesses: for each statement with hypotheses, a state and operands that meet them together -/

theorem witness_DecodeOfEncodeIsTheOpcode :
    (Instr.rgba 1 2 3 4).wf = true ∧ (Instr.diff (-2) 1 0).wf = true ∧ (Instr.luma 31 (-8) 7).wf = true ∧
    (Instr.run 61).wf = true := by decide

theorem witness_EncodeOfDecodeIsTheBytes : decode [0xFD, 0x00] = .ok (.run 61, [0x00]) := by decide

/-- A first byte at each end of each range. -/
theorem witness_EveryFirstByteIsOneOpcode :
    4 ≤ [0#8, 0#8, 0#8, 0#8].length ∧ (0x00#8).toNat ≤ 0x3F ∧ (0x3F#8).toNat ≤ 0x3F ∧
    (0x40 ≤ (0x40#8).toNat ∧ (0x7F#8).toNat ≤ 0x7F) ∧ (0x80 ≤ (0x80#8).toNat ∧ (0xBF#8).toNat ≤ 0xBF) ∧
    (0xC0 ≤ (0xC0#8).toNat ∧ (0xFD#8).toNat ≤ 0xFD) ∧ (0xFE#8).toNat = 0xFE ∧ (0xFF#8).toNat = 0xFF := by decide

theorem witness_OpcodeLengthComesFromTheFirstByte :
    decode [0x7F, 9] = .ok (.diff 1 1 1, [9]) ∧ decode [0x80, 0, 9] = .ok (.luma (-32) (-8) (-8), [9]) ∧
    decode [0xBF, 0, 9] = .ok (.luma 31 (-8) (-8), [9]) ∧ decode [0xC0, 9] = .ok (.run 0, [9]) ∧
    decode [0xFE, 1, 2, 3, 9] = .ok (.rgb 1 2 3, [9]) ∧ decode [0xFF, 1, 2, 3, 4, 9] = .ok (.rgba 1 2 3 4, [9]) := by decide

/-- Each constraint of R83 at its last operand in range and its first out of range. -/
theorem witness_AssemblerRefusesOperandsOutOfRange :
    (assemble (.rgb 255 255 255) = some [0xFE, 0xFF, 0xFF, 0xFF] ∧ 256 ≤ 256) ∧
    (assemble (.rgba 0 0 0 255) = some [0xFF, 0, 0, 0, 0xFF] ∧ assemble (.rgba 0 0 0 256) = none) ∧
    (assemble (.index 63) = some [0x3F] ∧ assemble (.index 64) = none) ∧
    (assemble (.diff (-2) 1 1) = some [0x4F] ∧ assemble (.diff (-3) 0 0) = none ∧ assemble (.diff 0 0 2) = none) ∧
    (assemble (.luma (-32) 7 (-8)) = some [0x80, 0xF0] ∧ assemble (.luma 32 0 0) = none ∧
      assemble (.luma 0 (-9) 0) = none ∧ assemble (.luma 0 0 8) = none) ∧
    (assemble (.run 1) = some [0xC0] ∧ assemble (.run 62) = some [0xFD] ∧ assemble (.run 0) = none ∧
      assemble (.run 63) = none) := by decide

/-- Operands readable in the region and past it, and a first overrun at each operand. -/
theorem witness_RgbWritesColourAndKeepsAlpha :
    (busyDec .fault [0xFE, 1, 2, 3] startPx 0 0 1).OperandsReadable 3 ∧
    (busyDec .zero [0xFE] startPx 0 0 1).OperandsReadable 3 ∧
    (busyDec .fault [0xFE] startPx 0 0 1).FirstOverrun 0 ∧
    (busyDec .fault [0xFE, 1, 2] startPx 0 0 1).FirstOverrun 2 :=
  ⟨.inr (by decide), .inl (by decide), ⟨rfl, by decide, by decide⟩, ⟨rfl, by decide, by decide⟩⟩

theorem witness_RgbaWritesAllChannels :
    (busyDec .fault [0xFF, 1, 2, 3, 4] startPx 0 0 1).OperandsReadable 4 ∧
    (busyDec .readInput [0xFF] startPx 0 0 1).OperandsReadable 4 ∧
    (busyDec .fault [0xFF, 1, 2, 3] startPx 0 0 1).FirstOverrun 3 :=
  ⟨.inr (by decide), .inl (by decide), ⟨rfl, by decide, by decide⟩⟩

/-- 0 - 2 and 255 + 1, modulo 256. -/
theorem witness_DiffAddsDeltasModulo256 :
    ChannelPlus 0 254 (-2) ∧ ChannelPlus 255 0 1 ∧ ChannelPlus 7 7 0 := by
  unfold ChannelPlus; decide

theorem witness_LumaAddsGreenRelativeDeltasModulo256 :
    ChannelPlus 0 216 (-32 + -8) ∧ ChannelPlus 0 224 (-32) ∧ ChannelPlus 250 32 (31 + 7) ∧
    (busyDec .fault [0x80, 0] startPx 0 0 1).OperandsReadable 1 ∧ (busyDec .fault [0x80] startPx 0 0 1).FirstOverrun 0 :=
  ⟨by unfold ChannelPlus; decide, by unfold ChannelPlus; decide, by unfold ChannelPlus; decide, .inr (by decide),
    ⟨rfl, by decide, by decide⟩⟩

theorem witness_RunLoadsTheCounterAndKeepsThePixel : (0#6).toNat ≤ 61 ∧ (61#6).toNat ≤ 61 := by decide

/-- An opcode in the region, and one whose operand lies past it under ZERO where the input holds 9. -/
theorem witness_StepRunsTheDecodedOpcode :
    let s := { busyDec .zero [0xA0] startPx 0 0 1 with decIn := bytesAt 14 [0xA0, 9] };
    s.DecTurn [] ∧ s.dec.run = 0 ∧ s.dec.p < s.dec.chunkEnd ∧
    (∀ k, k < [0xA0#8, 0#8].length → [0xA0#8, 0#8].getD k 0 =
      if k ≠ 0 ∧ s.dec.chunkEnd ≤ s.dec.p + BitVec.ofNat 32 k ∧ s.cfg.operandPastChunk = .zero then 0
      else s.inByte (s.dec.p + BitVec.ofNat 32 k)) ∧
    decode [0xA0#8, 0#8] = .ok (.luma 0 (-8) (-8), []) :=
  ⟨⟨rfl, rfl, by decide⟩, rfl, by decide, by decide, by decide⟩

theorem witness_EmptyAgendaGivesABusyEngineItsTurn :
    let d := { busyDec .readInput [0x5A] startPx 0 0 1 with agenda := [] }
    let e := { busyEnc startPx startPx 0 0 1 with agenda := [] };
    (d.agenda = [] ∧ d.dec.ctl.state = .busy) ∧
    (e.agenda = [] ∧ e.dec.ctl.state ≠ .busy ∧ e.enc.ctl.state = .busy) ∧
    (State.reset.agenda = [] ∧ State.reset.dec.ctl.state ≠ .busy ∧ State.reset.enc.ctl.state ≠ .busy) := by decide

theorem witness_PlacedOpcodeRunsNext : decodeTableWord 40 0x80030201FF = some (.rgba 1 2 3 128) := by decide

theorem witness_RunContinueRepeatsThePixel :
    (busyDec .readInput [] startPx 61 0 9).DecTurn [] ∧ (busyDec .readInput [] startPx 61 0 9).dec.run ≠ 0 :=
  ⟨⟨rfl, rfl, by decide⟩, by decide⟩

theorem witness_ExhaustedRegionRepeatsThePixel :
    let s := busyDec .fault [] startPx 0 0 9;
    s.DecTurn [] ∧ s.dec.run = 0 ∧ s.dec.chunkEnd ≤ s.dec.p := ⟨⟨rfl, rfl, by decide⟩, rfl, by decide⟩

/-- A pass in the middle, for the statements whose premise is one. -/
theorem busyDec_pass :
    let s := busyDec .readInput [0xFF, 1, 2] startPx 0 0 2;
    DecPass s.cfg.hashW s.dec :=
  ⟨by decide, by decide, by decide, by decide, by decide, ⟨by decide, by decide, by decide⟩, by decide, by decide, by decide,
    by decide, by decide, fun k => .inl (Cache.lookup_clear k)⟩

theorem witness_FetchesStayInsideTheInput :
    let s := busyDec .readInput [0xFF, 1, 2] startPx 0 0 2;
    DecPass s.cfg.hashW s.dec ∧ s.dec.run = 0 ∧ s.dec.p < s.dec.chunkEnd := ⟨busyDec_pass, rfl, by decide⟩

theorem witness_ZeroPaddingMakesReadInputAndZeroAgree :
    let s := busyDec .readInput [0xFF, 1, 2] startPx 0 0 2;
    DecPass s.cfg.hashW s.dec ∧ s.cfg.operandPastChunk = .readInput ∧
    (∀ a, s.dec.chunkEnd.toNat ≤ a → a < s.dec.chunkEnd.toNat + 4 → Memory.read s.decIn a = 0) := by
  refine ⟨busyDec_pass, rfl, fun a h1 h2 => ?_⟩
  have h1 : 17 ≤ a := h1
  have h2 : a < 21 := h2
  interval_cases a <;> rfl

theorem witness_ChannelCountDoesNotChangeDecoding :
    ∃ t, (busyDec .fault [0xFF, 1, 2] startPx 0 0 2).slotStep = .next t := ⟨_, rfl⟩

theorem witness_PassEndsAfterExactlyItsSlots :
    let s := { busyDec .zero [0x5A] startPx 0 0 1 with agenda := [] };
    s.agenda = [] ∧ s.dec.ctl.state = .busy ∧ s.dec.i < s.dec.n ∧ s.cfg.operandPastChunk ≠ .fault := by decide

/-- A last slot, an overrun, an ABORT: one step of each, from a BUSY pass to its end. -/
theorem witness_OnlyThreeEventsEndADecoderPass :
    (after (step (busyDec .fault [0x5A] startPx 0 0 1)) (fun t => t.dec.ctl.state) = some .done) ∧
    (after (step (busyDec .fault [0xFE] startPx 0 0 1)) (fun t => t.dec.ctl.state) = some .error) ∧
    (after (step { busyDec .fault [0x5A] startPx 0 0 1 with agenda := [.host (.writeReg .dec 0 2)] })
      (fun t => t.dec.ctl.state) = some .aborted) := by decide

/-- An idle decoder whose input is a header and whose next event is START. -/
def startDec (size : Word) (bs : List Byte) : State :=
  { asked (.writeReg .dec 0 1) with decIn := bytesAt 0 bs, dec := { Dec.reset with inSize := size } }

/-- The least and the greatest dimensions that pass, and both channel counts. -/
theorem witness_AcceptedHeaderStartsThePass :
    let s := startDec 22 (headerOf 1 399999999 3 0)
    let t := startDec 0xFFFFFFFF (headerOf 200000000 1 4 255);
    (s.StartNext .dec [] ∧ 22 ≤ s.dec.inSize.toNat ∧ s.HeaderAt 1 399999999 3 0 ∧ DimsAccepted 1 399999999) ∧
    (t.StartNext .dec [] ∧ 22 ≤ t.dec.inSize.toNat ∧ t.HeaderAt 200000000 1 4 255 ∧ DimsAccepted 200000000 1) :=
  ⟨⟨⟨rfl, by decide⟩, by decide, by unfold State.HeaderAt; decide, by decide, by decide, by decide⟩,
    ⟨rfl, by decide⟩, by decide, by unfold State.HeaderAt; decide, by decide, by decide, by decide⟩

/-- One input for each check, at the boundary of its range. -/
theorem witness_RejectedHeaderReportsTheFirstFailingCheck :
    ((startDec 21 []).StartNext .dec [] ∧ (startDec 21 []).dec.inSize.toNat < 22) ∧
    (22 ≤ (startDec 22 [0x71, 0x6F, 0x69]).dec.inSize.toNat ∧ Memory.read (startDec 22 [0x71, 0x6F, 0x69]).decIn 3 ≠ 0x66) ∧
    (startDec 22 (headerOf 0 1 3 0)).HeaderAt 0 1 3 0 ∧ (startDec 22 (headerOf 1 0 3 0)).HeaderAt 1 0 3 0 ∧
    ((startDec 22 (headerOf 1 1 2 0)).HeaderAt 1 1 2 0 ∧ (2#8).toNat < 3) ∧
    ((startDec 22 (headerOf 1 1 5 0)).HeaderAt 1 1 5 0 ∧ 4 < (5#8).toNat) ∧
    ((startDec 22 (headerOf 1 400000000 4 0)).HeaderAt 1 400000000 4 0 ∧
      400000000 / (1#32).toNat ≤ (400000000#32).toNat) := by
  unfold State.HeaderAt
  exact ⟨⟨⟨rfl, by decide⟩, by decide⟩, by decide, by decide, by decide, by decide, by decide, by decide⟩

theorem witness_AcceptedDimensionsAreBounded : DimsAccepted 1 399999999 ∧ DimsAccepted 200000000 1 :=
  ⟨⟨by decide, by decide, by decide⟩, by decide, by decide, by decide⟩

theorem witness_RunPixelIsCounted :
    let s := busyEnc startPx startPx 60 0 2;
    s.EncTurn [] ∧ s.enc.i < s.enc.n ∧ s.enc.i + 1 ≠ s.enc.n ∧ s.enc.run.toNat ≤ 60 ∧
    Memory.readPixel s.encPix s.enc.i.toNat = s.enc.pxPrev :=
  ⟨⟨rfl, rfl⟩, by decide, by decide, by decide, by decide⟩

/-- The limit, and the last pixel with no run before it. -/
theorem witness_RunIsFlushedAtTheLimitAndAtTheEnd :
    let s := busyEnc startPx startPx 61 0 9
    let t := busyEnc startPx startPx 0 8 9;
    (s.EncTurn [] ∧ s.EncRoom ∧ s.enc.i < s.enc.n ∧ s.enc.run.toNat = 61 ∧
      Memory.readPixel s.encPix s.enc.i.toNat = s.enc.pxPrev) ∧
    (t.EncTurn [] ∧ t.EncRoom ∧ t.enc.i < t.enc.n ∧ t.enc.run.toNat ≤ 61 ∧ t.enc.i + 1 = t.enc.n ∧
      Memory.readPixel t.encPix t.enc.i.toNat = t.enc.pxPrev) := by
  unfold State.EncRoom
  exact ⟨⟨⟨rfl, rfl⟩, by decide, by decide, by decide, by decide⟩, ⟨rfl, rfl⟩, by decide, by decide, by decide,
    by decide, by decide⟩

theorem witness_CacheHitEmitsIndex :
    let s := caching (busyEnc ⟨1, 2, 3, 4⟩ startPx 7 0 2) ⟨1, 2, 3, 4⟩
    let px := Memory.readPixel s.encPix s.enc.i.toNat;
    s.EncTurn [] ∧ s.EncRoom ∧ s.enc.i < s.enc.n ∧ px ≠ s.enc.pxPrev ∧
    Cache.lookup s.enc.cache (slotOf s.cfg.hashW px) = px := by
  unfold State.EncRoom
  exact ⟨⟨rfl, rfl⟩, by decide, by decide, by decide, by decide⟩

theorem witness_AlphaChangeEmitsRgba :
    let s := busyEnc ⟨0, 0, 0, 254⟩ startPx 7 0 2
    let px := Memory.readPixel s.encPix s.enc.i.toNat;
    s.EncTurn [] ∧ s.EncRoom ∧ s.enc.i < s.enc.n ∧ px.a ≠ s.enc.pxPrev.a ∧
    Cache.lookup s.enc.cache (slotOf s.cfg.hashW px) ≠ px := by
  unfold State.EncRoom
  exact ⟨⟨rfl, rfl⟩, by decide, by decide, by decide, by decide⟩

/-- What the three clauses of the delta forms ask of a pixel. -/
def missedDelta (px : Pixel) : Prop :=
  let s := busyEnc px startPx 0 0 2
  let q := Memory.readPixel s.encPix s.enc.i.toNat;
  s.EncTurn [] ∧ s.EncRoom ∧ s.enc.i < s.enc.n ∧ q ≠ s.enc.pxPrev ∧ q.a = s.enc.pxPrev.a ∧
  Cache.lookup s.enc.cache (slotOf s.cfg.hashW q) ≠ q

/-- DIFF at its lowest deltas, LUMA at its lowest and just past DIFF, RGB just past LUMA. -/
theorem witness_CheapestFittingDeltaIsEmitted :
    (missedDelta ⟨254, 254, 254, 255⟩ ∧ (deltasOf ⟨254, 254, 254, 255⟩ startPx).diffFits = true) ∧
    (missedDelta ⟨216, 224, 216, 255⟩ ∧ (deltasOf ⟨216, 224, 216, 255⟩ startPx).diffFits = false ∧
      (deltasOf ⟨216, 224, 216, 255⟩ startPx).lumaFits = true) ∧
    (missedDelta ⟨2, 2, 2, 255⟩ ∧ (deltasOf ⟨2, 2, 2, 255⟩ startPx).diffFits = false ∧
      (deltasOf ⟨2, 2, 2, 255⟩ startPx).lumaFits = true) ∧
    (missedDelta ⟨39, 31, 38, 255⟩ ∧ (deltasOf ⟨39, 31, 38, 255⟩ startPx).diffFits = false ∧
      (deltasOf ⟨39, 31, 38, 255⟩ startPx).lumaFits = false) := by
  unfold missedDelta State.EncRoom
  exact ⟨⟨⟨⟨rfl, rfl⟩, by decide⟩, by decide⟩, ⟨⟨⟨rfl, rfl⟩, by decide⟩, by decide⟩,
    ⟨⟨⟨rfl, rfl⟩, by decide⟩, by decide⟩, ⟨⟨rfl, rfl⟩, by decide⟩, by decide⟩

theorem witness_DeltaWrapNeverChangesTheLumaDecision :
    -32 ≤ (deltasOf ⟨127, 224, 128, 0⟩ zeroPx).vg ∧ (deltasOf ⟨127, 31, 128, 0⟩ zeroPx).vg ≤ 31 := by decide

theorem witness_PaddingEndsTheEncoderPass :
    let s := busyEnc startPx startPx 0 2 2;
    s.EncTurn [] ∧ s.EncRoom ∧ s.enc.i = s.enc.n := by
  unfold State.EncRoom
  exact ⟨⟨rfl, rfl⟩, by decide, rfl⟩

/-- An idle encoder with these registers, whose next event is START. -/
def startEnc (w h : Word) (ch cs : Byte) (len : Word) : State :=
  { asked (.writeReg .enc 0 1) with
    enc := { Enc.reset with width := w, height := h, channels := ch, colorspace := cs, pixLen := len } }

theorem witness_EncoderStartEmitsTheHeader :
    (startEnc 1 399999999 3 1 399999999).StartNext .enc [] ∧ EncReady (startEnc 1 399999999 3 1 399999999).enc ∧
    EncReady (startEnc 200000000 1 4 0 200000000).enc :=
  ⟨⟨rfl, by decide⟩, ⟨⟨by decide, by decide, by decide⟩, by decide, by decide, by decide⟩,
    ⟨by decide, by decide, by decide⟩, by decide, by decide, by decide⟩

/-- Registers for each precondition that fails first. -/
theorem witness_FirstFailingPreconditionEndsTheEncoderPass :
    (startEnc 0 0 0 9 1).StartNext .enc [] ∧ (startEnc 0 0 0 9 1).enc.width = 0 ∧
    ((startEnc 1 0 0 9 1).enc.width ≠ 0 ∧ (startEnc 1 0 0 9 1).enc.height = 0) ∧
    ¬((startEnc 1 1 2 9 1).enc.channels = 3 ∨ (startEnc 1 1 2 9 1).enc.channels = 4) ∧
    ¬((startEnc 1 400000000 3 9 1).enc.height.toNat < 400000000 / (startEnc 1 400000000 3 9 1).enc.width.toNat) ∧
    ¬((startEnc 1 1 4 2 1).enc.colorspace = 0 ∨ (startEnc 1 1 4 2 1).enc.colorspace = 1) ∧
    (startEnc 2 2 4 1 5).enc.pixLen.toNat ≠ (startEnc 2 2 4 1 5).enc.width.toNat * (startEnc 2 2 4 1 5).enc.height.toNat :=
  ⟨⟨rfl, by decide⟩, by decide, by decide, by decide, by decide, by decide, by decide⟩

theorem witness_EncoderPassEndsWithinItsSizeBounds :
    let s := startEnc 2 2 4 1 4;
    s.StartNext .enc [] ∧ s.dec.ctl.state ≠ .busy ∧ EncReady s.enc :=
  ⟨⟨rfl, by decide⟩, by decide, ⟨by decide, by decide, by decide⟩, by decide, by decide, by decide⟩

theorem witness_SelectedOpcodeReproducesThePixel :
    let s := busyDec .readInput [] ⟨1, 2, 3, 4⟩ 0 0 1;
    startPx ≠ s.dec.px ∧ s.OperandsReadable 4 ∧ zeroPx ≠ s.dec.px ∧
    Cache.lookup s.dec.cache (slotOf s.cfg.hashW zeroPx) = zeroPx :=
  ⟨by decide, .inl (by decide), by decide, by decide⟩

theorem witness_DecodingAnEncodedImageGivesItsPixelsBack :
    let s := startEnc 2 2 4 1 4;
    s.StartNext .enc [] ∧ s.dec.ctl.state ≠ .busy ∧ EncReady s.enc ∧ s.cfg.hashW.wa % 64 ≠ 0 :=
  ⟨⟨rfl, by decide⟩, by decide, ⟨⟨by decide, by decide, by decide⟩, by decide, by decide, by decide⟩, by decide⟩

/-- Each engine BUSY, with START, or a write to its first and last RW register, next. -/
theorem witness_BusyEngineAdmitsNoStartAndIgnoresWrites :
    let d (op : HostOp) := { busyDec .fault [0x5A] startPx 0 0 1 with agenda := [.host op] }
    let e (op : HostOp) := { busyEnc startPx startPx 0 0 1 with agenda := [.host op] };
    (d (.writeReg .dec 0 1)).dec.ctl.state = .busy ∧ (d (.writeReg .dec 2 7)).dec.ctl.state = .busy ∧
    (e (.writeReg .enc 0 1)).enc.ctl.state = .busy ∧ (e (.writeReg .enc 6 7)).enc.ctl.state = .busy := by decide

/-- Commands 1, 2, 0 and 3, to an idle and to a BUSY engine. -/
theorem witness_DecoderCommandsStartAndAbort :
    let b (v : Word) := { busyDec .fault [0x5A] startPx 0 0 1 with agenda := [.host (.writeReg .dec 0 v)] };
    (asked (.writeReg .dec 0 1)).dec.ctl.state ≠ .busy ∧ (b 1).dec.ctl.state = .busy ∧ (b 2).dec.ctl.state = .busy ∧
    (asked (.writeReg .dec 0 2)).dec.ctl.state ≠ .busy ∧ (0#32 ≠ 1 ∧ 0#32 ≠ 2) ∧ (3#32 ≠ 1 ∧ 3#32 ≠ 2 ∧ (3#32).toNat < 256) ∧
    (b 2).agenda = [.host (.writeReg .dec 0 2)] := by decide

theorem witness_EncoderCommandsStartAndAbort :
    let b (v : Word) := { busyEnc startPx startPx 0 0 1 with agenda := [.host (.writeReg .enc 0 v)] };
    (asked (.writeReg .enc 0 1)).enc.ctl.state ≠ .busy ∧ (b 1).enc.ctl.state = .busy ∧ (b 2).enc.ctl.state = .busy ∧
    (asked (.writeReg .enc 0 2)).enc.ctl.state ≠ .busy ∧ (255#32 ≠ 1 ∧ 255#32 ≠ 2 ∧ (255#32).toNat < 256) ∧
    (b 2).agenda = [.host (.writeReg .enc 0 2)] := by decide

/-- Each register number at the ends of the clauses, the engine not BUSY. -/
theorem witness_HostWritesReachOnlyTheRwRegisters :
    (asked (.writeReg .dec 2 9)).dec.ctl.state ≠ .busy ∧ (asked (.writeReg .dec 1 9)).dec.ctl.state ≠ .busy ∧
    (asked (.writeReg .enc 2 9)).enc.ctl.state ≠ .busy ∧ (asked (.writeReg .enc 3 9)).enc.ctl.state ≠ .busy ∧
    (asked (.writeReg .enc 4 9)).enc.ctl.state ≠ .busy ∧ (255#32).toNat = (255#8).toNat ∧
    (asked (.writeReg .enc 1 9)).enc.ctl.state ≠ .busy ∧ (asked (.writeReg .enc 7 9)).enc.ctl.state ≠ .busy := by decide

theorem witness_StatusWordHoldsStateAndCause :
    (asked (.readReg .dec 1)).agenda = [.host (.readReg .dec 1)] ∧
    (asked (.readReg .enc 1)).agenda = [.host (.readReg .enc 1)] := by decide

/-- The same machine in the middle of a pass, asked for a register. -/
def askedInPass (s : State) (op : HostOp) : State := { s with agenda := [.host op] }

/-- The numbers 0 and 9, the first and last readable register of each bank while not BUSY, and while BUSY the ends of the RW and of
the read-only numbers. -/
theorem witness_RegisterReadsAnswerTheirValues :
    let d := askedInPass (busyDec .fault [0x5A] startPx 0 0 1)
    let e := askedInPass (busyEnc startPx startPx 0 0 1);
    (asked (.readReg .dec 0)).agenda = [.host (.readReg .dec 0)] ∧ (asked (.readReg .enc 9)).agenda = [.host (.readReg .enc 9)] ∧
    ((asked (.readReg .dec 2)).dec.ctl.state ≠ .busy ∧ 2 = 2 + 0) ∧
    ((asked (.readReg .dec 8)).dec.ctl.state ≠ .busy ∧ 8 = 2 + 6) ∧
    ((asked (.readReg .enc 2)).enc.ctl.state ≠ .busy ∧ (asked (.readReg .enc 8)).enc.ctl.state ≠ .busy) ∧
    ((d (.readReg .dec 2)).dec.ctl.state = .busy ∧ (d (.readReg .dec 2)).agenda = [.host (.readReg .dec 2)]) ∧
    ((d (.readReg .dec 3)).dec.ctl.state = .busy ∧ 3 = 2 + 1) ∧ (d (.readReg .dec 8)).dec.ctl.state = .busy ∧
    ((e (.readReg .enc 2)).enc.ctl.state = .busy ∧ (e (.readReg .enc 6)).enc.ctl.state = .busy) ∧
    ((e (.readReg .enc 7)).enc.ctl.state = .busy ∧ 7 = 2 + 5) := by decide

/-- `DEC_OUT_COUNT` read in the middle of a pass is the progress count (60_exceptions R213). -/
theorem test_out_count_read_while_busy :
    after (step (askedInPass (busyDec .fault [0x5A] startPx 0 1 3) (.readReg .dec 7))) (fun t => t.hostData) =
      some (.word 1) := by decide

/-- A finished and an unfinished output of each engine. -/
theorem witness_UnfinishedOutputsTellTheHostNothing :
    let d : State := { asked (.readPixel 0) with dec := { Dec.reset with ctl := ⟨.done, .none, 1, 0⟩ } }
    let e : State := { asked (.readByte 22) with enc := { Enc.reset with ctl := ⟨.done, .none, 23, 0⟩ } };
    (d.dec.ctl.state = .done ∧ 0#32 < d.dec.ctl.outCount) ∧ (asked (.readPixel 0)).dec.ctl.state ≠ .done ∧
    (e.enc.ctl.state = .done ∧ 22#32 < e.enc.ctl.outCount) ∧ (asked (.readByte 0)).enc.ctl.state ≠ .done := by decide

/-- A step of each BUSY engine; a host that would change each input, with the engine BUSY and not. -/
theorem witness_InputsAreFixedDuringAPass :
    (after (step (busyDec .fault [0x5A] startPx 0 0 1)) (fun t => t.dec.i) = some 1) ∧
    (after (step (busyEnc startPx startPx 0 0 1)) (fun t => t.enc.i) = some 1) ∧
    ({ busyDec .fault [0x5A] startPx 0 0 1 with agenda := [.host (.putByte 14 0)] } : State).dec.ctl.state = .busy ∧
    (asked (.putByte 0xFFFFFFFF 7)).dec.ctl.state ≠ .busy ∧
    ({ busyEnc startPx startPx 0 0 1 with agenda := [.host (.putPixel 0 zeroPx)] } : State).enc.ctl.state = .busy ∧
    (asked (.putPixel 399999999 zeroPx)).enc.ctl.state ≠ .busy := by decide

/-- A state in the middle of a decoder pass that meets the invariant. -/
theorem busyDec_inv : (busyDec .readInput [0xFF, 1, 2] startPx 0 0 2).Inv :=
  ⟨by decide, Memory.wf_nil, Memory.wf_nil, Memory.wf_nil,
    ⟨by decide, by decide, fun _ => busyDec_pass, by decide⟩,
    ⟨by decide, by decide, fun h => absurd h (by decide)⟩⟩

theorem witness_EveryStepKeepsTheInvariant :
    (busyDec .readInput [0xFF, 1, 2] startPx 0 0 2).Inv ∧
    ∃ t, step (busyDec .readInput [0xFF, 1, 2] startPx 0 0 2) = .next t := ⟨busyDec_inv, _, rfl⟩

theorem witness_EnginesNeverStopTheMachine :
    (busyDec .readInput [0xFF, 1, 2] startPx 0 0 2).Inv ∧
    ∀ op rest, (busyDec .readInput [0xFF, 1, 2] startPx 0 0 2).agenda ≠ .host op :: rest :=
  ⟨busyDec_inv, fun _ _ h => by cases h⟩

/-- Two machines that share one engine's part and nothing else. -/
theorem witness_EnginesDoNotInterfere :
    let s := busyDec .readInput [0x5A] startPx 0 0 1
    let s' : State := { s with enc := { Enc.reset with width := 7 }, encPix := [(0, 1)], freeCtr := 5 }
    let e := busyEnc startPx startPx 0 0 1
    let e' : State := { e with dec := { Dec.reset with width := 7 }, decIn := [(0, 1)], freeCtr := 5 };
    (s'.dec = s.dec ∧ s'.agenda = .turn .dec :: [] ∧ ∃ t, step s = .next t) ∧
    (e'.enc = e.enc ∧ e'.agenda = .turn .enc :: [] ∧ ∃ t, step e = .next t) :=
  ⟨⟨rfl, rfl, _, rfl⟩, rfl, rfl, _, rfl⟩

/-- Neither engine BUSY, and the next event a write that is no START. -/
theorem witness_OnlyStartLeavesAnEndedPass :
    (after (step (asked (.writeReg .enc 3 9))) (fun t => t.enc.width) = some 9) ∧
    (asked (.writeReg .enc 3 9)).dec.ctl.state ≠ .busy ∧ (asked (.writeReg .enc 3 9)).enc.ctl.state ≠ .busy ∧
    (∀ e v rest, (asked (.writeReg .enc 3 9)).agenda ≠ .host (.writeReg e 0 v) :: rest) :=
  ⟨by decide, by decide, by decide, fun _ _ _ h => by cases h⟩

theorem witness_ParametersNeverChange : ∃ t, step State.reset = .next t := ⟨_, rfl⟩

end Sys2Proof.Tests
end

section
/-! The state after power-on (10_state R42), field by field: the registers R42 gives a value. -/

namespace Sys2Proof.Machine

/-! ### The status registers, the same in both banks -/

section CtlReset
variable {κ : Type} (none : κ)

@[simp] theorem Ctl.reset_state : (Ctl.reset none).state = .idle := rfl
@[simp] theorem Ctl.reset_cause : (Ctl.reset none).cause = none := rfl
@[simp] theorem Ctl.reset_outCount : (Ctl.reset none).outCount = 0 := rfl
@[simp] theorem Ctl.reset_errInfo : (Ctl.reset none).errInfo = 0 := rfl

end CtlReset

/-! ### The engines -/

@[simp] theorem State.reset_dec : State.reset.dec = Dec.reset := rfl
@[simp] theorem State.reset_enc : State.reset.enc = Enc.reset := rfl
@[simp] theorem Dec.reset_ctl : Dec.reset.ctl = Ctl.reset .none := rfl
@[simp] theorem Enc.reset_ctl : Enc.reset.ctl = Ctl.reset .none := rfl

/-- The descriptor DEC publishes is zero until a header is parsed (R42). -/
theorem Dec.reset_descriptor :
    Dec.reset.width = 0 ∧ Dec.reset.height = 0 ∧ Dec.reset.channels = 0 ∧ Dec.reset.colorspace = 0 :=
  ⟨rfl, rfl, rfl, rfl⟩

/-- Settles O50: the status of both banks is `Ctl.reset`, whose fields are the values of R42; the descriptor is DEC's own. -/
theorem resetLeavesBothEnginesIdle : Obligations.ResetLeavesBothEnginesIdle := by
  unfold Obligations.ResetLeavesBothEnginesIdle
  simp only [State.reset_dec, State.reset_enc, Dec.reset_ctl, Enc.reset_ctl, Ctl.reset_state, Ctl.reset_cause,
    Ctl.reset_outCount, Ctl.reset_errInfo, true_and]
  exact Dec.reset_descriptor

end Sys2Proof.Machine
end

section
/-! The hash and the cache (40_hash_cache R101, R104 to R107): the slot as a number, and what the cache operations read back. -/

namespace Sys2Proof.Machine

/-- A pixel just written hits: its slot now holds it (40_hash_cache R105, R106). -/
@[simp] theorem Cache.hit_update_same (c : Cache) (w : Weights) (px : Pixel) :
    Cache.hit (Cache.update c w px) w px = true :=
  (Cache.hit_iff _ w px).mpr (Cache.lookup_update_same c w px)

/-- Settles O27: the sum is already reduced modulo 64, so the 6-bit slot loses nothing of it. -/
theorem slotIsTheWeightedSumModulo64 : Obligations.SlotIsTheWeightedSumModulo64 := by
  unfold Obligations.SlotIsTheWeightedSumModulo64
  exact slotOf_toNat

/-- Settles O28: one law of the cache per clause, UPDATE and LOOKUP, HIT, HIT after UPDATE, and CLEAR. -/
theorem cacheOperationsReadBackWhatWasWritten : Obligations.CacheOperationsReadBackWhatWasWritten := by
  unfold Obligations.CacheOperationsReadBackWhatWasWritten
  intro c w px k
  exact ⟨Cache.lookup_update c w px k, Cache.hit_iff c w px, Cache.hit_update_same c w px, Cache.lookup_clear k⟩

end Sys2Proof.Machine
end

section
/-! The header read by START of DEC (41_header R120 to R131, 70 R230): what is read, which check fails first, and the state that
START leaves on an accepted and on a rejected header. -/

namespace Sys2Proof.Machine

/-! ### What START reads -/

/-- Inside the input, `IN` is the byte of the data space (20_memory R51). -/
theorem State.inByte_of_lt (s : State) {k : Nat} (hk : k < s.dec.size.toNat) :
    s.inByte (BitVec.ofNat 32 k) = Memory.read s.decIn k := by
  have e : (BitVec.ofNat 32 k).toNat = k := by
    rw [BitVec.toNat_ofNat]
    exact Nat.mod_eq_of_lt (hk.trans s.dec.size.isLt)
  unfold State.inByte
  rw [if_pos (by rwa [BitVec.lt_def, e]), e]

/-- The magic of the header is the format's exactly when its four bytes are (41_header R123). -/
theorem State.readHeader_magic_iff (s : State) (hs : 4 ≤ s.dec.size.toNat) :
    s.readHeader.magic = magicWord ↔
      ∀ k, k < 4 → Memory.read s.decIn k = [0x71, 0x6F, 0x69, 0x66].getD k 0 := by
  have hr : s.readHeader.magic =
      ofBigEndian (Memory.read s.decIn 0) (Memory.read s.decIn 1) (Memory.read s.decIn 2) (Memory.read s.decIn 3) := by
    rw [← s.inByte_of_lt (k := 0) (by omega), ← s.inByte_of_lt (k := 1) (by omega), ← s.inByte_of_lt (k := 2) (by omega),
      ← s.inByte_of_lt (k := 3) (by omega)]
    rfl
  have hm : magicWord = ofBigEndian 0x71 0x6F 0x69 0x66 := by decide
  rw [hr, hm]
  constructor
  · intro h k hk
    obtain ⟨h0, h1, h2, h3⟩ := ofBigEndian_inj h
    match k, hk with
    | 0, _ => exact h0
    | 1, _ => exact h1
    | 2, _ => exact h2
    | 3, _ => exact h3
  · intro h
    rw [h 0 (by omega), h 1 (by omega), h 2 (by omega), h 3 (by omega)]
    rfl

/-- START latches `SIZE` and reads the header under it (70 R230, 41_header R122). -/
theorem State.beginDec_readHeader (s : State) (w h : Word) (ch cs : Byte) (hs : 22 ≤ s.dec.inSize.toNat)
    (hb : s.HeaderAt w h ch cs) : s.beginDec.readHeader = ⟨magicWord, w, h, ch, cs⟩ :=
  s.beginDec.readHeader_of_bytes w h ch cs hs hb

/-! ### The first failing check -/

section HeaderCause
variable {size : Word} {h : Header}

/-- The SHORT check passes (41_header R121). -/
theorem not_lt_22 (hs : 22 ≤ size.toNat) : ¬ size < 22 := by
  rw [BitVec.lt_def]
  exact not_lt.mpr hs

theorem headerCause_short (hs : size.toNat < 22) : headerCause size h = .short :=
  if_pos (BitVec.lt_def.mpr hs)

theorem headerCause_magic (hs : 22 ≤ size.toNat) (hm : h.magic ≠ magicWord) : headerCause size h = .magic := by
  rw [headerCause, if_neg (not_lt_22 hs), if_pos hm]

variable (hs : 22 ≤ size.toNat) (hm : h.magic = magicWord)
include hs hm

theorem headerCause_width0 (hw : h.width = 0) : headerCause size h = .width0 := by
  rw [headerCause, if_neg (not_lt_22 hs), if_neg (not_not.mpr hm), if_pos hw]

theorem headerCause_height0 (hw : h.width ≠ 0) (hh : h.height = 0) : headerCause size h = .height0 := by
  rw [headerCause, if_neg (not_lt_22 hs), if_neg (not_not.mpr hm), if_neg hw, if_pos hh]

theorem headerCause_channels (hw : h.width ≠ 0) (hh : h.height ≠ 0)
    (hc : h.channels.toNat < 3 ∨ 4 < h.channels.toNat) : headerCause size h = .channels := by
  have hc' : h.channels < 3 ∨ 4 < h.channels := hc
  rw [headerCause, if_neg (not_lt_22 hs), if_neg (not_not.mpr hm), if_neg hw, if_neg hh, if_pos hc']

theorem headerCause_dims (hw : h.width ≠ 0) (hh : h.height ≠ 0) (hc : h.channels = 3 ∨ h.channels = 4)
    (hd : pixelsMax / h.width.toNat ≤ h.height.toNat) : headerCause size h = .dims := by
  have hc' : ¬ (h.channels < 3 ∨ 4 < h.channels) := by rcases hc with e | e <;> rw [e] <;> decide
  have hd' : dimsTooLarge h.width h.height = true := decide_eq_true hd
  rw [headerCause, if_neg (not_lt_22 hs), if_neg (not_not.mpr hm), if_neg hw, if_neg hh, if_neg hc', if_pos hd']

end HeaderCause

/-! ### The state START of DEC leaves -/

section Accept
variable (d : Dec) (h : Header)

@[simp] theorem Dec.accept_ctl : (d.accept h).ctl = d.ctl := rfl
@[simp] theorem Dec.accept_inSize : (d.accept h).inSize = d.inSize := rfl
@[simp] theorem Dec.accept_width : (d.accept h).width = h.width := rfl
@[simp] theorem Dec.accept_height : (d.accept h).height = h.height := rfl
@[simp] theorem Dec.accept_channels : (d.accept h).channels = h.channels := rfl
@[simp] theorem Dec.accept_colorspace : (d.accept h).colorspace = h.colorspace := rfl
@[simp] theorem Dec.accept_size : (d.accept h).size = d.size := rfl
@[simp] theorem Dec.accept_px : (d.accept h).px = d.px := rfl
@[simp] theorem Dec.accept_run : (d.accept h).run = d.run := rfl
@[simp] theorem Dec.accept_p : (d.accept h).p = 14 := rfl
@[simp] theorem Dec.accept_i : (d.accept h).i = 0 := rfl
@[simp] theorem Dec.accept_n : (d.accept h).n = h.width * h.height := rfl
@[simp] theorem Dec.accept_chunkEnd : (d.accept h).chunkEnd = d.size - 8 := rfl
@[simp] theorem Dec.accept_cache : (d.accept h).cache = d.cache := rfl

end Accept

section BeginDec
variable (s : State)

@[simp] theorem State.beginDec_dec_ctl : s.beginDec.dec.ctl = Ctl.start .none := rfl
@[simp] theorem State.beginDec_dec_inSize : s.beginDec.dec.inSize = s.dec.inSize := rfl
@[simp] theorem State.beginDec_dec_width : s.beginDec.dec.width = s.dec.width := rfl
@[simp] theorem State.beginDec_dec_height : s.beginDec.dec.height = s.dec.height := rfl
@[simp] theorem State.beginDec_dec_channels : s.beginDec.dec.channels = s.dec.channels := rfl
@[simp] theorem State.beginDec_dec_colorspace : s.beginDec.dec.colorspace = s.dec.colorspace := rfl
@[simp] theorem State.beginDec_dec_size : s.beginDec.dec.size = s.dec.inSize := rfl
@[simp] theorem State.beginDec_dec_px : s.beginDec.dec.px = startPx := rfl
@[simp] theorem State.beginDec_dec_run : s.beginDec.dec.run = 0 := rfl
@[simp] theorem State.beginDec_dec_cache : s.beginDec.dec.cache = Cache.clear := rfl

end BeginDec

section StartDec
variable {s : State} {rest : List Event} (hn : s.StartNext .dec rest)
include hn

/-- START on a header that passes every check (41_header R129). -/
theorem State.StartNext.step_dec_accepts (hc : headerCause s.dec.inSize s.beginDec.readHeader = .none) :
    ∃ t, step s = .next t ∧ t.agenda = rest ∧ t.dec = s.beginDec.dec.accept s.beginDec.readHeader ∧ DecOnly s t := by
  rcases State.decStart_cases { s with agenda := rest } with ⟨-, e⟩ | ⟨hr, -⟩
  · exact ⟨_, hn.step_dec.trans (congrArg _ e), rfl, rfl, rfl, rfl, rfl, rfl, rfl, rfl, rfl⟩
  · exact absurd hc hr

/-- START on a header that fails a check (41_header R130, 60_exceptions R202). -/
theorem State.StartNext.step_dec_rejects {cause : DecCause}
    (hc : headerCause s.dec.inSize s.beginDec.readHeader = cause) (hne : cause ≠ .none) :
    ∃ t, step s = .next t ∧ t.agenda = rest ∧ t.dec = s.beginDec.dec.setCtl ⟨.error, cause, 0, 0⟩ ∧ DecOnly s t := by
  subst hc
  rcases State.decStart_cases { s with agenda := rest } with ⟨ha, -⟩ | ⟨-, e⟩
  · exact absurd ha hne
  · exact ⟨_, hn.step_dec.trans (congrArg _ e), rfl, rfl, rfl, rfl, rfl, rfl, rfl, rfl, rfl⟩

end StartDec

/-- Settles O24: the header reads back as its fields, so no check fails and START leaves `beginDec` with the acceptance of
R129; the product of accepted dimensions does not wrap (R132). -/
theorem acceptedHeaderStartsThePass : Obligations.AcceptedHeaderStartsThePass := by
  unfold Obligations.AcceptedHeaderStartsThePass
  intro s rest w h ch cs hn hs hb hd hch
  have hr := s.beginDec_readHeader w h ch cs hs hb
  have hc : headerCause s.dec.inSize s.beginDec.readHeader = .none := by
    rw [hr, headerCause_none_iff]
    exact ⟨hs, rfl, hd, hch⟩
  have hsub : (s.dec.inSize - 8#32).toNat = s.dec.inSize.toNat - 8 :=
    BitVec.toNat_sub_of_le (BitVec.le_def.mpr ((by decide : (8#32).toNat ≤ 22).trans hs))
  obtain ⟨hmul, -, -⟩ := hd.bounds
  obtain ⟨t, hstep, hag, hdec, honly⟩ := hn.step_dec_accepts hc
  rw [hr] at hdec
  refine ⟨t, hstep, hag, ?_⟩
  simp [-BitVec.toNat_sub, hdec, hmul, hsub, honly, startPx, zeroPx]

/-- Settles O25: one cause of `headerCause` per clause, the magic's bytes read as its word, and what START leaves on a rejected
header. -/
theorem rejectedHeaderReportsTheFirstFailingCheck : Obligations.RejectedHeaderReportsTheFirstFailingCheck := by
  unfold Obligations.RejectedHeaderReportsTheFirstFailingCheck
  intro s rest w h ch cs hn rejected size
  have rejects {cause : DecCause} (hc : headerCause s.dec.inSize s.beginDec.readHeader = cause) (hne : cause ≠ .none) :
      rejected cause := by
    obtain ⟨t, hstep, hag, hdec, honly⟩ := hn.step_dec_rejects hc hne
    refine ⟨t, hstep, hag, ?_⟩
    simp [hdec, honly]
  refine ⟨fun hs => rejects (headerCause_short hs) nofun, fun hs ⟨k, hk, hne⟩ => ?_, fun hs hb => ?_⟩
  · have hm : s.beginDec.readHeader.magic ≠ magicWord := fun e =>
      hne ((s.beginDec.readHeader_magic_iff (le_trans (by decide) hs)).mp e k hk)
    exact rejects (headerCause_magic hs hm) nofun
  · rw [s.beginDec_readHeader w h ch cs hs hb] at rejects
    exact ⟨fun hw => rejects (headerCause_width0 hs rfl hw) nofun,
      fun hw hh => rejects (headerCause_height0 hs rfl hw hh) nofun,
      fun hw hh hc => rejects (headerCause_channels hs rfl hw hh hc) nofun,
      fun hw hh hc hd => rejects (headerCause_dims hs rfl hw hh hc hd) nofun⟩

end Sys2Proof.Machine
end

section
/-! START of ENC with every precondition met (41_header R133, 70 R231): the bytes of a header, and the state that START leaves. -/

namespace Sys2Proof.Machine

/-! ### The bytes of a header -/

/-- Byte `k` of a big-endian word, as a number (20_memory R56). -/
theorem bigEndian_getD_toNat (w : Word) {k : Nat} (hk : k < 4) :
    ((bigEndian w).getD k 0).toNat = w.toNat / 256 ^ (3 - k) % 256 := by
  match k, hk with
  | 0, _ | 1, _ | 2, _ | 3, _ => simp [bigEndian, BitVec.extractLsb'_toNat, Nat.shiftRight_eq_div_pow]

section HeaderOf
variable (w h : Word) (ch cs : Byte) {k : Nat}

theorem headerOf_length : (headerOf w h ch cs).length = 14 := rfl

theorem headerOf_getD_magic (hk : k < 4) : (headerOf w h ch cs).getD k 0 = [0x71, 0x6F, 0x69, 0x66].getD k 0 := by
  match k, hk with
  | 0, _ | 1, _ | 2, _ | 3, _ => rfl

theorem headerOf_getD_width (hk : k < 4) : (headerOf w h ch cs).getD (4 + k) 0 = (bigEndian w).getD k 0 := by
  match k, hk with
  | 0, _ | 1, _ | 2, _ | 3, _ => rfl

theorem headerOf_getD_height (hk : k < 4) : (headerOf w h ch cs).getD (8 + k) 0 = (bigEndian h).getD k 0 := by
  match k, hk with
  | 0, _ | 1, _ | 2, _ | 3, _ => rfl

theorem headerOf_getD_channels : (headerOf w h ch cs).getD 12 0 = ch := rfl

theorem headerOf_getD_colorspace : (headerOf w h ch cs).getD 13 0 = cs := rfl

end HeaderOf

/-! ### The state START of ENC leaves -/

section Begin
variable (e : Enc)

@[simp] theorem Enc.begin_ctl : e.begin.ctl = e.ctl := rfl
@[simp] theorem Enc.begin_pixLen : e.begin.pixLen = e.pixLen := rfl
@[simp] theorem Enc.begin_width : e.begin.width = e.width := rfl
@[simp] theorem Enc.begin_height : e.begin.height = e.height := rfl
@[simp] theorem Enc.begin_channels : e.begin.channels = e.channels := rfl
@[simp] theorem Enc.begin_colorspace : e.begin.colorspace = e.colorspace := rfl
@[simp] theorem Enc.begin_px : e.begin.px = e.px := rfl
@[simp] theorem Enc.begin_pxPrev : e.begin.pxPrev = startPx := rfl
@[simp] theorem Enc.begin_run : e.begin.run = 0 := rfl
@[simp] theorem Enc.begin_i : e.begin.i = 0 := rfl
@[simp] theorem Enc.begin_n : e.begin.n = e.width * e.height := rfl
@[simp] theorem Enc.begin_cache : e.begin.cache = Cache.clear := rfl

end Begin

/-- The state in which START of ENC emits the header: nothing emitted, the pass's initial values (70 R231). -/
def State.encBegun (s : State) : State := s.beginEnc.setEnc s.beginEnc.enc.begin

@[simp] theorem State.encBegun_agenda (s : State) : s.encBegun.agenda = s.agenda := rfl
@[simp] theorem State.encBegun_outCount (s : State) : s.encBegun.enc.ctl.outCount = 0 := rfl

/-- START of ENC with every precondition met emits the header in the state it begins the pass in (41_header R133). -/
theorem State.encStart_of_ready (s : State) (hr : EncReady s.enc) :
    s.encStart = s.encBegun.emitBytes (headerOf s.enc.width s.enc.height s.enc.channels s.enc.colorspace) :=
  if_pos ((encCause_none_iff s.enc).mpr hr)

/-- START of ENC with every precondition met: ENC begins with the count of the header's bytes, and they are the stream. -/
theorem State.StartNext.step_enc_ready {s : State} {rest : List Event} (hn : s.StartNext .enc rest)
    (hr : EncReady s.enc) :
    ∃ t, step s = .next t ∧ t.agenda = rest ∧ t.enc = (s.enc.setCtl ⟨.busy, .none, 14, 0⟩).begin ∧
      (∀ k, k < 14 → Memory.read t.encBytes k =
        (headerOf s.enc.width s.enc.height s.enc.channels s.enc.colorspace).getD k 0) ∧ EncOnly s t := by
  have e := State.encStart_of_ready { s with agenda := rest } hr
  refine ⟨_, hn.step_enc.trans (congrArg _ e), by simp, ?_, fun k hk => ?_, ?_⟩
  · rw [State.emitBytes_enc, headerOf_length]
    rfl
  · rw [State.emitBytes_read _ _ _ (by simp [headerOf_length])]
    simp [headerOf_length, hk]
  · rw [State.emitBytes_eq]
    exact ⟨rfl, rfl, rfl, rfl, rfl, rfl, rfl⟩

/-- Settles O37: the stream holds `headerOf`, whose 14 bytes are those of R133, and ENC holds the initial values of R231; the
product of accepted dimensions does not wrap (R132). -/
theorem encoderStartEmitsTheHeader : Obligations.EncoderStartEmitsTheHeader := by
  unfold Obligations.EncoderStartEmitsTheHeader
  intro s rest hn hr
  obtain ⟨t, hstep, hag, henc, hbytes, honly⟩ := hn.step_enc_ready hr
  obtain ⟨hmul, -, -⟩ := hr.dims.bounds
  have hmagic : ∀ k, k < 4 → Memory.read t.encBytes k = [0x71, 0x6F, 0x69, 0x66].getD k 0 := fun k hk => by
    rw [hbytes k (by omega), headerOf_getD_magic _ _ _ _ hk]
  have hwidth : ∀ k, k < 4 → (Memory.read t.encBytes (4 + k)).toNat = s.enc.width.toNat / 256 ^ (3 - k) % 256 :=
    fun k hk => by rw [hbytes _ (by omega), headerOf_getD_width _ _ _ _ hk, bigEndian_getD_toNat _ hk]
  have hheight : ∀ k, k < 4 → (Memory.read t.encBytes (8 + k)).toNat = s.enc.height.toNat / 256 ^ (3 - k) % 256 :=
    fun k hk => by rw [hbytes _ (by omega), headerOf_getD_height _ _ _ _ hk, bigEndian_getD_toNat _ hk]
  have hchannels := (hbytes 12 (by omega)).trans (headerOf_getD_channels _ _ _ _)
  have hcolorspace := (hbytes 13 (by omega)).trans (headerOf_getD_colorspace _ _ _ _)
  refine ⟨t, hstep, hag, ?_⟩
  simpa [henc, hmul, startPx, zeroPx] using ⟨hmagic, hwidth, hheight, hchannels, hcolorspace, honly⟩

end Sys2Proof.Machine
end

section
/-! The opcodes of the decoder as bytes (30_encoding R73 to R75): the fields of a byte as numbers, and the opcode that the bytes
of the statements decode to. -/

namespace Sys2Proof

/-- A field of the byte of `z`, as the number it is (00_scope R9). -/
theorem field_ofInt {z : Int} (h0 : 0 ≤ z) (h1 : z < 256) (lo len : Nat) :
    (field (BitVec.ofInt 8 z) lo len : Int) = z / 2 ^ lo % 2 ^ len := by
  have hz : (BitVec.ofInt 8 z).toNat = z.toNat := by rw [BitVec.toNat_ofInt]; omega
  rw [field, BitVec.extractLsb'_toNat, hz, Nat.shiftRight_eq_div_pow]
  push_cast
  rw [Int.toNat_of_nonneg h0]

/-- A byte of class 01 is DIFF with its three biased fields (30_encoding R74). -/
theorem decode_diff_of_class (b : Byte) (h : field b 6 2 = 1) :
    decode [b] = .ok (.diff (unbias (field b 4 2) 2) (unbias (field b 2 2) 2) (unbias (field b 0 2) 2), []) := by
  revert b; decide

/-- A byte of class 10 and the one after it are LUMA with its three biased fields (30_encoding R75). -/
theorem decode_luma_of_class (b c : Byte) (h : field b 6 2 = 2) :
    decode [b, c] =
      .ok (.luma (unbias (field b 0 6) 32) (unbias (field c 4 4) 8) (unbias (field c 0 4) 8), []) := by
  have hb : b ≠ 0xFE#8 ∧ b ≠ 0xFF#8 := by constructor <;> (rintro rfl; exact absurd h (by decide))
  have hc : b.extractLsb' 6 2 = 2#2 := BitVec.eq_of_toNat_eq h
  simp [decode, decodeFrom, opcodeLength, hb, hc]

/-- The byte of DIFF decodes to its three deltas: the fields of the sum are the biased deltas (R78). -/
theorem decode_diff_byte {dr dg db : Int} (hr : -2 ≤ dr ∧ dr ≤ 1) (hg : -2 ≤ dg ∧ dg ≤ 1) (hb : -2 ≤ db ∧ db ≤ 1) :
    decode [BitVec.ofInt 8 (0x40 + 16 * (dr + 2) + 4 * (dg + 2) + (db + 2))] = .ok (.diff dr dg db, []) := by
  have hf := field_ofInt (z := 0x40 + 16 * (dr + 2) + 4 * (dg + 2) + (db + 2)) (by omega) (by omega)
  have hclass := hf 6 2
  rw [decode_diff_of_class _ (by omega)]
  simp only [unbias, hf]
  congr 3 <;> omega

/-- The bytes of LUMA decode to its three deltas: the fields of each sum are the biased deltas (R78). -/
theorem decode_luma_bytes {vg drdg dbdg : Int} (hg : -32 ≤ vg ∧ vg ≤ 31) (hr : -8 ≤ drdg ∧ drdg ≤ 7)
    (hb : -8 ≤ dbdg ∧ dbdg ≤ 7) :
    decode [BitVec.ofInt 8 (0x80 + (vg + 32)), BitVec.ofInt 8 (16 * (drdg + 8) + (dbdg + 8))] =
      .ok (.luma vg drdg dbdg, []) := by
  have hf := field_ofInt (z := 0x80 + (vg + 32)) (by omega) (by omega)
  have hf' := field_ofInt (z := 16 * (drdg + 8) + (dbdg + 8)) (by omega) (by omega)
  have hclass := hf 6 2
  rw [decode_luma_of_class _ _ (by omega)]
  simp only [unbias, hf, hf']
  congr 3 <;> omega

/-- The byte of INDEX is its slot (30_encoding R73). -/
theorem decode_index_byte (slot : SlotIx) : decode [BitVec.ofNat 8 slot.toNat] = .ok (.index slot, []) := by
  revert slot; decide

end Sys2Proof
end

section
/-! The slot step of an opcode (42_decoder R141 to R154): what a handler without operands and one with operands leaves, and the
opcodes' pixels. -/

namespace Sys2Proof.Machine

/-! ### The pixel -/

/-- `addDelta` is addition modulo 256 (00_scope R10). -/
theorem channelPlus_iff (c c' : Byte) (d : Int) : ChannelPlus c c' d ↔ c' = addDelta c d := by
  unfold ChannelPlus addDelta
  constructor
  · intro h
    apply BitVec.eq_of_toNat_eq
    rw [BitVec.toNat_ofInt]
    omega
  · rintro rfl
    rw [BitVec.toNat_ofInt]
    omega

/-- A pixel whose colour channels are `px`'s plus a delta each, and whose alpha is `px`'s, is what `addDiff` computes. -/
theorem Pixel.eq_addDiff {px px' : Pixel} {dr dg db : Int} (hr : ChannelPlus px.r px'.r dr)
    (hg : ChannelPlus px.g px'.g dg) (hb : ChannelPlus px.b px'.b db) (ha : px'.a = px.a) :
    px' = Pixel.addDiff dr dg db px := by
  rw [channelPlus_iff] at hr hg hb
  obtain ⟨r, g, b, a⟩ := px'
  simp only at hr hg hb ha
  rw [hr, hg, hb, ha]
  rfl

/-! ### The slot step -/

/-- A handler without operands that sets the pixel: one byte fetched, then the end of the slot step. -/
theorem State.fetched_setPx_done (s : State) (px : Pixel) :
    SlotDone s (s.fetched.setDec (s.fetched.dec.setPx px)).endSlot px 1 s.dec.run :=
  State.endSlot_done s _ px 1 _ rfl rfl rfl rfl rfl rfl rfl
    ⟨rfl, rfl, rfl, rfl, rfl, rfl, rfl, rfl⟩ ⟨rfl, rfl, rfl, rfl, rfl, rfl, rfl⟩

/-- A handler that took all its operands: one byte fetched for the opcode and one for each, then the end of the slot step. -/
theorem State.fetched_operandsTaken_done (s : State) (fs : List (Pixel → Pixel)) :
    SlotDone s (s.fetched.operandsTaken fs).endSlot (fs.foldl (fun px f => f px) s.dec.px) (1 + fs.length) s.dec.run := by
  rw [State.operandsTaken_eq]
  exact State.endSlot_done s _ _ _ _ rfl (s.fetched_operand _) rfl rfl rfl rfl rfl
    ⟨rfl, rfl, rfl, rfl, rfl, rfl, rfl, rfl⟩ ⟨rfl, rfl, rfl, rfl, rfl, rfl, rfl⟩

/-- A handler whose operand fetch `fs.length` raised `Overrun` after the operands `fs` were taken (60_exceptions R206, log 16). -/
theorem State.fetched_operandsTaken_overran (s : State) (fs : List (Pixel → Pixel)) :
    SlotOverran s
      ((s.fetched.operandsTaken fs).raiseDec .overrun (s.fetched.dec.p + BitVec.ofNat 32 fs.length))
      (s.dec.p + BitVec.ofNat 32 (1 + fs.length)) := by
  rw [State.operandsTaken_eq, State.fetched_operand]
  exact ⟨rfl, rfl, rfl, rfl, rfl, rfl, rfl, rfl, rfl,
    ⟨rfl, rfl, rfl, rfl, rfl, rfl, rfl, rfl⟩, ⟨rfl, rfl, rfl, rfl, rfl, rfl, rfl⟩⟩

/-- A fetch overruns exactly under FAULT at or past `CHUNK_END` (42_decoder R143). -/
theorem State.overruns_iff (s : State) (k : Word) :
    s.overruns k = true ↔ s.cfg.operandPastChunk = .fault ∧ s.dec.chunkEnd ≤ k := by
  simp [State.overruns]

/-- Before `CHUNK_END` no fetch overruns. -/
theorem State.overruns_of_lt (s : State) {k : Word} (h : k < s.dec.chunkEnd) : s.overruns k = false := by
  rw [← Bool.not_eq_true, State.overruns_iff]
  exact fun ⟨_, hle⟩ => BitVec.not_lt.mpr hle h

/-- Readable operands raise nothing: the policy is not FAULT, or every fetch lies in the region, whose offsets do not wrap. -/
theorem State.OperandsReadable.overruns_eq_false {s : State} {k m : Nat} (h : s.OperandsReadable k) (hm : m < k) :
    s.overruns (s.dec.p + BitVec.ofNat 32 (1 + m)) = false := by
  rcases h with hpol | hregion
  · rw [← Bool.not_eq_true, State.overruns_iff]
    exact fun ⟨hfault, _⟩ => hpol hfault
  · have hend := s.dec.chunkEnd.isLt
    apply State.overruns_of_lt
    rw [BitVec.lt_def, BitVec.toNat_add, BitVec.toNat_ofNat]
    omega

/-- A handler that takes the operands `fs` has the slot step of its opcode: done when all are readable, `Overrun` at the first
that is not. -/
theorem slotStepOf_takeOperands {i : Instr} {s : State} (fs : List (Pixel → Pixel))
    (h : exec i s = takeOperands fs s.fetched) :
    SlotStepOf i s fs.length (fs.foldl (fun px f => f px) s.dec.px) := by
  refine ⟨fun hread => ?_, fun j hj ⟨hfault, hbefore, hat⟩ => ?_⟩
  · refine ⟨_, h.trans (takeOperands_next fs s.fetched fun m hm => ?_), s.fetched_operandsTaken_done fs⟩
    rw [State.fetched_operand]
    exact hread.overruns_eq_false hm
  · have hlen : (fs.take j).length = j := by rw [List.length_take]; omega
    have hover := s.fetched_operandsTaken_overran (fs.take j)
    rw [hlen] at hover
    refine ⟨_, h.trans (takeOperands_overrun fs s.fetched j hj (fun m hm => ?_) ?_), hover⟩ <;> rw [State.fetched_operand]
    · exact s.overruns_of_lt (hbefore m hm)
    · exact (s.overruns_iff _).mpr ⟨hfault, hat⟩

/-! ### The statements -/

/-- Settles O7: the handler takes three operands, which set r, g and b. -/
theorem rgbWritesColourAndKeepsAlpha : Obligations.RgbWritesColourAndKeepsAlpha := by
  unfold Obligations.RgbWritesColourAndKeepsAlpha
  intro r g b s
  exact ⟨rfl, slotStepOf_takeOperands [Pixel.setR r, Pixel.setG g, Pixel.setB b] rfl⟩

/-- Settles O8: the handler takes four operands, which set every channel. -/
theorem rgbaWritesAllChannels : Obligations.RgbaWritesAllChannels := by
  unfold Obligations.RgbaWritesAllChannels
  intro r g b a s
  exact ⟨rfl, slotStepOf_takeOperands [Pixel.setR r, Pixel.setG g, Pixel.setB b, Pixel.setA a] rfl⟩

/-- Settles O10: the fields of the byte are the biased deltas, and `addDiff` adds modulo 256. -/
theorem diffAddsDeltasModulo256 : Obligations.DiffAddsDeltasModulo256 := by
  unfold Obligations.DiffAddsDeltasModulo256
  intro dr dg db s px hr0 hr1 hg0 hg1 hb0 hb1 hr hg hb ha
  rw [Pixel.eq_addDiff hr hg hb ha]
  exact ⟨decode_diff_byte ⟨hr0, hr1⟩ ⟨hg0, hg1⟩ ⟨hb0, hb1⟩, _, rfl, s.fetched_setPx_done _⟩

/-- Settles O11: the fields of the two bytes are the biased deltas, and the handler's one operand adds modulo 256. -/
theorem lumaAddsGreenRelativeDeltasModulo256 : Obligations.LumaAddsGreenRelativeDeltasModulo256 := by
  unfold Obligations.LumaAddsGreenRelativeDeltasModulo256
  intro vg drdg dbdg s px hg0 hg1 hr0 hr1 hb0 hb1 hr hg hb ha
  rw [Pixel.eq_addDiff hr hg hb ha]
  exact ⟨decode_luma_bytes ⟨hg0, hg1⟩ ⟨hr0, hr1⟩ ⟨hb0, hb1⟩,
    slotStepOf_takeOperands [Pixel.addLuma vg drdg dbdg] rfl⟩

/-- Settles O9: the handler looks the slot up in the cache of the state it starts from. -/
theorem indexReadsTheSlotBeforeTheUpdate : Obligations.IndexReadsTheSlotBeforeTheUpdate := by
  unfold Obligations.IndexReadsTheSlotBeforeTheUpdate
  intro slot s
  exact ⟨decode_index_byte slot, _, rfl, s.fetched_setPx_done _⟩

/-- Settles O17: with `run > 0` the slot step is `runContinue`, which only counts down before the end of the step. -/
theorem runContinueRepeatsThePixel : Obligations.RunContinueRepeatsThePixel := by
  unfold Obligations.RunContinueRepeatsThePixel
  intro s rest hturn hrun
  have hslot : State.slotStep { s with agenda := rest } = .next (State.runContinue { s with agenda := rest }) := if_pos hrun
  exact ⟨_, hturn.step_eq.trans hslot, rfl,
    State.endSlot_done s _ _ 0 _ rfl (BitVec.add_zero _).symm rfl rfl rfl rfl rfl
      ⟨rfl, rfl, rfl, rfl, rfl, rfl, rfl, rfl⟩ ⟨rfl, rfl, rfl, rfl, rfl, rfl, rfl⟩⟩

end Sys2Proof.Machine
end

section
/-! The channel count of the descriptor (42_decoder R157): a slot step neither reads nor writes it, so each of its parts commutes
with changing it. -/

namespace Sys2Proof.Machine

section WithChannels
variable (s : State) (ch : Byte)

@[simp] theorem State.withChannels_dec_run : (s.withChannels ch).dec.run = s.dec.run := rfl
@[simp] theorem State.withChannels_dec_p : (s.withChannels ch).dec.p = s.dec.p := rfl
@[simp] theorem State.withChannels_dec_chunkEnd : (s.withChannels ch).dec.chunkEnd = s.dec.chunkEnd := rfl
@[simp] theorem State.withChannels_overruns (k : Word) : (s.withChannels ch).overruns k = s.overruns k := rfl
@[simp] theorem State.withChannels_fetchOpcode : (s.withChannels ch).fetchOpcode = s.fetchOpcode := rfl
@[simp] theorem State.withChannels_fetched : (s.withChannels ch).fetched = s.fetched.withChannels ch := rfl
@[simp] theorem State.withChannels_endSlot : (s.withChannels ch).endSlot = s.endSlot.withChannels ch := rfl
@[simp] theorem State.withChannels_exhausted : (s.withChannels ch).exhausted = s.exhausted.withChannels ch := rfl
@[simp] theorem State.withChannels_runContinue : (s.withChannels ch).runContinue = s.runContinue.withChannels ch := rfl
@[simp] theorem State.withChannels_operandTaken (f : Pixel → Pixel) :
    (s.withChannels ch).operandTaken f = (s.operandTaken f).withChannels ch := rfl
@[simp] theorem State.withChannels_raiseDec (cause : DecCause) (info : Word) :
    (s.withChannels ch).raiseDec cause info = (s.raiseDec cause info).withChannels ch := rfl

end WithChannels

/-- The next state of an outcome under another channel count; a stop is as it was. -/
def withChannelsAfter (ch : Byte) : Outcome → Outcome
  | .next t => .next (t.withChannels ch)
  | .fault r => .fault r
  | .refused r => .refused r

theorem takeOperands_withChannels (fs : List (Pixel → Pixel)) (s : State) (ch : Byte) :
    takeOperands fs (s.withChannels ch) = withChannelsAfter ch (takeOperands fs s) := by
  induction fs generalizing s with
  | nil => rfl
  | cons f fs ih =>
    unfold takeOperands
    simp only [State.withChannels_overruns, State.withChannels_dec_p, State.withChannels_operandTaken,
      State.withChannels_raiseDec, ih]
    split <;> rfl

theorem exec_withChannels (i : Instr) (s : State) (ch : Byte) :
    exec i (s.withChannels ch) = withChannelsAfter ch (exec i s) := by
  cases i with
  | rgb r g b => exact takeOperands_withChannels _ s.fetched ch
  | rgba r g b a => exact takeOperands_withChannels _ s.fetched ch
  | luma vg drdg dbdg => exact takeOperands_withChannels _ s.fetched ch
  | index slot => rfl
  | diff dr dg db => rfl
  | run n => rfl

theorem State.slotStep_withChannels (s : State) (ch : Byte) :
    (s.withChannels ch).slotStep = withChannelsAfter ch s.slotStep := by
  unfold State.slotStep
  simp only [State.withChannels_dec_run, State.withChannels_dec_p, State.withChannels_dec_chunkEnd,
    State.withChannels_fetchOpcode, State.withChannels_runContinue, State.withChannels_exhausted, exec_withChannels]
  split_ifs <;> rfl

/-- Settles O21: a slot step commutes with changing the channel count. -/
theorem channelCountDoesNotChangeDecoding : Obligations.ChannelCountDoesNotChangeDecoding := by
  unfold Obligations.ChannelCountDoesNotChangeDecoding
  intro s t ch h
  rw [State.slotStep_withChannels, h]
  rfl

end Sys2Proof.Machine
end

section
/-! The pixel step of the encoder (43_encoder R171 to R182): what a turn of ENC appends and leaves, the opcode the selector
chooses as a function of the wrapped channel differences, and the padding step. -/

namespace Sys2Proof.Machine

/-! ### What is appended -/

/-- The bytes a step emits are appended, whatever it does to the registers of ENC, as long as the count does not wrap. -/
theorem Appended.of_emitBytes {s t : State} {bs : List Byte} (hroom : s.enc.ctl.outCount.toNat + bs.length ≤ 2 ^ 32)
    (hcount : t.enc.ctl.outCount = s.enc.ctl.outCount + BitVec.ofNat 32 bs.length)
    (hbytes : t.encBytes = (s.emitBytes bs).encBytes) : Appended s t bs where
  count := hcount
  bytes k hk := by
    rw [hbytes, State.emitBytes_read _ _ _ hroom, if_pos (by omega), Nat.add_sub_cancel_left]
  others a ha := by
    rw [hbytes, State.emitBytes_read _ _ _ hroom, if_neg (by omega)]

/-- The encoder flushes a pending run with the bytes the statements name (43_encoder R174), for every value of the counter. -/
theorem pendingBytes_eq_flushBytes (run : BitVec 6) : pendingBytes run = flushBytes run := by
  revert run; decide

theorem flushBytes_length_le (run : BitVec 6) : (flushBytes run).length ≤ 1 := by
  unfold flushBytes
  split_ifs <;> simp

/-! ### The turn of ENC -/

section Turn
variable {s : State} {rest : List Event}

/-- With a pixel left, the turn of ENC is a pixel step (43_encoder R170). -/
theorem State.EncTurn.step_pixel (hturn : s.EncTurn rest) (hi : s.enc.i < s.enc.n) :
    step s = .next (State.pixelStep { s with agenda := rest }) :=
  hturn.step_eq.trans (congrArg _ (if_pos hi))

/-- Without a pixel left, the turn of ENC is the padding step (43_encoder R183). -/
theorem State.EncTurn.step_padding (hturn : s.EncTurn rest) (hi : ¬ s.enc.i < s.enc.n) :
    step s = .next (State.paddingStep { s with agenda := rest }) :=
  hturn.step_eq.trans (congrArg _ (if_neg hi))

/-- A turn whose pixel step leaves `State.encoded` is done with those bytes, that run and that cache. -/
theorem State.EncTurn.pixelDone (hturn : s.EncTurn rest) (hi : s.enc.i < s.enc.n) {bs : List Byte} {run : BitVec 6}
    {cache : Cache} {miss : Prop} (px : Pixel) (hpx : Memory.readPixel s.encPix s.enc.i.toNat = px)
    (hstep : State.pixelStep { s with agenda := rest } = State.encoded { s with agenda := rest } px bs run cache)
    (hroom : s.enc.ctl.outCount.toNat + bs.length ≤ 2 ^ 32)
    (hcached : miss → Cache.lookup cache (slotOf s.cfg.hashW px) = px)
    (hothers : ∀ k, (miss → k ≠ slotOf s.cfg.hashW px) → Cache.lookup cache k = Cache.lookup s.enc.cache k) :
    ∃ t, step s = .next t ∧ t.agenda = rest ∧ PixelDone s t bs run miss := by
  subst hpx
  refine ⟨_, (hturn.step_pixel hi).trans (congrArg _ hstep), ?_⟩
  rw [State.encoded_eq]
  exact ⟨rfl, rfl, rfl, rfl, rfl, rfl, rfl, .of_emitBytes hroom rfl (State.emitBytes_congr _ _ bs rfl rfl), hcached, hothers,
    ⟨rfl, rfl, rfl, rfl, rfl, rfl, rfl⟩, ⟨rfl, rfl, rfl, rfl, rfl, rfl, rfl⟩⟩

/-- A turn that leaves the cache as it is. -/
theorem State.EncTurn.pixelDone_sameCache (hturn : s.EncTurn rest) (hi : s.enc.i < s.enc.n) {bs : List Byte}
    {run : BitVec 6} (px : Pixel) (hpx : Memory.readPixel s.encPix s.enc.i.toNat = px)
    (hstep : State.pixelStep { s with agenda := rest } = State.encoded { s with agenda := rest } px bs run s.enc.cache)
    (hroom : s.enc.ctl.outCount.toNat + bs.length ≤ 2 ^ 32) :
    ∃ t, step s = .next t ∧ t.agenda = rest ∧ PixelDone s t bs run False :=
  hturn.pixelDone hi px hpx hstep hroom False.elim fun _ _ => rfl

/-- The room of a step holds the flush of a pending run and one opcode. -/
theorem State.EncRoom.flush_encode (hroom : s.EncRoom) (run : BitVec 6) (i : Instr) :
    s.enc.ctl.outCount.toNat + (flushBytes run ++ encode i).length ≤ 2 ^ 32 := by
  have hflush := flushBytes_length_le run
  have hencode := encode_length_le i
  rw [List.length_append]
  exact Nat.le_trans (by omega) hroom

/-- A changed pixel that misses: the pending run flushed, the selected opcode, and the pixel in its slot (43_encoder R176). -/
theorem State.EncTurn.miss (hturn : s.EncTurn rest) (hroom : s.EncRoom) (hi : s.enc.i < s.enc.n) {px : Pixel}
    (hpx : Memory.readPixel s.encPix s.enc.i.toNat = px) (hne : px ≠ s.enc.pxPrev)
    (hmiss : Cache.lookup s.enc.cache (slotOf s.cfg.hashW px) ≠ px) :
    ∃ t, step s = .next t ∧ t.agenda = rest ∧
      PixelDone s t (flushBytes s.enc.run ++ encode (selectOnMiss px s.enc.pxPrev)) 0 True := by
  have hstep := State.pixelStep_changed { s with agenda := rest } px hpx hne
  rw [if_neg (mt (Cache.hit_iff _ _ _).mp hmiss), pendingBytes_eq_flushBytes] at hstep
  refine hturn.pixelDone hi px hpx hstep (hroom.flush_encode _ _) (fun _ => Cache.lookup_update_same _ _ _) fun k hk => ?_
  rw [Cache.lookup_update, if_neg (hk trivial)]

end Turn

/-- The padding step writes the stream, its count and the end of the pass, and nothing else (43_encoder R183, R184). -/
theorem State.paddingStep_eq (s : State) :
    s.paddingStep =
      { s with
        encBytes := (s.emitBytes padSentinel).encBytes
        enc := s.enc.setCtl { s.enc.ctl with
          state := .done, outCount := s.enc.ctl.outCount + BitVec.ofNat 32 padSentinel.length } } := by
  rw [State.paddingStep, State.emitBytes_eq]
  rfl

/-! ### The opcode selector -/

/-- The signed value of a channel difference is that of the wrapped difference (00_scope R10). -/
theorem sext8_toNat_sub (a b : Byte) : sext8 ((a.toNat : Int) - b.toNat) = (a - b).toInt := by
  rw [sext8, BitVec.toInt_ofInt, BitVec.toInt_sub, BitVec.toInt_eq_toNat_bmod a, BitVec.toInt_eq_toNat_bmod b,
    Int.bmod_sub_bmod, Int.sub_bmod_bmod]

/-- The signed value of a difference of signed values is that of the wrapped difference (43_encoder R178). -/
theorem sext8_toInt_sub (a b : Byte) : sext8 (a.toInt - b.toInt) = (a - b).toInt := by
  rw [sext8, BitVec.toInt_ofInt, BitVec.toInt_sub]

/-- The deltas are the signed values of the wrapped differences (43_encoder R178). -/
theorem deltasOf_eq (px q : Pixel) :
    deltasOf px q =
      { vr := (px.r - q.r).toInt, vg := (px.g - q.g).toInt, vb := (px.b - q.b).toInt
        vgr := ((px.r - q.r) - (px.g - q.g)).toInt, vgb := ((px.b - q.b) - (px.g - q.g)).toInt } := by
  simp only [deltasOf, sext8_toNat_sub, sext8_toInt_sub]

/-- DIFF fits when each channel delta lies in -2..1 (43_encoder R179). -/
theorem Deltas.diffFits_iff (d : Deltas) :
    d.diffFits = true ↔ -2 ≤ d.vr ∧ d.vr ≤ 1 ∧ -2 ≤ d.vg ∧ d.vg ≤ 1 ∧ -2 ≤ d.vb ∧ d.vb ≤ 1 := by
  simp [Deltas.diffFits, inRange, and_assoc]

/-- LUMA fits when the green delta lies in -32..31 and the others, relative to it, in -8..7 (43_encoder R180). -/
theorem Deltas.lumaFits_iff (d : Deltas) :
    d.lumaFits = true ↔ -8 ≤ d.vgr ∧ d.vgr ≤ 7 ∧ -32 ≤ d.vg ∧ d.vg ≤ 31 ∧ -8 ≤ d.vgb ∧ d.vgb ≤ 7 := by
  simp [Deltas.lumaFits, inRange, and_assoc]

section Select
variable {px q : Pixel}

theorem selectOnMiss_of_alpha_ne (ha : px.a ≠ q.a) : selectOnMiss px q = .rgba px.r px.g px.b px.a := if_pos ha

variable (ha : px.a = q.a)
include ha

theorem selectOnMiss_of_diffFits (hd : (deltasOf px q).diffFits = true) :
    selectOnMiss px q = .diff (deltasOf px q).vr (deltasOf px q).vg (deltasOf px q).vb := by
  rw [selectOnMiss, if_neg (not_not.mpr ha), if_pos hd]

theorem selectOnMiss_of_lumaFits (hd : ¬ (deltasOf px q).diffFits = true) (hl : (deltasOf px q).lumaFits = true) :
    selectOnMiss px q = .luma (deltasOf px q).vg (deltasOf px q).vgr (deltasOf px q).vgb := by
  rw [selectOnMiss, if_neg (not_not.mpr ha), if_neg hd, if_pos hl]

theorem selectOnMiss_of_noneFits (hd : ¬ (deltasOf px q).diffFits = true) (hl : ¬ (deltasOf px q).lumaFits = true) :
    selectOnMiss px q = .rgb px.r px.g px.b := by
  rw [selectOnMiss, if_neg (not_not.mpr ha), if_neg hd, if_neg hl]

end Select

/-! ### The statements -/

/-- Settles O30: the count stays below the limit and the pixel is not the last, so the step only counts. -/
theorem runPixelIsCounted : Obligations.RunPixelIsCounted := by
  unfold Obligations.RunPixelIsCounted
  intro s rest hturn hi hlast hrun hpx
  have hbelow : ¬ (s.enc.run + 1 = runMax ∨ s.enc.i = s.enc.n - 1) := by
    unfold runMax
    bv_omega
  have hstep := (State.pixelStep_run { s with agenda := rest } hpx).trans (if_neg hbelow)
  exact hturn.pixelDone_sameCache hi _ hpx hstep s.enc.ctl.outCount.isLt.le

/-- Settles O31: the count reaches the limit or the pixel is the last, and the payload of the count `run + 1` is `run`. -/
theorem runIsFlushedAtTheLimitAndAtTheEnd : Obligations.RunIsFlushedAtTheLimitAndAtTheEnd := by
  unfold Obligations.RunIsFlushedAtTheLimitAndAtTheEnd
  intro s rest hturn hroom hi hrun hend hpx
  have hflush : s.enc.run + 1 = runMax ∨ s.enc.i = s.enc.n - 1 := by
    unfold runMax
    bv_omega
  have hstep := (State.pixelStep_run { s with agenda := rest } hpx).trans (if_pos hflush)
  rw [encode_run_eq] at hstep
  exact hturn.pixelDone_sameCache hi _ hpx hstep (Nat.le_trans (by simp) hroom)

/-- Settles O32: on a hit the changed pixel is emitted as INDEX, whose byte is the slot. -/
theorem cacheHitEmitsIndex : Obligations.CacheHitEmitsIndex := by
  unfold Obligations.CacheHitEmitsIndex
  intro s rest hturn hroom hi px hne hhit
  have hstep := State.pixelStep_changed { s with agenda := rest } px rfl hne
  rw [if_pos ((Cache.hit_iff _ _ _).mpr hhit), pendingBytes_eq_flushBytes] at hstep
  rw [← encode_index_eq]
  exact hturn.pixelDone_sameCache hi px rfl hstep (hroom.flush_encode _ _)

/-- Settles O33: a changed alpha makes the selector choose RGBA before any delta form. -/
theorem alphaChangeEmitsRgba : Obligations.AlphaChangeEmitsRgba := by
  unfold Obligations.AlphaChangeEmitsRgba
  intro s rest hturn hroom hi px ha hmiss
  have hdone := hturn.miss hroom hi rfl (fun h => ha (congrArg Pixel.a h)) hmiss
  rw [selectOnMiss_of_alpha_ne ha] at hdone
  exact hdone

/-- Settles O34: with the alpha kept the selector tests DIFF, then LUMA, on the wrapped differences. -/
theorem cheapestFittingDeltaIsEmitted : Obligations.CheapestFittingDeltaIsEmitted := by
  unfold Obligations.CheapestFittingDeltaIsEmitted
  intro s rest hturn hroom hi px q hne ha hmiss vr vg vb vgr vgb diffFits lumaFits emits
  have hemits : ∀ bs, encode (selectOnMiss px q) = bs → emits bs := fun _ h => h ▸ hturn.miss hroom hi rfl hne hmiss
  have hdeltas : deltasOf px q = ⟨vr, vg, vb, vgr, vgb⟩ := deltasOf_eq px q
  have hdiff : (deltasOf px q).diffFits = true ↔ diffFits := by rw [Deltas.diffFits_iff, hdeltas]
  have hluma : (deltasOf px q).lumaFits = true ↔ lumaFits := by rw [Deltas.lumaFits_iff, hdeltas]
  refine ⟨fun hd => hemits _ ?_, fun hd hl => hemits _ ?_, fun hd hl => hemits _ ?_⟩
  · rw [selectOnMiss_of_diffFits ha (hdiff.mpr hd), hdeltas]
    obtain ⟨hr0, hr1, hg0, hg1, hb0, hb1⟩ := hd
    exact encode_diff_eq _ _ _ hr0 hr1 hg0 hg1 hb0 hb1
  · rw [selectOnMiss_of_lumaFits ha (mt hdiff.mp hd) (hluma.mpr hl), hdeltas]
    obtain ⟨hr0, hr1, hg0, hg1, hb0, hb1⟩ := hl
    exact encode_luma_eq _ _ _ hg0 hg1 hr0 hr1 hb0 hb1
  · rw [selectOnMiss_of_noneFits ha (mt hdiff.mp hd) (mt hluma.mp hl)]
    rfl

/-- Settles O36: with no pixel left the turn emits the sentinel and finishes. -/
theorem paddingEndsTheEncoderPass : Obligations.PaddingEndsTheEncoderPass := by
  unfold Obligations.PaddingEndsTheEncoderPass
  intro s rest hturn hroom hi
  have hout : Appended s (State.paddingStep { s with agenda := rest }) padSentinel := by
    rw [State.paddingStep_eq]
    exact .of_emitBytes hroom rfl (State.emitBytes_congr _ _ _ rfl rfl)
  refine ⟨_, hturn.step_padding (by rw [hi]; exact BitVec.lt_irrefl _), ?_⟩
  rw [State.paddingStep_eq] at hout ⊢
  exact ⟨rfl, rfl, hout, ⟨rfl, rfl, rfl, rfl, rfl, rfl, rfl⟩, ⟨rfl, rfl, rfl, rfl, rfl, rfl, rfl⟩,
    rfl, rfl, rfl, rfl, rfl, rfl⟩

end Sys2Proof.Machine
end

section
/-! START of ENC with a precondition that fails (43_encoder R185, 60_exceptions R204): which one is the cause, and the state that
START leaves. -/

namespace Sys2Proof.Machine

/-! ### The first failing precondition -/

section EncCause
variable {e : Enc}

theorem encCause_width0 (hw : e.width = 0) : encCause e = .width0 := if_pos hw

variable (hw : e.width ≠ 0)
include hw

theorem encCause_height0 (hh : e.height = 0) : encCause e = .height0 := by
  rw [encCause, if_neg hw, if_pos hh]

variable (hh : e.height ≠ 0)
include hh

theorem encCause_channels (hc : ¬ (e.channels = 3 ∨ e.channels = 4)) : encCause e = .channels := by
  rw [encCause, if_neg hw, if_neg hh, if_pos (not_or.mp hc)]

variable (hc : e.channels = 3 ∨ e.channels = 4)
include hc

theorem encCause_dims (hg : ¬ e.height.toNat < pixelsMax / e.width.toNat) : encCause e = .dims := by
  have hg' : dimsTooLarge e.width e.height = true := decide_eq_true (not_lt.mp hg)
  rw [encCause, if_neg hw, if_neg hh, if_neg (not_and_not_right.mpr hc.resolve_left), if_pos hg']

variable (hg : e.height.toNat < pixelsMax / e.width.toNat)
include hg

theorem encCause_colorspace (hs : ¬ (e.colorspace = 0 ∨ e.colorspace = 1)) : encCause e = .colorspace := by
  have hg' := Bool.eq_false_iff.mp ((dimsTooLarge_false_iff _ _).mpr hg)
  rw [encCause, if_neg hw, if_neg hh, if_neg (not_and_not_right.mpr hc.resolve_left), if_neg hg', if_pos (not_or.mp hs)]

theorem encCause_len (hs : e.colorspace = 0 ∨ e.colorspace = 1)
    (hl : e.pixLen.toNat ≠ e.width.toNat * e.height.toNat) : encCause e = .len := by
  have hg' := Bool.eq_false_iff.mp ((dimsTooLarge_false_iff _ _).mpr hg)
  rw [encCause, if_neg hw, if_neg hh, if_neg (not_and_not_right.mpr hc.resolve_left), if_neg hg',
    if_neg (not_and_not_right.mpr hs.resolve_left), if_pos hl]

end EncCause

/-! ### The state START of ENC leaves -/

/-- START of ENC with a failing precondition raises its cause in a pass that has emitted nothing, and writes nothing
else of ENC. -/
theorem State.StartNext.step_enc_rejects {s : State} {rest : List Event} (hn : s.StartNext .enc rest) {cause : EncCause}
    (hc : encCause s.enc = cause) (hne : cause ≠ .none) :
    ∃ t, step s = .next t ∧ t.agenda = rest ∧ t.enc = { s.enc with ctl := ⟨.error, cause, 0, 0⟩ } ∧ EncOnly s t := by
  subst hc
  have hstart : State.encStart { s with agenda := rest } =
      (State.beginEnc { s with agenda := rest }).raiseEnc (encCause s.enc) := if_neg hne
  exact ⟨_, hn.step_enc.trans (congrArg _ hstart), rfl, rfl, ⟨rfl, rfl, rfl, rfl, rfl, rfl, rfl⟩⟩

/-- Settles O38: each clause is the cause `encCause` finds first, and START raises it. -/
theorem firstFailingPreconditionEndsTheEncoderPass : Obligations.FirstFailingPreconditionEndsTheEncoderPass := by
  unfold Obligations.FirstFailingPreconditionEndsTheEncoderPass
  intro s rest hn e rejected dims channels guard colour
  have hrejected : ∀ cause, encCause e = cause → cause ≠ .none → rejected cause := fun _ => hn.step_enc_rejects
  refine ⟨fun hw => hrejected _ ?_ nofun, fun hw hh => hrejected _ ?_ nofun, fun ⟨hw, hh⟩ hc => hrejected _ ?_ nofun,
    fun ⟨hw, hh⟩ hc hg => hrejected _ ?_ nofun, fun ⟨hw, hh⟩ hc hg hs => hrejected _ ?_ nofun,
    fun ⟨hw, hh⟩ hc hg hs hl => hrejected _ ?_ nofun⟩
  · exact encCause_width0 hw
  · exact encCause_height0 hw hh
  · exact encCause_channels hw hh hc
  · exact encCause_dims hw hh hc hg
  · exact encCause_colorspace hw hh hc hg hs
  · exact encCause_len hw hh hc hg hs hl

end Sys2Proof.Machine
end

section
/-! Host writes to a BUSY engine (10_state R31, R37, 60_exceptions R217): START is refused, and every register but `CMD` keeps its
value. -/

namespace Sys2Proof.Machine

/-- The step of a register write (60_exceptions R210). -/
theorem step_writeReg {s : State} {e : Engine} {no : Nat} {v : Word} {rest : List Event}
    (h : s.agenda = .host (.writeReg e no v) :: rest) : step s = State.hostWrite { s with agenda := rest } e no v :=
  step_host s _ rest h

theorem lowByte_one : lowByte 1 = 1 := by decide

section Busy
variable {s : State}

theorem State.hostWrite_dec_start_of_busy (h : s.dec.ctl.state = .busy) :
    s.hostWrite .dec 0 1 = .refused .startWhileBusy := by
  simp only [State.hostWrite, State.decCommand, lowByte_one, h, if_true]

theorem State.hostWrite_enc_start_of_busy (h : s.enc.ctl.state = .busy) :
    s.hostWrite .enc 0 1 = .refused .startWhileBusy := by
  simp only [State.hostWrite, State.encCommand, lowByte_one, h, if_true]

theorem State.hostWrite_dec_of_busy {no : Nat} {v : Word} (h : s.dec.ctl.state = .busy) (hno : no ≠ 0) :
    s.hostWrite .dec no v = .next s := by
  simp only [State.hostWrite, hno, h, if_false, if_true]

theorem State.hostWrite_enc_of_busy {no : Nat} {v : Word} (h : s.enc.ctl.state = .busy) (hno : no ≠ 0) :
    s.hostWrite .enc no v = .next s := by
  simp only [State.hostWrite, hno, h, if_false, if_true]

end Busy

/-- Settles O42: the step is the host write, which for a BUSY engine refuses START and leaves the state for any number but 0. -/
theorem busyEngineAdmitsNoStartAndIgnoresWrites : Obligations.BusyEngineAdmitsNoStartAndIgnoresWrites := by
  unfold Obligations.BusyEngineAdmitsNoStartAndIgnoresWrites
  intro s rest no v hno
  refine ⟨fun hbusy => ⟨fun ha => ?_, fun ha => ?_⟩, fun hbusy => ⟨fun ha => ?_, fun ha => ?_⟩⟩ <;> rw [step_writeReg ha]
  · exact State.hostWrite_dec_start_of_busy hbusy
  · exact State.hostWrite_dec_of_busy hbusy hno
  · exact State.hostWrite_enc_start_of_busy hbusy
  · exact State.hostWrite_enc_of_busy hbusy hno

end Sys2Proof.Machine
end

section
/-! The encodings of the opcodes read both ways (30_encoding sections 1 to 5): the bytes of an opcode decode to it whatever follows
them, what decodes encodes to the very bytes read, and the assembler's lines. -/

namespace Sys2Proof

/-! ### What decoding answers -/

/-- Bytes decode exactly when there are as many as the first one calls for; what is left over is the bytes after those. -/
theorem decode_cons_eq_ok_iff {b : Byte} {rest tail : List Byte} {i : Instr} :
    decode (b :: rest) = .ok (i, tail) ↔
      opcodeLength b ≤ rest.length + 1 ∧ decodeFrom (fun k => (b :: rest).getD k 0) = i ∧
        (b :: rest).drop (opcodeLength b) = tail := by
  simp only [decode]
  split_ifs with h
  · exact ⟨nofun, fun ⟨hle, _⟩ => absurd h (by omega)⟩
  · simp only [Except.ok.injEq, Prod.mk.injEq]
    exact ⟨fun e => ⟨by omega, e⟩, fun e => e.2⟩

/-- Only a first byte can decode. -/
theorem exists_cons_of_decode {bs tail : List Byte} {i : Instr} (h : decode bs = .ok (i, tail)) :
    ∃ b rest, bs = b :: rest := by
  cases bs with
  | nil => cases h
  | cons b rest => exact ⟨b, rest, rfl⟩

/-- What decodes, decodes the same before any further bytes, which are left over too. -/
theorem decode_append {bs left : List Byte} {i : Instr} (h : decode bs = .ok (i, left)) (tail : List Byte) :
    decode (bs ++ tail) = .ok (i, left ++ tail) := by
  obtain ⟨b, rest, rfl⟩ := exists_cons_of_decode h
  obtain ⟨hlen, hi, hleft⟩ := decode_cons_eq_ok_iff.mp h
  rw [List.cons_append, decode_cons_eq_ok_iff, ← List.cons_append]
  refine ⟨by rw [List.length_append]; omega, ?_, ?_⟩
  · rw [← hi]
    refine (Machine.decodeFrom_congr _ _ fun k hk => ?_).symm
    rw [List.getD_append _ _ _ _ (by rw [List.length_cons]; exact hk.trans_le hlen)]
  · rw [List.drop_append_of_le_length hlen, hleft]

/-- The bytes of RUN decode to it for every payload but 62 and 63, whose bytes are RGB and RGBA (30_encoding R72, R76). -/
theorem decode_run_byte (n : BitVec 6) (h : n.toNat ≤ 61) : decode [BitVec.ofNat 8 (0xC0 + n.toNat)] = .ok (.run n, []) := by
  revert n; decide

/-- A well-formed opcode decodes from its own bytes (30_encoding R73 to R77). -/
theorem decode_encode (i : Instr) (h : i.wf = true) : decode (encode i) = .ok (i, []) := by
  cases i with
  | rgb r g b => rfl
  | rgba r g b a => rfl
  | index slot => rw [encode_index_eq, decode_index_byte]
  | diff dr dg db =>
    simp only [Instr.wf, inRange, Bool.and_eq_true, decide_eq_true_eq] at h
    obtain ⟨⟨hr, hg⟩, hb⟩ := h
    rw [encode_diff_eq _ _ _ hr.1 hr.2 hg.1 hg.2 hb.1 hb.2, decode_diff_byte hr hg hb]
  | luma vg drdg dbdg =>
    simp only [Instr.wf, inRange, Bool.and_eq_true, decide_eq_true_eq] at h
    obtain ⟨⟨hg, hr⟩, hb⟩ := h
    rw [encode_luma_eq _ _ _ hg.1 hg.2 hr.1 hr.2 hb.1 hb.2, decode_luma_bytes hg hr hb]
  | run n =>
    rw [encode_run_eq, decode_run_byte n (by simpa [Instr.wf, BitVec.le_def] using h)]

/-- Settles O2: an opcode decodes from its own bytes, and decoding looks no further than those. -/
theorem decodeOfEncodeIsTheOpcode : Obligations.DecodeOfEncodeIsTheOpcode := by
  unfold Obligations.DecodeOfEncodeIsTheOpcode
  intro i tail h
  exact decode_append (decode_encode i h) tail

/-! ### The bytes of what was decoded -/

/-- The bits of a class-00 byte are its slot (30_encoding R73). -/
theorem encode_index_of_class : ∀ b : Byte, b.extractLsb' 6 2 = 0#2 → encode (.index (b.extractLsb' 0 6)) = [b] := by
  decide

theorem encode_diff_of_class : ∀ b : Byte, b.extractLsb' 6 2 = 1#2 →
    encode (.diff (unbias (field b 4 2) 2) (unbias (field b 2 2) 2) (unbias (field b 0 2) 2)) = [b] := by
  decide

theorem encode_run_of_class : ∀ b : Byte, b.extractLsb' 6 2 = 3#2 → encode (.run (b.extractLsb' 0 6)) = [b] := by
  decide

theorem encode_luma_of_class (b c : Byte) (hb : b.extractLsb' 6 2 = 2#2) :
    encode (.luma (unbias (field b 0 6) 32) (unbias (field c 4 4) 8) (unbias (field c 0 4) 8)) = [b, c] := by
  have hfirst : ∀ b : Byte, b.extractLsb' 6 2 = 2#2 → 0x80#8 ||| biased (unbias (field b 0 6) 32) 32 = b := by decide
  have hsecond : ∀ c : Byte, biased (unbias (field c 4 4) 8) 8 <<< 4 ||| biased (unbias (field c 0 4) 8) 8 = c := by decide
  rw [encode, hfirst b hb, hsecond c]

/-- The class of a byte is one of four (30_encoding R79). -/
theorem class_cases : ∀ b : Byte,
    b.extractLsb' 6 2 = 0#2 ∨ b.extractLsb' 6 2 = 1#2 ∨ b.extractLsb' 6 2 = 2#2 ∨ b.extractLsb' 6 2 = 3#2 := by
  decide

/-- An opcode encodes to the bytes it was decoded from, as many as the first one calls for (30_encoding R82). -/
theorem encode_decodeFrom (f : Nat → Byte) : encode (decodeFrom f) = (List.range (opcodeLength (f 0))).map f := by
  unfold decodeFrom
  split_ifs with hrgb hrgba hindex hdiff hluma
  · simp [encode, opcodeLength, hrgb, List.range_succ]
  · simp [encode, opcodeLength, hrgba, List.range_succ]
  · rw [encode_index_of_class _ hindex]
    simp [opcodeLength, hrgb, hrgba, hindex, List.range_succ]
  · rw [encode_diff_of_class _ hdiff]
    simp [opcodeLength, hrgb, hrgba, hdiff, List.range_succ]
  · rw [encode_luma_of_class _ _ hluma]
    simp [opcodeLength, hrgb, hrgba, hluma, List.range_succ]
  · rw [encode_run_of_class _ ((((class_cases _).resolve_left hindex).resolve_left hdiff).resolve_left hluma)]
    simp [opcodeLength, hrgb, hrgba, hluma, List.range_succ]

/-- Settles O3: the opcode's bytes are those its length counts, and the rest is what is left over. -/
theorem encodeOfDecodeIsTheBytes : Obligations.EncodeOfDecodeIsTheBytes := by
  unfold Obligations.EncodeOfDecodeIsTheBytes
  intro bs tail i h
  obtain ⟨b, rest, rfl⟩ := exists_cons_of_decode h
  obtain ⟨hlen, rfl, rfl⟩ := decode_cons_eq_ok_iff.mp h
  refine ⟨Machine.decodeFrom_wf _, ?_⟩
  have htake : (List.range (opcodeLength b)).map (fun k => (b :: rest).getD k 0) = (b :: rest).take (opcodeLength b) := by
    apply List.ext_getElem
    · simpa using hlen
    · intro k hk _
      rw [List.length_map, List.length_range] at hk
      rw [List.getElem_map, List.getElem_range, List.getElem_take]
      exact List.getD_eq_getElem (b :: rest) _ (hk.trans_le hlen)
  rw [encode_decodeFrom, List.getD_cons_zero, htake, List.take_append_drop]

/-! ### What the first byte says -/

/-- The opcode length by ranges of the first byte (30_encoding R82). -/
theorem opcodeLength_eq : ∀ b : Byte, opcodeLength b =
    if b.toNat = 0xFF then 5 else if b.toNat = 0xFE then 4 else if 0x80 ≤ b.toNat ∧ b.toNat ≤ 0xBF then 2 else 1 := by
  decide

/-- Settles O5: the length that decoding skips is a function of the first byte. -/
theorem opcodeLengthComesFromTheFirstByte : Obligations.OpcodeLengthComesFromTheFirstByte := by
  unfold Obligations.OpcodeLengthComesFromTheFirstByte
  intro b rest tail i h
  obtain ⟨-, -, htail⟩ := decode_cons_eq_ok_iff.mp h
  rw [← htail, opcodeLength_eq]

/-- The class of a byte as a range of its values (30_encoding R79). -/
theorem class_toNat (b : Byte) : (b.extractLsb' 6 2).toNat = b.toNat / 64 := by
  have hb := b.isLt
  rw [BitVec.extractLsb'_toNat, Nat.shiftRight_eq_div_pow]
  omega

/-- A byte below `0xFE` is neither of the two literal opcodes. -/
theorem ne_literal_of_lt {b : Byte} (h : b.toNat < 0xFE) : b ≠ 0xFE#8 ∧ b ≠ 0xFF#8 :=
  ⟨by rintro rfl; exact absurd h (by decide), by rintro rfl; exact absurd h (by decide)⟩

section Class
variable {f : Nat → Byte}

theorem decodeFrom_index (h : (f 0).toNat ≤ 0x3F) : ∃ slot, decodeFrom f = .index slot := by
  obtain ⟨hrgb, hrgba⟩ := ne_literal_of_lt (b := f 0) (by omega)
  have hclass : (f 0).extractLsb' 6 2 = 0#2 := BitVec.eq_of_toNat_eq (by rw [class_toNat]; simp; omega)
  exact ⟨_, by rw [decodeFrom, if_neg hrgb, if_neg hrgba, if_pos hclass]⟩

theorem decodeFrom_diff (hlo : 0x40 ≤ (f 0).toNat) (hhi : (f 0).toNat ≤ 0x7F) :
    ∃ dr dg db, decodeFrom f = .diff dr dg db := by
  obtain ⟨hrgb, hrgba⟩ := ne_literal_of_lt (b := f 0) (by omega)
  have hclass : (f 0).extractLsb' 6 2 = 1#2 := BitVec.eq_of_toNat_eq (by rw [class_toNat]; simp; omega)
  exact ⟨_, _, _, by rw [decodeFrom, if_neg hrgb, if_neg hrgba, if_neg (by rw [hclass]; decide), if_pos hclass]⟩

theorem decodeFrom_luma (hlo : 0x80 ≤ (f 0).toNat) (hhi : (f 0).toNat ≤ 0xBF) :
    ∃ vg drdg dbdg, decodeFrom f = .luma vg drdg dbdg := by
  obtain ⟨hrgb, hrgba⟩ := ne_literal_of_lt (b := f 0) (by omega)
  have hclass : (f 0).extractLsb' 6 2 = 2#2 := BitVec.eq_of_toNat_eq (by rw [class_toNat]; simp; omega)
  exact ⟨_, _, _, by rw [decodeFrom, if_neg hrgb, if_neg hrgba, if_neg (by rw [hclass]; decide),
    if_neg (by rw [hclass]; decide), if_pos hclass]⟩

theorem decodeFrom_run (hlo : 0xC0 ≤ (f 0).toNat) (hhi : (f 0).toNat ≤ 0xFD) : ∃ n, decodeFrom f = .run n := by
  obtain ⟨hrgb, hrgba⟩ := ne_literal_of_lt (b := f 0) (by omega)
  have hclass : (f 0).extractLsb' 6 2 = 3#2 := BitVec.eq_of_toNat_eq (by rw [class_toNat]; simp; omega)
  exact ⟨_, by rw [decodeFrom, if_neg hrgb, if_neg hrgba, if_neg (by rw [hclass]; decide),
    if_neg (by rw [hclass]; decide), if_neg (by rw [hclass]; decide)]⟩

theorem decodeFrom_rgb (h : (f 0).toNat = 0xFE) : ∃ r g b, decodeFrom f = .rgb r g b :=
  ⟨_, _, _, if_pos (BitVec.eq_of_toNat_eq h)⟩

theorem decodeFrom_rgba (h : (f 0).toNat = 0xFF) : ∃ r g b a, decodeFrom f = .rgba r g b a := by
  have hb : f 0 = 0xFF#8 := BitVec.eq_of_toNat_eq h
  exact ⟨_, _, _, _, (if_neg (by rw [hb]; decide)).trans (if_pos hb)⟩

end Class

/-- Settles O4: four bytes after it are enough for every first byte, and each range is the class of one opcode. -/
theorem everyFirstByteIsOneOpcode : Obligations.EveryFirstByteIsOneOpcode := by
  unfold Obligations.EveryFirstByteIsOneOpcode
  intro b rest hrest
  have hlen := Machine.opcodeLength_le b
  let f : Nat → Byte := fun k => (b :: rest).getD k 0
  exact ⟨_, _, decode_cons_eq_ok_iff.mpr ⟨by omega, rfl, rfl⟩, decodeFrom_index (f := f), decodeFrom_diff (f := f),
    decodeFrom_luma (f := f), decodeFrom_run (f := f), decodeFrom_rgb (f := f), decodeFrom_rgba (f := f)⟩

/-- Settles O1: each word is run through the decoder. -/
theorem specWordsDecodeToTheirOpcodes : Obligations.SpecWordsDecodeToTheirOpcodes := by
  unfold Obligations.SpecWordsDecodeToTheirOpcodes
  decide

/-! ### The assembler -/

/-- A line whose operands are out of range is refused (30_encoding R83). -/
theorem assemble_refuses {l : AsmLine} (h : ¬ l.wf = true) : assemble l = none :=
  (assemble_eq_none_iff l).mpr (Bool.eq_false_iff.mpr h)

/-- What a range test answers (00_scope R10). -/
theorem inRange_iff {lo hi v : Int} : inRange lo hi v = true ↔ lo ≤ v ∧ v ≤ hi := by
  simp [inRange]

/-- Settles O6: per line, the range test passes and the bytes are the encoding's, or it fails and the line is refused. -/
theorem assemblerRefusesOperandsOutOfRange : Obligations.AssemblerRefusesOperandsOutOfRange := by
  unfold Obligations.AssemblerRefusesOperandsOutOfRange
  refine ⟨fun r g b => ⟨fun hr hg hb => ?_, fun h => ?_⟩, fun r g b a => ⟨fun hr hg hb ha => ?_, fun h => ?_⟩,
    fun slot => ⟨fun hs => ?_, fun h => ?_⟩, fun dr dg db => ⟨fun hr0 hr1 hg0 hg1 hb0 hb1 => ?_, fun h => ?_⟩,
    fun vg drdg dbdg => ⟨fun hg0 hg1 hr0 hr1 hb0 hb1 => ?_, fun h => ?_⟩, fun k => ⟨fun h1 h62 => ?_, fun h => ?_⟩⟩
  · exact assemble_of_wf _ (by simp [AsmLine.wf, hr, hg, hb])
  · refine assemble_refuses ?_
    simp only [AsmLine.wf, Bool.and_eq_true, decide_eq_true_eq]
    omega
  · exact assemble_of_wf _ (by simp [AsmLine.wf, hr, hg, hb, ha])
  · refine assemble_refuses ?_
    simp only [AsmLine.wf, Bool.and_eq_true, decide_eq_true_eq]
    omega
  · rw [assemble_of_wf _ (by simpa [AsmLine.wf] using hs), AsmLine.bytes, encode_index_eq, BitVec.toNat_ofNat,
      Nat.mod_eq_of_lt (by omega)]
  · refine assemble_refuses ?_
    simp only [AsmLine.wf, decide_eq_true_eq]
    omega
  · rw [assemble_of_wf _ (by simp [AsmLine.wf, inRange_iff, *]), AsmLine.bytes, encode_diff_eq _ _ _ hr0 hr1 hg0 hg1 hb0 hb1]
  · refine assemble_refuses ?_
    simp only [AsmLine.wf, Bool.and_eq_true, inRange_iff]
    omega
  · rw [assemble_of_wf _ (by simp [AsmLine.wf, inRange_iff, *]), AsmLine.bytes, encode_luma_eq _ _ _ hg0 hg1 hr0 hr1 hb0 hb1]
  · refine assemble_refuses ?_
    simp only [AsmLine.wf, Bool.and_eq_true, inRange_iff]
    omega
  · rw [assemble_of_wf _ (by simp [AsmLine.wf, h1, h62]), AsmLine.bytes, encode_run_eq, BitVec.toNat_ofNat,
      Nat.mod_eq_of_lt (by omega)]
  · refine assemble_refuses ?_
    simp only [AsmLine.wf, Bool.and_eq_true, decide_eq_true_eq]
    omega

end Sys2Proof
end

section
/-! What a step that goes on does, as one inductive relation with a case per kind of event (60_exceptions R208 to R211, 70 R241). -/

namespace Sys2Proof.Machine

/-- Everything a host operation that answers a next state can do to the state. -/
inductive HostEffect (s : State) : HostOp → State → Prop where
  | startDec {v : Word} (idle : s.dec.ctl.state ≠ .busy) (cmd : lowByte v = 1) :
      HostEffect s (.writeReg .dec 0 v) s.decStart
  | startEnc {v : Word} (idle : s.enc.ctl.state ≠ .busy) (cmd : lowByte v = 1) :
      HostEffect s (.writeReg .enc 0 v) s.encStart
  | abortDec {v : Word} (busy : s.dec.ctl.state = .busy) (cmd : lowByte v = 2) :
      HostEffect s (.writeReg .dec 0 v) (s.setDec (s.dec.setCtl (s.dec.ctl.abort .none)))
  | abortEnc {v : Word} (busy : s.enc.ctl.state = .busy) (cmd : lowByte v = 2) :
      HostEffect s (.writeReg .enc 0 v) (s.setEnc (s.enc.setCtl (s.enc.ctl.abort .none)))
  | writeDec {no : Nat} {v x : Word} (idle : s.dec.ctl.state ≠ .busy) :
      HostEffect s (.writeReg .dec no v) (s.setDec { s.dec with inSize := x })
  | writeEnc {no : Nat} {v len w h : Word} {ch cs : Byte} (idle : s.enc.ctl.state ≠ .busy) :
      HostEffect s (.writeReg .enc no v)
        (s.setEnc { s.enc with pixLen := len, width := w, height := h, channels := ch, colorspace := cs })
  | putByte {k : Word} {b : Byte} (idle : s.dec.ctl.state ≠ .busy) :
      HostEffect s (.putByte k b) { s with decIn := Memory.write s.decIn k.toNat b }
  | putPixel {k : Word} {px : Pixel} (idle : s.enc.ctl.state ≠ .busy) :
      HostEffect s (.putPixel k px) { s with encPix := Memory.writePixel s.encPix k.toNat px }
  | answer {op : HostOp} {d : HostData} {k : Nat} : HostEffect s op { s with hostData := d, freeCtr := k }

/-- An operation without effect: what the host holds stays too. -/
theorem HostEffect.unchanged (s : State) (op : HostOp) : HostEffect s op s := .answer

section Effects
variable {s t : State}

theorem State.decCommand_effect {v : Word} (h : s.decCommand (lowByte v) = .next t) :
    HostEffect s (.writeReg .dec 0 v) t := by
  unfold State.decCommand at h
  split_ifs at h with hstart hbusy habort hbusy <;> cases h
  · exact .startDec hbusy hstart
  · exact .abortDec hbusy habort
  · exact .unchanged s _
  · exact .unchanged s _

theorem State.encCommand_effect {v : Word} (h : s.encCommand (lowByte v) = .next t) :
    HostEffect s (.writeReg .enc 0 v) t := by
  unfold State.encCommand at h
  split_ifs at h with hstart hbusy habort hbusy <;> cases h
  · exact .startEnc hbusy hstart
  · exact .abortEnc hbusy habort
  · exact .unchanged s _
  · exact .unchanged s _

theorem State.setDec_writeReg_effect {no : Nat} {v : Word} (hidle : s.dec.ctl.state ≠ .busy) :
    HostEffect s (.writeReg .dec no v) (s.setDec (s.dec.writeReg no v)) := by
  unfold Dec.writeReg
  split
  · exact .writeDec hidle
  · exact .unchanged s _

theorem State.setEnc_writeReg_effect {no : Nat} {v : Word} (hidle : s.enc.ctl.state ≠ .busy) :
    HostEffect s (.writeReg .enc no v) (s.setEnc (s.enc.writeReg no v)) := by
  unfold Enc.writeReg
  split <;> exact .writeEnc hidle

theorem State.hostWrite_effect {e : Engine} {no : Nat} {v : Word} (h : s.hostWrite e no v = .next t) :
    HostEffect s (.writeReg e no v) t := by
  cases e with
  | dec =>
    simp only [State.hostWrite] at h
    split_ifs at h with hno hbusy
    · subst hno; exact State.decCommand_effect h
    · cases h; exact .unchanged s _
    · cases h; exact State.setDec_writeReg_effect hbusy
  | enc =>
    simp only [State.hostWrite] at h
    split_ifs at h with hno hbusy
    · subst hno; exact State.encCommand_effect h
    · cases h; exact .unchanged s _
    · cases h; exact State.setEnc_writeReg_effect hbusy

/-- A read, which is refused or faults (`stop`) or answers, has the effect of an answer. -/
theorem HostEffect.of_read {op : HostOp} {o stop : Outcome}
    (ho : o = stop ∨ ∃ d k, o = .next { s with hostData := d, freeCtr := k }) (hstop : stop ≠ .next t) (h : o = .next t) :
    HostEffect s op t := by
  rcases ho with ho | ⟨d, k, ho⟩ <;> rw [ho] at h
  · exact absurd h hstop
  · cases h; exact .answer

theorem State.hostStep_effect {op : HostOp} (h : s.hostStep op = .next t) : HostEffect s op t := by
  cases op with
  | writeReg e no v => exact State.hostWrite_effect h
  | readReg e no => exact .of_read (s.hostRead_cases e no) nofun h
  | putByte k b =>
    simp only [State.hostStep] at h
    split_ifs at h with hbusy
    cases h; exact .putByte hbusy
  | putPixel k px =>
    simp only [State.hostStep] at h
    split_ifs at h with hbusy
    cases h; exact .putPixel hbusy
  | readPixel k => exact .of_read (s.readOutPixel_cases k) nofun h
  | readByte k => exact .of_read (s.readOutByte_cases k) nofun h

end Effects

/-- Everything a step from `s` that answers a next state can do; `r` is what is left of the agenda. -/
inductive StepEffect (s : State) (r : List Event) : State → Prop where
  | slot {t : State} {px : Pixel} {len : Nat} {run : BitVec 6} (busy : s.dec.ctl.state = .busy) (left : s.dec.i < s.dec.n)
      (ran : SlotRan { s with agenda := r } t px len run) (short : len ≤ 5)
      (fetched : len ≠ 0 → s.dec.p < s.dec.chunkEnd) (limit : s.dec.run ≤ 61#6 → run ≤ 61#6) : StepEffect s r t
  | overrun {t : State} {k : Nat} (busy : s.dec.ctl.state = .busy) (policy : s.cfg.operandPastChunk = .fault)
      (overran : SlotOverran { s with agenda := r } t (s.dec.p + BitVec.ofNat 32 (1 + k))) : StepEffect s r t
  | encode (busy : s.enc.ctl.state = .busy) : StepEffect s r (State.encStep { s with agenda := r })
  | idle : StepEffect s r { s with agenda := r }
  | host {op : HostOp} {t : State} (next : s.agenda = .host op :: r) (effect : HostEffect { s with agenda := r } op t) :
      StepEffect s r t

theorem step_effect {s t : State} (h : step s = .next t) : ∃ r, StepEffect s r t := by
  obtain ⟨r, ⟨hbusy, hleft, hslot⟩ | ⟨hbusy, rfl⟩ | rfl | ⟨op, hnext, hhost⟩⟩ := step_next_cases s t h
  · rcases State.slotStep_cases { s with agenda := r } with
      ⟨t', px, len, run, ht', hran, hshort, hfetched, hlimit⟩ | ⟨t', k, -, hpolicy, -, ht', hover, -⟩ <;>
      cases hslot.symm.trans ht'
    · exact ⟨r, .slot hbusy hleft hran hshort (fun h0 => (hfetched h0).2) hlimit⟩
    · exact ⟨r, .overrun hbusy hpolicy hover⟩
  · exact ⟨r, .encode hbusy⟩
  · exact ⟨r, .idle⟩
  · exact ⟨r, .host hnext (State.hostStep_effect hhost)⟩

/-- A host operation leaves the parameters (log 1). -/
theorem HostEffect.cfg {s t : State} {op : HostOp} (h : HostEffect s op t) : t.cfg = s.cfg := by
  cases h with
  | startDec => exact s.decStart_frame.1.cfg
  | startEnc => exact s.encStart_frame.1.cfg
  | _ => rfl

/-- Settles O56: no kind of event writes the parameters. -/
theorem parametersNeverChange : Obligations.ParametersNeverChange := by
  unfold Obligations.ParametersNeverChange
  intro s t hstep
  obtain ⟨r, heffect⟩ := step_effect hstep
  cases heffect with
  | slot busy left ran => exact ran.done.only.cfg
  | overrun busy policy overran => exact overran.only.cfg
  | encode => exact (State.encStep_frame { s with agenda := r }).1.cfg
  | idle => rfl
  | host next effect => exact effect.cfg

/-! ### How a pass of DEC ends -/

/-- The low byte of a word, as a number (log 9). -/
theorem lowByte_eq_iff (v : Word) (b : Byte) : lowByte v = b ↔ v.toNat % 256 = b.toNat := by
  rw [← BitVec.toNat_inj, lowByte, BitVec.toNat_setWidth]

/-- Only an ABORT ends a pass of DEC by a host operation. -/
theorem HostEffect.ends_decoder_pass {s t : State} {op : HostOp} (h : HostEffect s op t) (hbusy : s.dec.ctl.state = .busy)
    (hend : t.dec.ctl.state ≠ .busy) :
    t.dec.ctl.state = .aborted ∧ t.dec.ctl.cause = .none ∧ ∃ v, op = .writeReg .dec 0 v ∧ v.toNat % 256 = 2 := by
  cases h with
  | startDec idle => exact absurd hbusy idle
  | startEnc => rw [s.encStart_frame.1.dec] at hend; exact absurd hbusy hend
  | abortDec _ cmd => exact ⟨rfl, rfl, _, rfl, (lowByte_eq_iff _ _).mp cmd⟩
  | writeDec idle => exact absurd hbusy idle
  | _ => exact absurd hbusy hend

/-- Settles O23: a slot step ends the pass at its last slot, an overrun in ERROR, and of the rest only ABORT ends it. -/
theorem onlyThreeEventsEndADecoderPass : Obligations.OnlyThreeEventsEndADecoderPass := by
  unfold Obligations.OnlyThreeEventsEndADecoderPass
  intro s t hbusy hstep hend
  obtain ⟨r, heffect⟩ := step_effect hstep
  cases heffect with
  | slot _ _ ran =>
    have hlast : s.dec.i + 1 = s.dec.n := by
      by_contra hmore
      exact hend ((ran.done.goes_on hmore).trans hbusy)
    exact .inl ⟨ran.done.ends hlast, ran.done.i.trans (hlast.trans ran.done.keeps.n.symm)⟩
  | overrun _ policy overran => exact .inr (.inl ⟨overran.state, overran.cause, policy⟩)
  | encode =>
    rw [(State.encStep_frame { s with agenda := r }).1.dec] at hend
    exact absurd hbusy hend
  | idle => exact absurd hbusy hend
  | host next effect =>
    obtain ⟨hstate, hcause, v, rfl, hv⟩ := effect.ends_decoder_pass hbusy hend
    exact .inr (.inr ⟨hstate, hcause, v, r, next, hv⟩)

/-! ### What stays while a pass runs -/

/-- No host operation changes the inputs of a BUSY DEC. -/
theorem HostEffect.dec_inputs {s t : State} {op : HostOp} (h : HostEffect s op t) (hbusy : s.dec.ctl.state = .busy) :
    t.decIn = s.decIn ∧ t.dec.inSize = s.dec.inSize := by
  cases h with
  | startDec idle => exact absurd hbusy idle
  | startEnc =>
    obtain ⟨honly, -⟩ := s.encStart_frame
    exact ⟨honly.decIn, congrArg (·.inSize) honly.dec⟩
  | writeDec idle => exact absurd hbusy idle
  | putByte idle => exact absurd hbusy idle
  | _ => exact ⟨rfl, rfl⟩

/-- The registers of ENC that START reads (43_encoder R185). -/
structure SameSetup (e e' : Enc) : Prop where
  pixLen : e'.pixLen = e.pixLen
  width : e'.width = e.width
  height : e'.height = e.height
  channels : e'.channels = e.channels
  colorspace : e'.colorspace = e.colorspace

theorem SameSetup.refl (e : Enc) : SameSetup e e := ⟨rfl, rfl, rfl, rfl, rfl⟩

theorem SameSetup.of_eq {e e' : Enc} (h : e' = e) : SameSetup e e' := h ▸ .refl e

theorem EncKeeps.sameSetup {e e' : Enc} (h : EncKeeps e e') : SameSetup e e' :=
  ⟨h.pixLen, h.width, h.height, h.channels, h.colorspace⟩

/-- No host operation changes the inputs of a BUSY ENC. -/
theorem HostEffect.enc_inputs {s t : State} {op : HostOp} (h : HostEffect s op t) (hbusy : s.enc.ctl.state = .busy) :
    t.encPix = s.encPix ∧ SameSetup s.enc t.enc := by
  cases h with
  | startDec =>
    obtain ⟨honly, -⟩ := s.decStart_frame
    exact ⟨honly.encPix, .of_eq honly.enc⟩
  | startEnc idle => exact absurd hbusy idle
  | writeEnc idle => exact absurd hbusy idle
  | putPixel idle => exact absurd hbusy idle
  | _ => exact ⟨rfl, ⟨rfl, rfl, rfl, rfl, rfl⟩⟩

theorem step_keeps_dec_inputs {s t : State} (hstep : step s = .next t) (hbusy : s.dec.ctl.state = .busy) :
    t.decIn = s.decIn ∧ t.dec.inSize = s.dec.inSize := by
  obtain ⟨r, heffect⟩ := step_effect hstep
  cases heffect with
  | slot _ _ ran => exact ⟨ran.done.only.decIn, ran.done.keeps.inSize⟩
  | overrun _ _ overran => exact ⟨overran.only.decIn, overran.keeps.inSize⟩
  | encode =>
    obtain ⟨honly, -⟩ := State.encStep_frame { s with agenda := r }
    exact ⟨honly.decIn, congrArg (·.inSize) honly.dec⟩
  | idle => exact ⟨rfl, rfl⟩
  | host next effect => exact effect.dec_inputs hbusy

theorem step_keeps_enc_inputs {s t : State} (hstep : step s = .next t) (hbusy : s.enc.ctl.state = .busy) :
    t.encPix = s.encPix ∧ SameSetup s.enc t.enc := by
  obtain ⟨r, heffect⟩ := step_effect hstep
  cases heffect with
  | slot _ _ ran => exact ⟨ran.done.only.encPix, .of_eq ran.done.only.enc⟩
  | overrun _ _ overran => exact ⟨overran.only.encPix, .of_eq overran.only.enc⟩
  | encode =>
    obtain ⟨honly, -⟩ := State.encStep_frame { s with agenda := r }
    exact ⟨honly.encPix, (State.encStep_keeps { s with agenda := r }).sameSetup⟩
  | idle => exact ⟨rfl, .refl _⟩
  | host next effect => exact effect.enc_inputs hbusy

/-- Settles O49: every kind of event keeps the inputs of a BUSY engine; a write to an input space is refused, or is one write
of the memory. -/
theorem inputsAreFixedDuringAPass : Obligations.InputsAreFixedDuringAPass := by
  unfold Obligations.InputsAreFixedDuringAPass
  refine ⟨fun s t hstep => ⟨step_keeps_dec_inputs hstep, fun hbusy => ?_⟩, fun s rest k b px =>
    ⟨fun hnext => ?_, fun hnext => ?_⟩⟩
  · obtain ⟨hpix, hsetup⟩ := step_keeps_enc_inputs hstep hbusy
    exact ⟨hpix, hsetup.pixLen, hsetup.width, hsetup.height, hsetup.channels, hsetup.colorspace⟩
  · rw [step_host s _ rest hnext]
    exact ⟨fun hbusy => if_pos hbusy, fun hidle => ⟨_, if_neg hidle, fun a => Memory.read_write _ _ _ _⟩⟩
  · rw [step_host s _ rest hnext]
    exact ⟨fun hbusy => if_pos hbusy, fun hidle => ⟨_, if_neg hidle, fun j => Memory.readPixel_writePixel _ _ _ _⟩⟩

/-! ### What stays when no pass runs -/

/-- A host operation other than START leaves a DEC that is not BUSY as it is, but for the size register. -/
theorem HostEffect.dec_rests {s t : State} {op : HostOp} (h : HostEffect s op t) (hidle : s.dec.ctl.state ≠ .busy)
    (hstart : ∀ v, op = .writeReg .dec 0 v → v.toNat % 256 ≠ 1) :
    t.dec = { s.dec with inSize := t.dec.inSize } ∧ t.decOut = s.decOut := by
  cases h with
  | startDec _ cmd => exact absurd ((lowByte_eq_iff _ _).mp cmd) (hstart _ rfl)
  | startEnc =>
    obtain ⟨honly, -⟩ := s.encStart_frame
    rw [honly.dec]
    exact ⟨rfl, honly.decOut⟩
  | abortDec busy => exact absurd busy hidle
  | _ => exact ⟨rfl, rfl⟩

/-- The status, the pass-local registers and the output space of ENC (60_exceptions R208). -/
structure EncRests (s t : State) : Prop where
  ctl : t.enc.ctl = s.enc.ctl
  px : t.enc.px = s.enc.px
  pxPrev : t.enc.pxPrev = s.enc.pxPrev
  run : t.enc.run = s.enc.run
  i : t.enc.i = s.enc.i
  n : t.enc.n = s.enc.n
  cache : t.enc.cache = s.enc.cache
  encBytes : t.encBytes = s.encBytes

theorem EncRests.of_agenda {s t : State} {r : List Event} (h : EncRests { s with agenda := r } t) : EncRests s t :=
  ⟨h.ctl, h.px, h.pxPrev, h.run, h.i, h.n, h.cache, h.encBytes⟩

theorem DecOnly.encRests {s t : State} (h : DecOnly s t) : EncRests s t := by
  refine ⟨?_, ?_, ?_, ?_, ?_, ?_, ?_, h.encBytes⟩ <;> rw [h.enc]

/-- A host operation other than START leaves an ENC that is not BUSY as it is, but for the registers the host writes. -/
theorem HostEffect.enc_rests {s t : State} {op : HostOp} (h : HostEffect s op t) (hidle : s.enc.ctl.state ≠ .busy)
    (hstart : ∀ v, op = .writeReg .enc 0 v → v.toNat % 256 ≠ 1) : EncRests s t := by
  cases h with
  | startDec => exact s.decStart_frame.1.encRests
  | startEnc _ cmd => exact absurd ((lowByte_eq_iff _ _).mp cmd) (hstart _ rfl)
  | abortEnc busy => exact absurd busy hidle
  | _ => exact ⟨rfl, rfl, rfl, rfl, rfl, rfl, rfl, rfl⟩

/-- Settles O55: an engine that is not BUSY takes no step of its own, the other engine's steps leave it, and so does every host
operation but START. -/
theorem onlyStartLeavesAnEndedPass : Obligations.OnlyStartLeavesAnEndedPass := by
  unfold Obligations.OnlyStartLeavesAnEndedPass
  intro s t hstep
  obtain ⟨r, heffect⟩ := step_effect hstep
  refine ⟨fun hidle hstart => ?_, fun hidle hstart => ?_⟩
  · cases heffect with
    | slot busy => exact absurd busy hidle
    | overrun busy => exact absurd busy hidle
    | encode =>
      obtain ⟨honly, -⟩ := State.encStep_frame { s with agenda := r }
      rw [honly.dec]
      exact ⟨rfl, honly.decOut⟩
    | idle => exact ⟨rfl, rfl⟩
    | host next effect => exact effect.dec_rests hidle fun v hop => hstart v r (hop ▸ next)
  · have hrests : EncRests s t := by
      cases heffect with
      | slot _ _ ran => exact ran.done.only.encRests.of_agenda
      | overrun _ _ overran => exact overran.only.encRests.of_agenda
      | encode busy => exact absurd busy hidle
      | idle => exact ⟨rfl, rfl, rfl, rfl, rfl, rfl, rfl, rfl⟩
      | host next effect => exact (effect.enc_rests hidle fun v hop => hstart v r (hop ▸ next)).of_agenda
    exact ⟨hrests.ctl, hrests.px, hrests.pxPrev, hrests.run, hrests.i, hrests.n, hrests.cache, hrests.encBytes⟩

end Sys2Proof.Machine
end

section
/-! The pixel step of the encoder as one inductive relation, a case per path (43_encoder R172 to R181). -/

namespace Sys2Proof.Machine

section Encoded
variable (s : State) (px : Pixel) (bs : List Byte) (run : BitVec 6) (cache : Cache)

@[simp] theorem State.encoded_enc : (s.encoded px bs run cache).enc =
    { s.enc with
      ctl := { s.enc.ctl with outCount := s.enc.ctl.outCount + BitVec.ofNat 32 bs.length }
      px := px, pxPrev := px, i := s.enc.i + 1, run := run, cache := cache } := by rw [State.encoded_eq]

end Encoded

/-- What a pixel step does: a run pixel is counted, or counted and flushed; a changed pixel hits the cache or misses it. -/
inductive PixelEffect (s : State) : State → Prop where
  | counted (same : Memory.readPixel s.encPix s.enc.i.toNat = s.enc.pxPrev) (below : s.enc.run + 1 ≠ runMax)
      (more : s.enc.i ≠ s.enc.n - 1) : PixelEffect s (s.encoded s.enc.pxPrev [] (s.enc.run + 1) s.enc.cache)
  | flushed (same : Memory.readPixel s.encPix s.enc.i.toNat = s.enc.pxPrev) :
      PixelEffect s (s.encoded s.enc.pxPrev (encode (.run s.enc.run)) 0 s.enc.cache)
  | hit {px : Pixel} (read : Memory.readPixel s.encPix s.enc.i.toNat = px) (changed : px ≠ s.enc.pxPrev)
      (held : Cache.lookup s.enc.cache (slotOf s.cfg.hashW px) = px) :
      PixelEffect s (s.encoded px (pendingBytes s.enc.run ++ encode (.index (slotOf s.cfg.hashW px))) 0 s.enc.cache)
  | miss {px : Pixel} (read : Memory.readPixel s.encPix s.enc.i.toNat = px) (changed : px ≠ s.enc.pxPrev) :
      PixelEffect s (s.encoded px (pendingBytes s.enc.run ++ encode (selectOnMiss px s.enc.pxPrev)) 0
        (Cache.update s.enc.cache s.cfg.hashW px))

theorem State.pixelStep_effect (s : State) : PixelEffect s s.pixelStep := by
  by_cases hsame : Memory.readPixel s.encPix s.enc.i.toNat = s.enc.pxPrev
  · rw [State.pixelStep_run s hsame]
    split_ifs with hflush
    · exact .flushed hsame
    · rw [not_or] at hflush
      exact .counted hsame hflush.1 hflush.2
  · rw [State.pixelStep_changed s _ rfl hsame]
    split_ifs with hhit
    · exact .hit rfl hsame ((Cache.hit_iff _ _ _).mp hhit)
    · exact .miss rfl hsame

end Sys2Proof.Machine
end

section
/-! The invariant of the block (10_state, 40_hash_cache R108, 42_decoder R155, 43_encoder R186, R187): it holds after reset, and
every kind of step keeps it. -/

namespace Sys2Proof.Machine

/-! ### The cache -/

theorem CacheSound.clear (w : Weights) : CacheSound w Cache.clear := fun k => .inl (Cache.lookup_clear k)

theorem CacheSound.update {w : Weights} {c : Cache} (h : CacheSound w c) (px : Pixel) :
    CacheSound w (Cache.update c w px) := by
  intro k
  rw [Cache.lookup_update]
  split_ifs with hk
  · exact .inr hk.symm
  · exact h k

/-! ### A pass of DEC -/

/-- A counter below its end moves on without wrapping. -/
theorem toNat_add_one_of_lt {i n : Word} (h : i < n) : (i + 1).toNat = i.toNat + 1 := by
  bv_omega

/-- Inside the region the offsets of an opcode's bytes do not wrap (42_decoder R155). -/
theorem DecPass.cursor_add {w : Weights} {d : Dec} (h : DecPass w d) (hp : d.p < d.chunkEnd) {k : Nat} (hk : k ≤ 5) :
    (d.p + BitVec.ofNat 32 k).toNat = d.p.toNat + k ∧ d.p.toNat + k + 4 ≤ d.size.toNat := by
  have hregion := h.region
  have hsize := d.size.isLt
  rw [BitVec.lt_def] at hp
  rw [BitVec.toNat_add, BitVec.toNat_ofNat]
  omega

/-- A slot step that is not the last leaves DEC in its pass. -/
theorem DecPass.next_slot {s t : State} {px : Pixel} {len : Nat} {run : BitVec 6} (h : DecPass s.cfg.hashW s.dec)
    (hran : SlotRan s t px len run) (hshort : len ≤ 5) (hfetched : len ≠ 0 → s.dec.p < s.dec.chunkEnd) (hrun : run ≤ 61#6)
    (hmore : s.dec.i + 1 ≠ s.dec.n) : DecPass s.cfg.hashW t.dec := by
  have hdone := hran.done
  have hkeeps := hdone.keeps
  have hcursor : t.dec.p.toNat = s.dec.p.toNat + len ∧ s.dec.p.toNat + len + 4 ≤ s.dec.size.toNat := by
    rw [hdone.cursor]
    by_cases h0 : len = 0
    · have hhigh := h.cursor_high
      subst h0
      simpa using hhigh
    · exact h.cursor_add (hfetched h0) hshort
  obtain ⟨hp, hhigh⟩ := hcursor
  have hlow := h.cursor_low
  have hleft := h.slot_left
  exact {
    size_fixed := by rw [hkeeps.size, hkeeps.inSize, h.size_fixed]
    size_min := by rw [hkeeps.size]; exact h.size_min
    region := by rw [hkeeps.size, hkeeps.chunkEnd]; exact h.region
    cursor_low := by omega
    cursor_high := by rw [hkeeps.size]; omega
    dims := by rw [hkeeps.width, hkeeps.height]; exact h.dims
    channels := by rw [hkeeps.channels]; exact h.channels
    slots := by rw [hkeeps.n, hkeeps.width, hkeeps.height]; exact h.slots
    slot_left := by rw [hkeeps.n, hdone.i]; bv_omega
    count := by rw [hdone.outCount, hdone.i]
    run_max := by rw [hdone.runLeft]; exact hrun
    cache := by rw [hran.cache]; exact h.cache.update px }

/-- While DEC is BUSY it has no cause. -/
theorem DecInv.cause_none {w : Weights} {d : Dec} (h : DecInv w d) (hbusy : d.ctl.state = .busy) : d.ctl.cause = .none := by
  by_contra hcause
  have herror := h.cause_iff_error.mp hcause
  rw [hbusy] at herror
  cases herror

/-- A slot step of a pass keeps what holds of DEC, at its last slot too. -/
theorem DecInv.next_slot {s t : State} {px : Pixel} {len : Nat} {run : BitVec 6} (h : DecInv s.cfg.hashW s.dec)
    (hbusy : s.dec.ctl.state = .busy) (hran : SlotRan s t px len run) (hshort : len ≤ 5)
    (hfetched : len ≠ 0 → s.dec.p < s.dec.chunkEnd) (hrun : s.dec.run ≤ 61#6 → run ≤ 61#6) : DecInv s.cfg.hashW t.dec := by
  have hpass := h.pass hbusy
  have hdone := hran.done
  have hcause : t.dec.ctl.cause = .none := hdone.cause.trans (h.cause_none hbusy)
  by_cases hlast : s.dec.i + 1 = s.dec.n
  · have hstate := hdone.ends hlast
    refine ⟨by simp [hcause, hstate], ?_, by simp [hstate], fun _ => ⟨?_, ?_, ?_⟩⟩
    · rw [hdone.errInfo, hdone.cause]
      exact h.info_only_overrun
    · rw [hdone.i, hlast, hdone.keeps.n]
    · rw [hdone.outCount, hlast, hdone.keeps.n]
    · rw [hdone.keeps.n, hdone.keeps.width, hdone.keeps.height]
      exact hpass.slots
  · have hstate := (hdone.goes_on hlast).trans hbusy
    refine ⟨by simp [hcause, hstate], ?_, fun _ => ?_, by simp [hstate]⟩
    · rw [hdone.errInfo, hdone.cause]
      exact h.info_only_overrun
    · exact hpass.next_slot hran hshort hfetched (hrun hpass.run_max) hlast

/-- An engine in ERROR with a cause, and with error info only on an overrun, meets what holds of DEC. -/
theorem DecInv.of_error {w : Weights} {d : Dec} (hstate : d.ctl.state = .error) (hcause : d.ctl.cause ≠ .none)
    (hinfo : d.ctl.errInfo ≠ 0 → d.ctl.cause = .overrun) : DecInv w d :=
  ⟨by simp [hstate, hcause], hinfo, by simp [hstate], by simp [hstate]⟩

/-- START of DEC on an accepted header begins a pass (41_header R129). -/
theorem DecPass.of_accept {s : State} {h : Header} (hc : headerCause s.dec.inSize h = .none) :
    DecPass s.cfg.hashW (s.beginDec.dec.accept h) := by
  obtain ⟨hsize, -, hdims, hch⟩ := (headerCause_none_iff _ _).mp hc
  obtain ⟨hmul, -, hpos⟩ := hdims.bounds
  have hend : (s.dec.inSize - 8).toNat = s.dec.inSize.toNat - 8 := by bv_omega
  exact {
    size_fixed := rfl
    size_min := hsize
    region := by rw [Dec.accept_chunkEnd, Dec.accept_size, State.beginDec_dec_size, hend]; omega
    cursor_low := le_refl 14
    cursor_high := (show 14 + 4 ≤ s.dec.inSize.toNat by omega)
    dims := hdims
    channels := hch
    slots := hmul
    slot_left := by rw [Dec.accept_i, Dec.accept_n, BitVec.lt_def, hmul]; exact hpos
    count := rfl
    run_max := by rw [Dec.accept_run, State.beginDec_dec_run]; decide
    cache := .clear _ }

theorem DecInv.decStart (s : State) : DecInv s.cfg.hashW s.decStart.dec := by
  rcases s.decStart_cases with ⟨hc, e⟩ | ⟨hc, e⟩ <;> rw [e]
  · exact ⟨by simp, by simp, fun _ => .of_accept hc, by simp⟩
  · exact .of_error rfl hc (by simp)

/-! ### A pass of ENC -/

/-- The bytes that a pass still has room for: every pixel costs at most five (43_encoder R187). -/
theorem EncPass.count_le {w : Weights} {e : Enc} (h : EncPass w e) : e.ctl.outCount.toNat + 5 * e.run.toNat ≤ 14 + 5 * e.i.toNat ∧
    e.i.toNat ≤ e.n.toNat ∧ e.n.toNat ≤ 400000000 := by
  obtain ⟨-, hbound, -⟩ := h.ready.dims.bounds
  have hslots := h.slots
  unfold pixelsMax at hbound
  exact ⟨h.at_most, h.index, by omega⟩

/-- A pixel step that appends `bs` and leaves `run` pending keeps the pass: the bytes and the pending run account for the pixel,
in both bounds (43_encoder R186, R187). -/
theorem EncPass.encoded {s : State} (h : EncPass s.cfg.hashW s.enc) (hleft : s.enc.i < s.enc.n) {px : Pixel} {bs : List Byte}
    {run : BitVec 6} {cache : Cache} (hrun : run ≤ 61#6) (hend : s.enc.i + 1 = s.enc.n → run = 0)
    (hmost : bs.length + 5 * run.toNat ≤ 5 + 5 * s.enc.run.toNat)
    (hleast : s.enc.run.toNat + 1 ≤ 62 * bs.length + run.toNat) (hcache : CacheSound s.cfg.hashW cache) :
    EncPass s.cfg.hashW (s.encoded px bs run cache).enc := by
  obtain ⟨hcount, -, hn⟩ := h.count_le
  have hleast' := h.at_least
  have hheader := h.header_out
  have hi := toNat_add_one_of_lt hleft
  have hleft' := BitVec.lt_def.mp hleft
  have hout : (s.enc.ctl.outCount + BitVec.ofNat 32 bs.length).toNat = s.enc.ctl.outCount.toNat + bs.length := by
    rw [BitVec.toNat_add, BitVec.toNat_ofNat]
    omega
  rw [State.encoded_enc]
  exact {
    ready := ⟨h.ready.dims, h.ready.channels, h.ready.colorspace, h.ready.len⟩
    slots := h.slots
    index := by rw [BitVec.le_def, hi]; exact hleft'
    run_max := hrun
    no_run_left := hend
    header_out := by simp only [hout]; omega
    at_most := by simp only [hout, hi]; omega
    at_least := by simp only [hout, hi]; omega
    cache := hcache }

/-- A pending run costs at most one byte, and none when there is no run. -/
theorem pendingBytes_length_le (run : BitVec 6) :
    (pendingBytes run).length ≤ run.toNat ∧ (pendingBytes run).length ≤ 1 := by
  revert run; decide

/-- The bytes of a changed pixel account for it and for the run pending before it. -/
theorem changed_bytes_bounds {run : BitVec 6} (hrun : run ≤ 61#6) (i : Instr) :
    (pendingBytes run ++ encode i).length ≤ 5 + 5 * run.toNat ∧ run.toNat + 1 ≤ 62 * (pendingBytes run ++ encode i).length := by
  have hpending := (pendingBytes_length_le run).1
  have hmost := encode_length_le i
  have hleast := List.length_pos_iff.mpr (encode_ne_nil i)
  have hrun' : run.toNat ≤ 61 := hrun
  rw [List.length_append]
  omega

/-- Every pixel step keeps the pass. -/
theorem EncPass.pixelStep {s : State} (h : EncPass s.cfg.hashW s.enc) (hleft : s.enc.i < s.enc.n) :
    EncPass s.cfg.hashW s.pixelStep.enc := by
  have hrun := h.run_max
  have hcount : s.enc.run + 1 ≠ runMax → (s.enc.run + 1).toNat = s.enc.run.toNat + 1 ∧ s.enc.run + 1 ≤ 61#6 := by
    unfold runMax
    bv_omega
  have hrun' : s.enc.run.toNat ≤ 61 := hrun
  have heffect := s.pixelStep_effect
  generalize s.pixelStep = t at heffect ⊢
  cases heffect with
  | counted same below more =>
    obtain ⟨hnat, hle⟩ := hcount below
    refine h.encoded hleft hle (fun hlast => absurd ?_ more) ?_ ?_ h.cache
    · rw [← hlast, BitVec.add_sub_cancel]
    · rw [hnat, List.length_nil]; omega
    · rw [hnat, List.length_nil]; omega
  | flushed =>
    rw [encode_run_eq]
    refine h.encoded hleft (by decide) (fun _ => rfl) ?_ ?_ h.cache
    · rw [List.length_singleton]; bv_omega
    · rw [List.length_singleton]; bv_omega
  | hit =>
    obtain ⟨hmost, hleast⟩ := changed_bytes_bounds hrun _
    exact h.encoded hleft (by decide) (fun _ => rfl) hmost hleast h.cache
  | miss =>
    obtain ⟨hmost, hleast⟩ := changed_bytes_bounds hrun _
    exact h.encoded hleft (by decide) (fun _ => rfl) hmost hleast (h.cache.update _)

/-- START of ENC with every precondition met begins a pass, the header emitted (70 R231, 41_header R133). -/
theorem EncPass.encStart {s : State} (hr : EncReady s.enc) : EncPass s.cfg.hashW s.encStart.enc := by
  obtain ⟨hmul, -, hpos⟩ := hr.dims.bounds
  rw [State.encStart_of_ready s hr, State.emitBytes_enc]
  exact {
    ready := ⟨hr.dims, hr.channels, hr.colorspace, hr.len⟩
    slots := hmul
    index := Nat.zero_le _
    run_max := Nat.zero_le _
    no_run_left := fun _ => rfl
    header_out := le_refl 14
    at_most := le_refl 14
    at_least := le_refl 868
    cache := .clear _ }

/-- While ENC is BUSY it has no cause. -/
theorem EncInv.cause_none {w : Weights} {e : Enc} (h : EncInv w e) (hbusy : e.ctl.state = .busy) : e.ctl.cause = .none := by
  by_contra hcause
  have herror := h.cause_iff_error.mp hcause
  rw [hbusy] at herror
  cases herror

/-- A step of ENC leaves it BUSY with a pixel left before it, and DONE without. -/
theorem State.encStep_state (s : State) :
    s.encStep.enc.ctl.state = if s.enc.i < s.enc.n then s.enc.ctl.state else .done := by
  unfold State.encStep
  split_ifs
  · have heffect := s.pixelStep_effect
    generalize s.pixelStep = t at heffect ⊢
    cases heffect <;> rw [State.encoded_enc]
  · rw [State.paddingStep_eq]
    rfl

theorem EncInv.encStep {s : State} (h : EncInv s.cfg.hashW s.enc) (hbusy : s.enc.ctl.state = .busy) :
    EncInv s.cfg.hashW s.encStep.enc := by
  have hkeeps := s.encStep_keeps
  have hcause : s.encStep.enc.ctl.cause = .none := hkeeps.cause.trans (h.cause_none hbusy)
  refine ⟨?_, hkeeps.errInfo.trans h.info_zero, fun hstill => ?_⟩
  · rw [s.encStep_state, hbusy, hcause]
    split_ifs <;> simp
  · rw [s.encStep_state] at hstill
    split_ifs at hstill with hleft
    rw [State.encStep, if_pos hleft]
    exact (h.pass hbusy).pixelStep hleft

theorem EncInv.encStart (s : State) : EncInv s.cfg.hashW s.encStart.enc := by
  by_cases hr : EncReady s.enc
  · refine ⟨?_, ?_, fun _ => .encStart hr⟩ <;> rw [State.encStart_of_ready s hr, State.emitBytes_enc]
    · exact ⟨fun h => absurd rfl h, nofun⟩
    · rfl
  · have hcause : encCause s.enc ≠ .none := mt (encCause_none_iff _).mp hr
    rw [State.encStart, if_neg hcause]
    exact ⟨by simpa using hcause, rfl, by simp⟩

/-! ### The block -/

/-- The invariant does not speak of the agenda. -/
theorem State.Inv.moveOn {s : State} (h : s.Inv) (r : List Event) : State.Inv { s with agenda := r } :=
  ⟨h.decIn, h.decOut, h.encPix, h.encBytes, h.dec, h.enc⟩

/-- A step that touches DEC and its output space alone keeps the invariant when it keeps their part. -/
theorem State.Inv.of_decOnly {s t : State} (h : s.Inv) (honly : DecOnly s t) (hout : Memory.wf t.decOut)
    (hdec : DecInv s.cfg.hashW t.dec) : t.Inv where
  decIn := by rw [honly.decIn]; exact h.decIn
  decOut := hout
  encPix := by rw [honly.encPix]; exact h.encPix
  encBytes := by rw [honly.encBytes]; exact h.encBytes
  dec := by rw [honly.cfg]; exact hdec
  enc := by rw [honly.cfg, honly.enc]; exact h.enc

/-- A step that touches ENC and its output space alone keeps the invariant when it keeps their part. -/
theorem State.Inv.of_encOnly {s t : State} (h : s.Inv) (honly : EncOnly s t) (hout : Memory.wf t.encBytes)
    (henc : EncInv s.cfg.hashW t.enc) : t.Inv where
  decIn := by rw [honly.decIn]; exact h.decIn
  decOut := by rw [honly.decOut]; exact h.decOut
  encPix := by rw [honly.encPix]; exact h.encPix
  encBytes := hout
  dec := by rw [honly.cfg, honly.dec]; exact h.dec
  enc := by rw [honly.cfg]; exact henc

/-- An aborted pass leaves nothing to meet but that it has no cause (60_exceptions R211). -/
theorem DecInv.abort {w : Weights} {d : Dec} (h : DecInv w d) (hbusy : d.ctl.state = .busy) :
    DecInv w (d.setCtl (d.ctl.abort .none)) := by
  have hinfo : d.ctl.errInfo = 0 := by
    by_contra hne
    have hcause := h.info_only_overrun hne
    rw [h.cause_none hbusy] at hcause
    cases hcause
  exact ⟨by simp, by simp [hinfo], by simp, by simp⟩

theorem EncInv.abort {w : Weights} {e : Enc} (h : EncInv w e) : EncInv w (e.setCtl (e.ctl.abort .none)) :=
  ⟨by simp, h.info_zero, by simp⟩

/-- Every host operation keeps the invariant. -/
theorem HostEffect.inv {s t : State} {op : HostOp} (heffect : HostEffect s op t) (h : s.Inv) : t.Inv := by
  have ⟨hdecIn, hdecOut, hencPix, hencBytes, hdec, henc⟩ := h
  cases heffect with
  | startDec =>
    obtain ⟨honly, -, hout⟩ := s.decStart_frame
    exact h.of_decOnly honly (by rw [hout]; exact Memory.wf_nil) (.decStart s)
  | startEnc => exact h.of_encOnly s.encStart_frame.1 s.encStart_wf (.encStart s)
  | abortDec busy => exact ⟨hdecIn, hdecOut, hencPix, hencBytes, hdec.abort busy, henc⟩
  | abortEnc => exact ⟨hdecIn, hdecOut, hencPix, hencBytes, hdec, henc.abort⟩
  | writeDec idle =>
    exact ⟨hdecIn, hdecOut, hencPix, hencBytes,
      ⟨hdec.cause_iff_error, hdec.info_only_overrun, fun busy => absurd busy idle, hdec.done⟩, henc⟩
  | writeEnc idle =>
    exact ⟨hdecIn, hdecOut, hencPix, hencBytes, hdec,
      ⟨henc.cause_iff_error, henc.info_zero, fun busy => absurd busy idle⟩⟩
  | putByte => exact ⟨Memory.write_wf _ _ _ hdecIn, hdecOut, hencPix, hencBytes, hdec, henc⟩
  | putPixel => exact ⟨hdecIn, hdecOut, Memory.writePixel_wf _ _ _ hencPix, hencBytes, hdec, henc⟩
  | answer => exact ⟨hdecIn, hdecOut, hencPix, hencBytes, hdec, henc⟩

/-- Settles O52: each kind of event keeps the part of the invariant it touches, and leaves the rest. -/
theorem everyStepKeepsTheInvariant : Obligations.EveryStepKeepsTheInvariant := by
  unfold Obligations.EveryStepKeepsTheInvariant
  intro s t hinv hstep
  obtain ⟨r, heffect⟩ := step_effect hstep
  have h := hinv.moveOn r
  cases heffect with
  | slot busy _ ran short fetched limit =>
    refine h.of_decOnly ran.done.only ?_ (h.dec.next_slot busy ran short fetched limit)
    rw [ran.decOut]
    exact Memory.writePixel_wf _ _ _ h.decOut
  | overrun busy _ overran =>
    refine h.of_decOnly overran.only ?_ (.of_error overran.state ?_ fun _ => overran.cause)
    · rw [overran.decOut]; exact h.decOut
    · rw [overran.cause]; nofun
  | encode busy =>
    exact h.of_encOnly (State.encStep_frame { s with agenda := r }).1 (State.encStep_wf { s with agenda := r } h.encBytes)
      (EncInv.encStep (s := { s with agenda := r }) h.enc busy)
  | idle => exact h
  | host next effect => exact effect.inv h

/-- Settles O51: the spaces are empty, and both engines are IDLE with no cause. -/
theorem resetMeetsTheInvariant : Obligations.ResetMeetsTheInvariant := by
  unfold Obligations.ResetMeetsTheInvariant
  exact ⟨Memory.wf_nil, Memory.wf_nil, Memory.wf_nil, Memory.wf_nil, ⟨by simp, by simp, by simp, by simp⟩,
    ⟨by simp, by simp, by simp⟩⟩

/-! ### Progress -/

/-- A slot step always answers a next state. -/
theorem State.slotStep_next (s : State) : ∃ t, s.slotStep = .next t := by
  rcases s.slotStep_cases with ⟨t, _, _, _, h, -⟩ | ⟨t, _, -, -, -, h, -⟩ <;> exact ⟨t, h⟩

/-- Under the invariant a turn of an engine answers a next state: a BUSY DEC has a slot left. -/
theorem State.Inv.turn_next {s : State} (h : s.Inv) (e : Engine) : ∃ t, s.turn e = .next t := by
  cases e with
  | dec =>
    rw [State.turn_dec]
    split_ifs with hbusy
    · rw [State.decStep, if_pos (h.dec.pass hbusy).slot_left]
      exact s.slotStep_next
    · exact ⟨s, rfl⟩
  | enc =>
    rw [State.turn_enc]
    split_ifs
    · exact ⟨_, rfl⟩
    · exact ⟨s, rfl⟩

/-- Settles O53: with no host operation next the step is a turn of an engine. -/
theorem enginesNeverStopTheMachine : Obligations.EnginesNeverStopTheMachine := by
  unfold Obligations.EnginesNeverStopTheMachine
  intro s h hnohost
  match hagenda : s.agenda with
  | .host op :: rest => exact absurd hagenda (hnohost op rest)
  | .turn e :: rest =>
    rw [step_turn s e rest hagenda]
    exact (h.moveOn rest).turn_next e
  | [] =>
    rw [step_empty s hagenda]
    split_ifs <;> exact h.turn_next _

/-- Settles O19: inside the region five bytes lie before `SIZE - 4`, and an opcode takes one to five, an overrun stands before the
sixth. -/
theorem fetchesStayInsideTheInput : Obligations.FetchesStayInsideTheInput := by
  unfold Obligations.FetchesStayInsideTheInput
  intro s hpass hrun hp
  have hslot : s.slotStep = exec s.fetchOpcode s := by
    rw [State.slotStep, if_neg (not_not.mpr hrun), if_pos hp]
  refine ⟨fun j hj => ⟨(hpass.cursor_add hp hj.le).1, ?_⟩, ?_⟩
  · have hnext := (hpass.cursor_add hp (k := j + 1) hj).2
    omega
  · rw [hslot]
    rcases exec_cases s.fetchOpcode s with ⟨t, px, len, run, ht, hran, hpos, hshort, -⟩ | ⟨t, k, hk, -, ht, hover, -⟩
    · obtain ⟨hnat, hhigh⟩ := hpass.cursor_add hp hshort
      refine ⟨t, ht, ?_⟩
      rw [hran.done.cursor, hnat]
      omega
    · obtain ⟨hnat, hhigh⟩ := hpass.cursor_add hp (k := 1 + k) (by omega)
      refine ⟨t, ht, ?_⟩
      rw [hover.cursor, hnat]
      omega

end Sys2Proof.Machine
end

section
/-! Which opcode a slot step runs: the bytes at the cursor under each policy (42_decoder R141, R143), the opcode the host places
there (log 19), and the slot steps that fetch nothing (R144). -/

namespace Sys2Proof.Machine

/-! ### The opcode at the cursor -/

/-- Byte `k` of the opcode at the cursor: `IN`, but 0 for an operand at or past `CHUNK_END` under ZERO (42_decoder R143). -/
theorem State.opcodeByte_eq (s : State) (k : Nat) :
    s.opcodeByte k =
      if k ≠ 0 ∧ s.dec.chunkEnd ≤ s.dec.p + BitVec.ofNat 32 k ∧ s.cfg.operandPastChunk = .zero then 0
      else s.inByte (s.dec.p + BitVec.ofNat 32 k) := by
  unfold State.opcodeByte State.operandByte
  by_cases h0 : k = 0
  · subst h0
    simp
  · by_cases hregion : s.dec.p + BitVec.ofNat 32 k < s.dec.chunkEnd
    · rw [if_neg h0, if_pos hregion, if_neg fun h => BitVec.not_le.mpr hregion h.2.1]
    · rw [if_neg h0, if_neg hregion]
      cases s.cfg.operandPastChunk <;> simp [h0, BitVec.not_lt.mp hregion]

/-- When the bytes at the cursor decode to an opcode, it is the one fetched. -/
theorem State.fetchOpcode_of_decode {s : State} {bs tail : List Byte} {i : Instr}
    (hbytes : ∀ k, k < bs.length → s.opcodeByte k = bs.getD k 0) (h : decode bs = .ok (i, tail)) : s.fetchOpcode = i := by
  obtain ⟨b, rest, rfl⟩ := exists_cons_of_decode h
  obtain ⟨hlen, rfl, -⟩ := decode_cons_eq_ok_iff.mp h
  refine decodeFrom_congr _ _ fun k hk => hbytes k ?_
  rw [hbytes 0 (by simp), List.getD_cons_zero] at hk
  exact hk.trans_le hlen

/-- With no run and bytes left in the region, the slot step is the opcode at the cursor. -/
theorem State.slotStep_of_fetch {s : State} (hrun : s.dec.run = 0) (hp : s.dec.p < s.dec.chunkEnd) :
    s.slotStep = exec s.fetchOpcode s := by
  rw [State.slotStep, if_neg (not_not.mpr hrun), if_pos hp]

/-- The turn of a DEC that fetches is the opcode at the cursor. -/
theorem State.DecTurn.step_fetch {s : State} {rest : List Event} (h : s.DecTurn rest) (hrun : s.dec.run = 0)
    (hp : s.dec.p < s.dec.chunkEnd) {i : Instr} (hi : State.fetchOpcode { s with agenda := rest } = i) :
    step s = exec i { s with agenda := rest } := by
  subst hi
  exact h.step_eq.trans (State.slotStep_of_fetch (s := { s with agenda := rest }) hrun hp)

/-- Settles O14: the bytes the statement names are those the fetch reads. -/
theorem stepRunsTheDecodedOpcode : Obligations.StepRunsTheDecodedOpcode := by
  unfold Obligations.StepRunsTheDecodedOpcode
  intro s rest bs tail i hturn hrun hp hbytes hdecode
  exact hturn.step_fetch hrun hp
    (State.fetchOpcode_of_decode (fun k hk => (State.opcodeByte_eq _ k).trans (hbytes k hk).symm) hdecode)

/-! ### The agenda -/

/-- Settles O15: an empty agenda gives a BUSY engine the turn that an agenda of that turn alone gives it. -/
theorem emptyAgendaGivesABusyEngineItsTurn : Obligations.EmptyAgendaGivesABusyEngineItsTurn := by
  unfold Obligations.EmptyAgendaGivesABusyEngineItsTurn
  intro s hagenda
  have hself : { s with agenda := [] } = s := by rw [← hagenda]
  have hturn : ∀ e, step { s with agenda := [.turn e] } = s.turn e := fun e => by
    rw [step_turn _ e [] rfl]
    exact congrArg (State.turn · e) hself
  rw [step_empty s hagenda]
  refine ⟨fun hdec => ?_, fun hdec henc => ?_, fun hdec henc => ?_⟩
  · rw [if_pos hdec, hturn]
  · rw [if_neg hdec, hturn]
  · rw [if_neg hdec, State.turn_enc, if_neg henc]

/-! ### The placed opcode -/

/-- Bytes stored one after the other from an address on stand there, and no other byte changes. -/
theorem Memory.read_foldl_write (bs : List Byte) (m : Memory) (p n a : Nat) :
    Memory.read ((bs.zipIdx n).foldl (fun m bk => Memory.write m (p + bk.2) bk.1) m) a =
      if p + n ≤ a ∧ a < p + n + bs.length then bs.getD (a - (p + n)) 0 else Memory.read m a := by
  induction bs generalizing m n with
  | nil => rw [if_neg (by rw [List.length_nil]; omega)]; rfl
  | cons b bs ih =>
    rw [List.zipIdx_cons, List.foldl_cons, ih, List.length_cons]
    by_cases hlater : p + (n + 1) ≤ a ∧ a < p + (n + 1) + bs.length
    · rw [if_pos hlater, if_pos (by omega), show a - (p + n) = a - (p + (n + 1)) + 1 by omega, List.getD_cons_succ]
    · rw [if_neg hlater, Memory.read_write]
      by_cases hhere : a = p + n
      · rw [if_pos hhere, if_pos (by omega), show a - (p + n) = 0 by omega, List.getD_cons_zero]
      · rw [if_neg hhere, if_neg (by omega)]

/-- Where `withOpcodeBytes` stores the bytes (log 19). -/
def State.placeOf (s : State) : Word := if s.dec.p.toNat + 13 < 2 ^ 32 then s.dec.p else headerBytes

theorem State.placeOf_lt (s : State) : s.placeOf.toNat + 13 < 2 ^ 32 := by
  unfold State.placeOf
  split_ifs with h
  · exact h
  · decide

section Placed
variable (s : State) (bs : List Byte)

theorem State.withOpcodeBytes_dec_p : (s.withOpcodeBytes bs).dec.p = s.placeOf := rfl

theorem State.withOpcodeBytes_decIn : (s.withOpcodeBytes bs).decIn =
    (bs.zipIdx).foldl (fun m bk => Memory.write m (s.placeOf.toNat + bk.2) bk.1) s.decIn := rfl

/-- DEC has a slot left. -/
theorem State.withOpcodeBytes_left : (s.withOpcodeBytes bs).dec.i < (s.withOpcodeBytes bs).dec.n := by
  show (if s.dec.i < s.dec.n then s.dec.i else 0) < if s.dec.i < s.dec.n then s.dec.n else 1
  split_ifs with h
  · exact h
  · decide

/-- The region and the input hold the five bytes. -/
theorem State.withOpcodeBytes_region :
    s.placeOf.toNat + 5 ≤ (s.withOpcodeBytes bs).dec.chunkEnd.toNat ∧
      (s.withOpcodeBytes bs).dec.chunkEnd.toNat ≤ (s.withOpcodeBytes bs).dec.size.toNat := by
  have hroom := s.placeOf_lt
  have h5 : (s.placeOf + 5).toNat = s.placeOf.toNat + 5 := by bv_omega
  have h13 : (s.placeOf + 13).toNat = s.placeOf.toNat + 13 := by bv_omega
  by_cases hin : s.dec.p = s.placeOf ∧ (s.placeOf + 5).toNat ≤ s.dec.chunkEnd.toNat ∧
      s.dec.chunkEnd.toNat ≤ s.dec.size.toNat
  · have hend : (s.withOpcodeBytes bs).dec.chunkEnd = s.dec.chunkEnd := if_pos hin
    have hsize : (s.withOpcodeBytes bs).dec.size = s.dec.size := if_pos hin
    rw [hend, hsize, ← h5]
    exact hin.2
  · have hend : (s.withOpcodeBytes bs).dec.chunkEnd = s.placeOf + 5 := if_neg hin
    have hsize : (s.withOpcodeBytes bs).dec.size = s.placeOf + 13 := if_neg hin
    rw [hend, hsize, h5, h13]
    omega

/-- The bytes at the cursor are the placed ones, under every policy. -/
theorem State.withOpcodeBytes_opcodeByte (hlen : bs.length ≤ 5) {k : Nat} (hk : k < bs.length) :
    (s.withOpcodeBytes bs).opcodeByte k = bs.getD k 0 := by
  have hroom := s.placeOf_lt
  obtain ⟨hend, hsize⟩ := s.withOpcodeBytes_region bs
  have hoffset : (s.placeOf + BitVec.ofNat 32 k).toNat = s.placeOf.toNat + k := by
    rw [BitVec.toNat_add, BitVec.toNat_ofNat]
    omega
  rw [State.opcodeByte_eq, State.withOpcodeBytes_dec_p, if_neg fun h => by
    have := BitVec.le_def.mp h.2.1
    omega]
  unfold State.inByte
  rw [if_pos (by rw [BitVec.lt_def]; omega), hoffset, State.withOpcodeBytes_decIn, Memory.read_foldl_write,
    if_pos (by omega), Nat.add_zero, Nat.add_sub_cancel_left]

end Placed

/-- Settles O16: the placed bytes lie in the region at the cursor of a BUSY DEC with no run, whose turn is next. -/
theorem placedOpcodeRunsNext : Obligations.PlacedOpcodeRunsNext := by
  unfold Obligations.PlacedOpcodeRunsNext
  intro s nbits w i hi
  have hdecode : ∃ tail, decode (tableBytes nbits w) = .ok (i, tail) := by
    unfold decodeTableWord at hi
    split at hi
    · cases hi
      exact ⟨_, ‹_›⟩
    · cases hi
  obtain ⟨tail, hdecode⟩ := hdecode
  have hroom := s.placeOf_lt
  have hturn : (s.withFetchWord nbits w).DecTurn s.agenda := ⟨rfl, rfl, s.withOpcodeBytes_left _⟩
  have hp : (s.withFetchWord nbits w).dec.p < (s.withFetchWord nbits w).dec.chunkEnd := by
    have hregion := (s.withOpcodeBytes_region (tableBytes nbits w)).1
    have hplace : (s.withFetchWord nbits w).dec.p = s.placeOf := rfl
    rw [hplace, BitVec.lt_def]
    exact Nat.lt_of_lt_of_le (by omega) hregion
  have hbytes : ∀ k, k < (tableBytes nbits w).length →
      (s.withFetchWord nbits w).opcodeByte k = (tableBytes nbits w).getD k 0 :=
    fun k hk => s.withOpcodeBytes_opcodeByte _ (by simp [tableBytes]) hk
  exact ⟨_, hturn.step_fetch rfl hp (State.fetchOpcode_of_decode hbytes hdecode), rfl, rfl, rfl, rfl, rfl⟩

/-! ### The opcodes -/

/-- Settles O18: with no run and the region used up the slot step only emits. -/
theorem exhaustedRegionRepeatsThePixel : Obligations.ExhaustedRegionRepeatsThePixel := by
  unfold Obligations.ExhaustedRegionRepeatsThePixel
  intro s rest hturn hrun hp
  have hslot : State.slotStep { s with agenda := rest } = .next (State.exhausted { s with agenda := rest }) := by
    rw [State.slotStep, if_neg (not_not.mpr hrun), if_neg (BitVec.not_lt.mpr hp)]
  exact ⟨_, hturn.step_eq.trans hslot, rfl,
    State.endSlot_done s _ _ 0 _ rfl (BitVec.add_zero _).symm hrun rfl rfl rfl rfl
      ⟨rfl, rfl, rfl, rfl, rfl, rfl, rfl, rfl⟩ ⟨rfl, rfl, rfl, rfl, rfl, rfl, rfl⟩⟩

/-- RUN sets the counter before the end of the slot step (42_decoder R151). -/
theorem execRun_done (n : BitVec 6) (s : State) : ∃ t, exec (.run n) s = .next t ∧ SlotDone s t s.dec.px 1 n :=
  ⟨_, rfl, State.endSlot_done s _ _ 1 _ rfl rfl rfl rfl rfl rfl rfl
    ⟨rfl, rfl, rfl, rfl, rfl, rfl, rfl, rfl⟩ ⟨rfl, rfl, rfl, rfl, rfl, rfl, rfl⟩⟩

/-- Settles O12: the byte's low bits are the payload, which the handler loads. -/
theorem runLoadsTheCounterAndKeepsThePixel : Obligations.RunLoadsTheCounterAndKeepsThePixel := by
  unfold Obligations.RunLoadsTheCounterAndKeepsThePixel
  intro n s hn
  exact ⟨decode_run_byte n hn, execRun_done n s⟩

/-- Settles O13: a slot step that ends normally writes one output pixel, an overrun none, and neither more than DEC's own. -/
theorem everyOpcodeHasANextStateAndTouchesOnlyTheDecoder :
    Obligations.EveryOpcodeHasANextStateAndTouchesOnlyTheDecoder := by
  unfold Obligations.EveryOpcodeHasANextStateAndTouchesOnlyTheDecoder
  intro i s
  rcases exec_cases i s with ⟨t, px, len, run, ht, hran, -, -, hrun⟩ | ⟨t, k, -, -, ht, hover, hagenda⟩
  · have hdone := hran.done
    exact ⟨t, ht, hdone.only, hdone.keeps, hran.agenda, hdone.out_others, fun hnorun =>
      hdone.runLeft.trans (hrun.resolve_right (hnorun run))⟩
  · exact ⟨t, ht, hover.only, hover.keeps, hagenda, fun a _ => by rw [hover.decOut], fun _ => hover.run⟩

end Sys2Proof.Machine
end

section
/-! What a slot step reads: it commutes with every change to the rest of the state (20_memory R61), and, where no operand fetch
differs, with a change of the operand policy (42_decoder R143). -/

namespace Sys2Proof.Machine

/-- The next state of an outcome, mapped; a stop is as it was. -/
def mapNext (φ : State → State) : Outcome → Outcome
  | .next t => .next (φ t)
  | .fault r => .fault r
  | .refused r => .refused r

/-- A change of the state that leaves DEC as it is and commutes with writing DEC and with the end of a slot step. -/
structure SlotMap (φ : State → State) : Prop where
  dec : ∀ s, (φ s).dec = s.dec
  setDec : ∀ s d, (φ s).setDec d = φ (s.setDec d)
  endSlot : ∀ s, (φ s).endSlot = φ s.endSlot

/-- Whether a fetch overruns depends on the policy and the region alone. -/
theorem State.overruns_setDec (s : State) (d : Dec) (k : Word) (h : d.chunkEnd = s.dec.chunkEnd) :
    (s.setDec d).overruns k = s.overruns k := by
  unfold State.overruns
  rw [State.setDec_dec, h]
  rfl

section Map
variable {φ : State → State} (hφ : SlotMap φ)
include hφ

theorem SlotMap.overruns_setDec {s : State} (hov : ∀ k, (φ s).overruns k = s.overruns k) (d : Dec)
    (h : d.chunkEnd = s.dec.chunkEnd) (k : Word) : (φ (s.setDec d)).overruns k = (s.setDec d).overruns k := by
  rw [← hφ.setDec, State.overruns_setDec _ _ _ (by rw [h, hφ.dec]), hov, State.overruns_setDec _ _ _ h]

theorem SlotMap.takeOperands (fs : List (Pixel → Pixel)) (s : State) (hov : ∀ k, (φ s).overruns k = s.overruns k) :
    takeOperands fs (φ s) = mapNext φ (takeOperands fs s) := by
  induction fs generalizing s with
  | nil => exact congrArg _ (hφ.endSlot s)
  | cons f fs ih =>
    unfold Machine.takeOperands
    have htaken : (φ s).operandTaken f = φ (s.operandTaken f) := by
      rw [State.operandTaken, hφ.dec, hφ.setDec]
      rfl
    have hraise : (φ s).raiseDec .overrun s.dec.p = φ (s.raiseDec .overrun s.dec.p) := by
      rw [State.raiseDec, hφ.dec, hφ.setDec]
      rfl
    rw [hφ.dec, hov, htaken, hraise, ih (s.operandTaken f) (hφ.overruns_setDec hov _ rfl)]
    split <;> rfl

theorem SlotMap.exec (i : Instr) (s : State) (hov : ∀ k, (φ s).overruns k = s.overruns k) :
    exec i (φ s) = mapNext φ (exec i s) := by
  have hfetched : (φ s).fetched = φ s.fetched := by
    rw [State.fetched, hφ.dec, hφ.setDec]
    rfl
  have hfetch : ∀ fs, Machine.takeOperands fs (φ s).fetched = mapNext φ (Machine.takeOperands fs s.fetched) := fun fs => by
    rw [hfetched]
    exact hφ.takeOperands fs _ (hφ.overruns_setDec hov _ rfl)
  have hend : ∀ d : Dec, ((φ s).fetched.setDec d).endSlot = φ (s.fetched.setDec d).endSlot := fun d => by
    rw [hfetched, hφ.setDec, hφ.endSlot]
  have hdec : (φ s).fetched.dec = s.fetched.dec := by rw [hfetched, hφ.dec]
  cases i with
  | rgb r g b => exact hfetch _
  | rgba r g b a => exact hfetch _
  | luma vg drdg dbdg => exact hfetch _
  | index slot =>
    show Host.Outcome.next _ = Host.Outcome.next _
    rw [hend, hdec, hφ.dec]
  | diff dr dg db =>
    show Host.Outcome.next _ = Host.Outcome.next _
    rw [hend, hdec, hφ.dec]
  | run n =>
    show Host.Outcome.next _ = Host.Outcome.next _
    rw [hend, hdec]

theorem SlotMap.slotStep {s : State} (hov : ∀ k, (φ s).overruns k = s.overruns k)
    (hfetch : s.dec.p < s.dec.chunkEnd → (φ s).fetchOpcode = s.fetchOpcode) : (φ s).slotStep = mapNext φ s.slotStep := by
  unfold State.slotStep
  rw [hφ.dec]
  split_ifs with hrun hp
  · rw [State.runContinue, hφ.dec, hφ.setDec, hφ.endSlot]
    rfl
  · rw [hfetch hp, hφ.exec _ s hov]
  · exact congrArg _ (hφ.endSlot s)

end Map

/-! ### The operand policy -/

theorem slotMap_withPolicy (pol : OperandPolicy) : SlotMap (·.withPolicy pol) :=
  ⟨fun _ => rfl, fun _ _ => rfl, fun _ => rfl⟩

/-- Under a policy other than FAULT no fetch overruns. -/
theorem State.overruns_eq_false {s : State} (h : s.cfg.operandPastChunk ≠ .fault) (k : Word) : s.overruns k = false := by
  rw [← Bool.not_eq_true, State.overruns_iff]
  exact fun hk => h hk.1

/-- With zeros in the first four padding bytes the operands are the same under ZERO: none lies further on (42_decoder R155). -/
theorem DecPass.opcodeByte_zero {s : State} (hpass : DecPass s.cfg.hashW s.dec) (hpol : s.cfg.operandPastChunk = .readInput)
    (hzero : ∀ a, s.dec.chunkEnd.toNat ≤ a → a < s.dec.chunkEnd.toNat + 4 → Memory.read s.decIn a = 0)
    (hp : s.dec.p < s.dec.chunkEnd) {k : Nat} (hk : k < 5) : (s.withPolicy .zero).opcodeByte k = s.opcodeByte k := by
  obtain ⟨hoffset, -⟩ := hpass.cursor_add hp hk.le
  have hregion := hpass.region
  rw [State.opcodeByte_eq, State.opcodeByte_eq, if_neg (c := _ ∧ _ ∧ s.cfg.operandPastChunk = _) (by rw [hpol]; simp)]
  split_ifs with h
  · have hpast : s.dec.chunkEnd ≤ s.dec.p + BitVec.ofNat 32 k := h.2.1
    rw [BitVec.le_def] at hpast
    rw [BitVec.lt_def] at hp
    unfold State.inByte
    rw [if_pos (by rw [BitVec.lt_def]; omega), hzero _ hpast (by omega)]
  · rfl

/-- Settles O20: neither policy raises anything, and the opcode fetched is the same, so the slot step commutes with the change of
policy. -/
theorem zeroPaddingMakesReadInputAndZeroAgree : Obligations.ZeroPaddingMakesReadInputAndZeroAgree := by
  unfold Obligations.ZeroPaddingMakesReadInputAndZeroAgree
  intro s hpass hpol hzero
  have hov : ∀ k, (s.withPolicy .zero).overruns k = s.overruns k := fun k => by
    rw [State.overruns_eq_false (by simp [State.withPolicy]), State.overruns_eq_false (by rw [hpol]; nofun)]
  have hfetch : s.dec.p < s.dec.chunkEnd → (s.withPolicy .zero).fetchOpcode = s.fetchOpcode := fun hp =>
    decodeFrom_congr _ _ fun k hk => hpass.opcodeByte_zero hpol hzero hp (hk.trans_le (opcodeLength_le _))
  obtain ⟨t, ht⟩ := s.slotStep_next
  exact ⟨t, ht, ((slotMap_withPolicy .zero).slotStep hov hfetch).trans (congrArg _ ht)⟩

end Sys2Proof.Machine
end

section
/-! The opcode selector against the decoder (43_encoder R177 to R181, 40_hash_cache R110): the opcode selected for a pixel gives
that pixel back. -/

namespace Sys2Proof.Machine

/-! ### The deltas -/

/-- Adding a delta is adding its value modulo 256 (00_scope R10). -/
theorem addDelta_eq (c : Byte) (d : Int) : addDelta c d = c + BitVec.ofInt 8 d := by
  rw [addDelta, BitVec.ofInt_add, BitVec.ofInt_natCast, BitVec.ofNat_toNat, BitVec.setWidth_eq]

/-- A channel plus the signed difference to another is the other. -/
theorem addDelta_toInt_sub (c c' : Byte) : addDelta c (c' - c).toInt = c' := by
  rw [addDelta_eq, BitVec.ofInt_toInt, BitVec.add_comm, BitVec.sub_add_cancel]

/-- A channel plus the green delta and its own delta relative to green is the other channel. -/
theorem addDelta_toInt_add_toInt_sub (c c' g : Byte) : addDelta c (g.toInt + (c' - c - g).toInt) = c' := by
  rw [addDelta_eq, BitVec.ofInt_add, BitVec.ofInt_toInt, BitVec.ofInt_toInt, BitVec.add_comm g, BitVec.sub_add_cancel,
    BitVec.add_comm, BitVec.sub_add_cancel]

section Deltas
variable {px q : Pixel} (ha : px.a = q.a)
include ha

/-- DIFF of the deltas to a pixel of the same alpha gives that pixel. -/
theorem Pixel.addDiff_deltasOf : Pixel.addDiff (deltasOf px q).vr (deltasOf px q).vg (deltasOf px q).vb q = px := by
  rw [deltasOf_eq, Pixel.addDiff]
  simp only [addDelta_toInt_sub, ← ha]

/-- LUMA of the deltas to a pixel of the same alpha gives that pixel. -/
theorem Pixel.addLuma_deltasOf : Pixel.addLuma (deltasOf px q).vg (deltasOf px q).vgr (deltasOf px q).vgb q = px := by
  rw [deltasOf_eq, Pixel.addLuma, Pixel.addDiff]
  simp only [addDelta_toInt_sub, addDelta_toInt_add_toInt_sub, ← ha]

end Deltas

/-- A signed value below a byte's is the same wrapped, as far as a test for -8..7 sees it. -/
theorem sext8_small_iff {v : Int} (hlo : -248 ≤ v) (hhi : v ≤ 247) : -8 ≤ sext8 v ∧ sext8 v ≤ 7 ↔ -8 ≤ v ∧ v ≤ 7 := by
  rw [sext8, BitVec.toInt_ofInt, Int.bmod]
  omega

theorem sext8_bounds (v : Int) : -128 ≤ sext8 v ∧ sext8 v ≤ 127 := by
  rw [sext8, BitVec.toInt_ofInt, Int.bmod]
  omega

/-- Settles O35: with the green delta in -32..31 a difference of deltas lies in -160..159, where only values already in -8..7 wrap
into it. -/
theorem deltaWrapNeverChangesTheLumaDecision : Obligations.DeltaWrapNeverChangesTheLumaDecision := by
  unfold Obligations.DeltaWrapNeverChangesTheLumaDecision
  intro px q hlo hhi d
  have hr : -128 ≤ d.vr ∧ d.vr ≤ 127 := sext8_bounds _
  have hb : -128 ≤ d.vb ∧ d.vb ≤ 127 := sext8_bounds _
  have hg : -32 ≤ d.vg ∧ d.vg ≤ 31 := ⟨hlo, hhi⟩
  exact ⟨sext8_small_iff (v := d.vr - d.vg) (by omega) (by omega),
    sext8_small_iff (v := d.vb - d.vg) (by omega) (by omega)⟩

/-! ### The selected opcode -/

/-- The selector keeps to the ranges of the opcodes (30_encoding R78). -/
theorem selectOnMiss_wf (px q : Pixel) : (selectOnMiss px q).wf = true := by
  unfold selectOnMiss
  simp only []
  split_ifs with halpha hdiff hluma
  · rfl
  · exact hdiff
  · obtain ⟨hr0, hr1, hg0, hg1, hb0, hb1⟩ := (Deltas.lumaFits_iff _).mp hluma
    simp [Instr.wf, inRange, hr0, hr1, hg0, hg1, hb0, hb1]
  · rfl

/-- Fewer operands are readable where more are. -/
theorem State.OperandsReadable.mono {s : State} {k m : Nat} (h : s.OperandsReadable k) (hm : m ≤ k) : s.OperandsReadable m :=
  h.imp_right fun hk => by omega

/-- The selected opcode, executed on the pixel it was selected against, is done with the pixel it was selected for. -/
theorem exec_selectOnMiss {s : State} (px : Pixel)
    (hread : s.OperandsReadable ((encode (selectOnMiss px s.dec.px)).length - 1)) :
    ∃ t, exec (selectOnMiss px s.dec.px) s = .next t ∧
      SlotDone s t px (encode (selectOnMiss px s.dec.px)).length s.dec.run := by
  by_cases ha : px.a = s.dec.px.a
  · by_cases hdiff : (deltasOf px s.dec.px).diffFits = true
    · rw [selectOnMiss_of_diffFits ha hdiff]
      have hdone := s.fetched_setPx_done (Pixel.addDiff (deltasOf px s.dec.px).vr (deltasOf px s.dec.px).vg
        (deltasOf px s.dec.px).vb s.dec.px)
      rw [Pixel.addDiff_deltasOf ha] at hdone
      exact ⟨_, by rw [exec, execDiff, Pixel.addDiff_deltasOf ha], hdone⟩
    · by_cases hluma : (deltasOf px s.dec.px).lumaFits = true
      · rw [selectOnMiss_of_lumaFits ha hdiff hluma] at hread ⊢
        have hstep := (slotStepOf_takeOperands (s := s)
          (i := .luma (deltasOf px s.dec.px).vg (deltasOf px s.dec.px).vgr (deltasOf px s.dec.px).vgb)
          [Pixel.addLuma (deltasOf px s.dec.px).vg (deltasOf px s.dec.px).vgr (deltasOf px s.dec.px).vgb] rfl).1 hread
        rwa [List.foldl_cons, List.foldl_nil, Pixel.addLuma_deltasOf ha] at hstep
      · rw [selectOnMiss_of_noneFits ha hdiff hluma] at hread ⊢
        have hpx : (⟨px.r, px.g, px.b, s.dec.px.a⟩ : Pixel) = px := by rw [← ha]
        have hstep := (slotStepOf_takeOperands (s := s) (i := .rgb px.r px.g px.b)
          [Pixel.setR px.r, Pixel.setG px.g, Pixel.setB px.b] rfl).1 hread
        rw [← hpx]
        exact hstep
  · rw [selectOnMiss_of_alpha_ne ha] at hread ⊢
    exact (slotStepOf_takeOperands (s := s) (i := .rgba px.r px.g px.b px.a)
      [Pixel.setR px.r, Pixel.setG px.g, Pixel.setB px.b, Pixel.setA px.a] rfl).1 hread

/-- INDEX is done with the pixel its slot holds (42_decoder R148). -/
theorem exec_index_done (slot : SlotIx) (s : State) :
    ∃ t, exec (.index slot) s = .next t ∧ SlotDone s t (Cache.lookup s.dec.cache slot) 1 s.dec.run :=
  ⟨_, rfl, s.fetched_setPx_done _⟩

/-- Settles O40: the selected opcode is done with the pixel, and so is INDEX of a slot that holds it. -/
theorem selectedOpcodeReproducesThePixel : Obligations.SelectedOpcodeReproducesThePixel := by
  unfold Obligations.SelectedOpcodeReproducesThePixel
  intro px s _ hread
  have hlen := encode_length_le (selectOnMiss px s.dec.px)
  obtain ⟨t, ht, hdone⟩ := exec_selectOnMiss px (hread.mono (by omega))
  refine ⟨selectOnMiss_wf px s.dec.px, ⟨t, ht, hdone.pixel⟩, fun hheld => ?_⟩
  obtain ⟨u, hu, hdone'⟩ := exec_index_done (slotOf s.cfg.hashW px) s
  exact ⟨u, hu, hdone'.pixel.trans hheld⟩

end Sys2Proof.Machine
end

section
/-! The engines share nothing (00_scope R6, 20_memory R61): the turn of an engine commutes with every change to the part of the
state that the engine does not use. -/

namespace Sys2Proof.Machine

/-! ### The part of DEC -/

/-- `u` with the part of `s` that DEC uses: the parameters, DEC, and its two spaces. -/
def State.withDecOf (u s : State) : State := { u with cfg := s.cfg, dec := s.dec, decIn := s.decIn, decOut := s.decOut }

theorem slotMap_withDecOf (u : State) : SlotMap u.withDecOf := ⟨fun _ => rfl, fun _ _ => rfl, fun _ => rfl⟩

theorem State.withDecOf_turn (u s : State) : (u.withDecOf s).turn .dec = mapNext u.withDecOf (s.turn .dec) := by
  have hslot := (slotMap_withDecOf u).slotStep (s := s) (fun _ => rfl) (fun _ => rfl)
  rw [State.turn_dec, State.turn_dec, State.decStep, State.decStep, hslot, (slotMap_withDecOf u).dec]
  split_ifs <;> rfl

/-- A turn of DEC touches DEC and its output space alone. -/
theorem State.turn_dec_only {s t : State} (h : s.turn .dec = .next t) : DecOnly s t := by
  rw [State.turn_dec] at h
  split_ifs at h
  · unfold State.decStep at h
    split_ifs at h
    rcases s.slotStep_cases with ⟨t', _, _, _, ht, hran, -⟩ | ⟨t', _, -, -, -, ht, hover, -⟩ <;> cases h.symm.trans ht
    · exact hran.done.only
    · exact hover.only
  · cases h
    exact ⟨rfl, rfl, rfl, rfl, rfl, rfl, rfl⟩

/-! ### The part of ENC -/

/-- `u` with the part of `s` that ENC uses: the parameters, ENC, and its two spaces. -/
def State.withEncOf (u s : State) : State := { u with cfg := s.cfg, enc := s.enc, encPix := s.encPix, encBytes := s.encBytes }

section WithEncOf
variable (u s : State)

theorem State.withEncOf_emitBytes (bs : List Byte) : (u.withEncOf s).emitBytes bs = u.withEncOf (s.emitBytes bs) := by
  induction bs generalizing s with
  | nil => rfl
  | cons b bs ih => exact ih (s.emitByte b)

theorem State.withEncOf_encoded (px : Pixel) (bs : List Byte) (run : BitVec 6) (cache : Cache) :
    (u.withEncOf s).encoded px bs run cache = u.withEncOf (s.encoded px bs run cache) := by
  unfold State.encoded
  rw [State.withEncOf_emitBytes]
  rfl

theorem State.withEncOf_pixelStep : (u.withEncOf s).pixelStep = u.withEncOf s.pixelStep := by
  by_cases hsame : Memory.readPixel s.encPix s.enc.i.toNat = s.enc.pxPrev
  · rw [State.pixelStep_run s hsame, State.pixelStep_run (u.withEncOf s) hsame, State.withEncOf_encoded,
      State.withEncOf_encoded]
    exact (apply_ite u.withEncOf _ _ _).symm
  · rw [State.pixelStep_changed s _ rfl hsame, State.pixelStep_changed (u.withEncOf s) _ rfl hsame,
      State.withEncOf_encoded, State.withEncOf_encoded]
    exact (apply_ite u.withEncOf _ _ _).symm

theorem State.withEncOf_paddingStep : (u.withEncOf s).paddingStep = u.withEncOf s.paddingStep := by
  unfold State.paddingStep
  rw [State.withEncOf_emitBytes]
  rfl

theorem State.withEncOf_encStep : (u.withEncOf s).encStep = u.withEncOf s.encStep := by
  unfold State.encStep
  rw [State.withEncOf_pixelStep, State.withEncOf_paddingStep]
  exact (apply_ite u.withEncOf _ _ _).symm

theorem State.withEncOf_turn : (u.withEncOf s).turn .enc = mapNext u.withEncOf (s.turn .enc) := by
  rw [State.turn_enc, State.turn_enc, State.withEncOf_encStep, apply_ite (mapNext u.withEncOf)]
  rfl

end WithEncOf

/-- A turn of ENC touches ENC and its output space alone. -/
theorem State.turn_enc_only {s t : State} (h : s.turn .enc = .next t) : EncOnly s t := by
  rw [State.turn_enc] at h
  split_ifs at h <;> cases h
  · exact s.encStep_frame.1
  · exact ⟨rfl, rfl, rfl, rfl, rfl, rfl, rfl⟩

/-- Settles O54: the second state, its agenda moved on, is itself with the first's part of the engine, so its turn is the first's
turn, mapped. -/
theorem enginesDoNotInterfere : Obligations.EnginesDoNotInterfere := by
  unfold Obligations.EnginesDoNotInterfere
  refine ⟨fun s s' t rest rest' hs hs' hcfg hdec hin hout hstep => ?_,
    fun s s' t rest rest' hs hs' hcfg henc hin hout hstep => ?_⟩
  · let u : State := { s' with agenda := rest' }
    have hu : u = u.withDecOf { s with agenda := rest } := by
      simp only [State.withDecOf, u, ← hcfg, ← hdec, ← hin, ← hout]
    rw [step_turn s .dec rest hs] at hstep
    have honly := State.turn_dec_only hstep
    have hstep' : step s' = .next (u.withDecOf t) := by
      rw [step_turn s' .dec rest' hs']
      exact (congrArg (State.turn · .dec) hu).trans ((u.withDecOf_turn _).trans (congrArg _ hstep))
    exact ⟨_, hstep', rfl, rfl,
      ⟨honly.cfg.trans hcfg.symm, rfl, honly.decIn.trans hin.symm, rfl, rfl, rfl, rfl⟩, rfl⟩
  · let u : State := { s' with agenda := rest' }
    have hu : u = u.withEncOf { s with agenda := rest } := by
      simp only [State.withEncOf, u, ← hcfg, ← henc, ← hin, ← hout]
    rw [step_turn s .enc rest hs] at hstep
    have honly := State.turn_enc_only hstep
    have hstep' : step s' = .next (u.withEncOf t) := by
      rw [step_turn s' .enc rest' hs']
      exact (congrArg (State.turn · .enc) hu).trans ((u.withEncOf_turn _).trans (congrArg _ hstep))
    exact ⟨_, hstep', rfl, rfl,
      ⟨honly.cfg.trans hcfg.symm, rfl, rfl, rfl, honly.encPix.trans hin.symm, rfl, rfl⟩, rfl⟩

end Sys2Proof.Machine
end

section
/-! Facts of arithmetic about the header and the hash (41_header R132, 40_hash_cache R102, R103). -/

namespace Sys2Proof.Machine

/-- Settles O26: `DimsAccepted.bounds`, and a quotient of at least 2 bounds the divisor. -/
theorem acceptedDimensionsAreBounded : Obligations.AcceptedDimensionsAreBounded := by
  unfold Obligations.AcceptedDimensionsAreBounded
  intro w h
  have hiff : DimsAccepted w h ↔ 1 ≤ w.toNat ∧ 1 ≤ h.toNat ∧ h.toNat + 1 ≤ 400000000 / w.toNat := by
    rw [DimsAccepted, word_pos_iff, word_pos_iff]
    rfl
  refine ⟨hiff, fun hd => ?_⟩
  obtain ⟨hmul, hbound, -⟩ := hd.bounds
  obtain ⟨hw, hh, hguard⟩ := hiff.mp hd
  unfold pixelsMax at hbound
  have hh' : h.toNat + 1 ≤ 400000000 := hguard.trans (Nat.div_le_self _ _)
  have hw' : 2 * w.toNat ≤ 400000000 := (Nat.le_div_iff_mul_le hw).mp ((show 2 ≤ h.toNat + 1 by omega).trans hguard)
  exact ⟨by omega, by omega, hbound, hmul, by omega⟩

/-- Settles O29: `ZERO_PX` has the empty sum and `START_PX` only its alpha 255, which is -1 modulo 64. -/
theorem startPixelSlotDiffersUnlessAlphaWeightVanishes : Obligations.StartPixelSlotDiffersUnlessAlphaWeightVanishes := by
  unfold Obligations.StartPixelSlotDiffersUnlessAlphaWeightVanishes
  intro w
  have hzero : (slotOf w zeroPx).toNat = 0 := by simp [slotOf_toNat, zeroPx]
  have hstart : (slotOf w startPx).toNat = (64 - w.wa % 64) % 64 := by
    have hsum : (slotOf w startPx).toNat = w.wa * 255 % 64 := by simp [slotOf_toNat, startPx]
    omega
  refine ⟨BitVec.eq_of_toNat_eq hzero, hstart, ?_⟩
  rw [Ne, ← BitVec.toNat_inj, hstart, hzero]
  omega

end Sys2Proof.Machine
end

section
/-! Runs of the machine with an empty agenda (70 R241, log 6): a pass of DEC, and a pass of ENC from START to its end. -/

namespace Sys2Proof.Machine

/-! ### Runs -/

section Run
variable {M : Host.Core} {s t : M.State}

/-- A run takes its first step first. -/
theorem run_succ (h : M.step s = .next t) (k : Nat) : M.run (k + 1) s = M.run k t := by
  rw [Host.Core.run, h]

/-- A run of `a + b` steps is one of `a` and one of `b` from where that stands. -/
theorem run_add {a : Nat} (h : M.run a s = .next t) (b : Nat) : M.run (a + b) s = M.run b t := by
  induction a generalizing s with
  | zero =>
    cases h
    rw [Nat.zero_add]
  | succ a ih =>
    rw [Host.Core.run] at h
    split at h
    · next u hstep =>
      rw [Nat.add_right_comm, run_succ hstep]
      exact ih h
    · cases h
    · cases h

end Run

/-- A run of this machine takes its first step first. -/
theorem run_step {s t : State} (h : step s = .next t) (k : Nat) : core.run (k + 1) s = core.run k t :=
  run_succ (M := core) h k

/-- A run takes its last step last. -/
theorem run_snoc {k : Nat} {s t u : State} (h : core.run k s = .next t) (hstep : step t = .next u) :
    core.run (k + 1) s = .next u :=
  (run_add (M := core) h 1).trans (run_step hstep 0)

/-! ### A pass of DEC -/

/-- With an empty agenda a BUSY DEC with a slot left takes a slot step. -/
theorem step_slot {s : State} (hagenda : s.agenda = []) (hbusy : s.dec.ctl.state = .busy) (hleft : s.dec.i < s.dec.n) :
    step s = s.slotStep := by
  rw [step_empty s hagenda, if_pos hbusy, State.turn_dec, if_pos hbusy, State.decStep, if_pos hleft]

/-- Where a pass that raises nothing stands after `k` slot steps. -/
structure SlotsRun (s u : State) (k : Nat) : Prop where
  agenda : u.agenda = []
  cfg : u.cfg = s.cfg
  n : u.dec.n = s.dec.n
  i : u.dec.i.toNat = s.dec.i.toNat + k
  state : u.dec.ctl.state = if u.dec.i = u.dec.n then .done else .busy
  count : 0 < k → u.dec.ctl.outCount = u.dec.i

/-- Below the last slot the pass still runs. -/
theorem SlotsRun.busy {s u : State} {k : Nat} (h : SlotsRun s u k) (hk : s.dec.i.toNat + k < s.dec.n.toNat) :
    u.dec.ctl.state = .busy ∧ u.dec.i < u.dec.n := by
  have hlt : u.dec.i < u.dec.n := by rwa [BitVec.lt_def, h.n, h.i]
  exact ⟨h.state.trans (if_neg (BitVec.ne_of_lt hlt)), hlt⟩

/-- A slot step of a pass that raises nothing moves it one slot on. -/
theorem SlotsRun.next {s u : State} {k : Nat} (h : SlotsRun s u k) (hpol : s.cfg.operandPastChunk ≠ .fault)
    (hk : s.dec.i.toNat + k < s.dec.n.toNat) : ∃ t, step u = .next t ∧ SlotsRun s t (k + 1) := by
  obtain ⟨hbusy, hleft⟩ := h.busy hk
  rcases u.slotStep_cases with ⟨t, px, len, run, ht, hran, -⟩ | ⟨_, _, -, hfault, -⟩
  · have hdone := hran.done
    refine ⟨t, (step_slot h.agenda hbusy hleft).trans ht, hran.agenda.trans h.agenda, hdone.only.cfg.trans h.cfg,
      hdone.keeps.n.trans h.n, ?_, ?_, fun _ => by rw [hdone.outCount, hdone.i]⟩
    · rw [hdone.i, toNat_add_one_of_lt hleft, h.i, Nat.add_assoc]
    · rw [hran.state, hdone.i, hdone.keeps.n, hbusy]
  · exact absurd (h.cfg ▸ hfault) hpol

theorem run_slots {s : State} (hagenda : s.agenda = []) (hbusy : s.dec.ctl.state = .busy) (hleft : s.dec.i < s.dec.n)
    (hpol : s.cfg.operandPastChunk ≠ .fault) (k : Nat) (hk : s.dec.i.toNat + k ≤ s.dec.n.toNat) :
    ∃ u, core.run k s = .next u ∧ SlotsRun s u k := by
  induction k with
  | zero =>
    exact ⟨s, rfl, hagenda, rfl, rfl, rfl, hbusy.trans (if_neg (BitVec.ne_of_lt hleft)).symm, fun h => absurd h (lt_irrefl 0)⟩
  | succ k ih =>
    obtain ⟨u, hu, hrun⟩ := ih (by omega)
    obtain ⟨t, ht, hrun'⟩ := hrun.next hpol (by omega)
    exact ⟨t, run_snoc hu ht, hrun'⟩

/-- Settles O22: each slot step moves the index by one, and the last one ends the pass. -/
theorem passEndsAfterExactlyItsSlots : Obligations.PassEndsAfterExactlyItsSlots := by
  unfold Obligations.PassEndsAfterExactlyItsSlots
  intro s hagenda hbusy hleft hpol
  have hlt := BitVec.lt_def.mp hleft
  refine ⟨?_, fun k hk => ?_⟩
  · obtain ⟨t, ht, hrun⟩ := run_slots hagenda hbusy hleft hpol (s.dec.n.toNat - s.dec.i.toNat) (by omega)
    have hi : t.dec.i = s.dec.n := BitVec.eq_of_toNat_eq (by rw [hrun.i]; omega)
    exact ⟨t, ht, hrun.state.trans (if_pos (hi.trans hrun.n.symm)), hi, (hrun.count (by omega)).trans hi⟩
  · obtain ⟨u, hu, hrun⟩ := run_slots hagenda hbusy hleft hpol k (by omega)
    exact ⟨u, hu, (hrun.busy (by omega)).1, hrun.i⟩

/-! ### The output stream -/

/-- These bytes stand in a memory from an address on. -/
def BytesAt (m : Memory) (a : Nat) (bs : List Byte) : Prop := ∀ k, k < bs.length → Memory.read m (a + k) = bs.getD k 0

theorem BytesAt.append_iff {m : Memory} {a : Nat} {xs ys : List Byte} :
    BytesAt m a (xs ++ ys) ↔ BytesAt m a xs ∧ BytesAt m (a + xs.length) ys := by
  refine ⟨fun h => ⟨fun k hk => ?_, fun k hk => ?_⟩, fun ⟨hx, hy⟩ k hk => ?_⟩
  · rw [h k (by rw [List.length_append]; omega), List.getD_append _ _ _ _ hk]
  · rw [Nat.add_assoc, h (xs.length + k) (by rw [List.length_append]; omega),
      List.getD_append_right _ _ _ _ (Nat.le_add_right _ _), Nat.add_sub_cancel_left]
  · rw [List.length_append] at hk
    by_cases hin : k < xs.length
    · rw [hx k hin, List.getD_append _ _ _ _ hin]
    · have hlater := hy (k - xs.length) (by omega)
      rw [show a + xs.length + (k - xs.length) = a + k by omega] at hlater
      rw [hlater, List.getD_append_right _ _ _ _ (by omega)]

/-- The output stream of `t` continues that of `s`: nothing already appended changes. -/
structure Continues (s t : State) : Prop where
  count : s.enc.ctl.outCount.toNat ≤ t.enc.ctl.outCount.toNat
  bytes : ∀ a, a < s.enc.ctl.outCount.toNat → Memory.read t.encBytes a = Memory.read s.encBytes a

theorem Continues.refl (s : State) : Continues s s := ⟨le_refl _, fun _ _ => rfl⟩

theorem Continues.trans {s t u : State} (h : Continues s t) (h' : Continues t u) : Continues s u :=
  ⟨h.count.trans h'.count, fun a ha => (h'.bytes a (ha.trans_le h.count)).trans (h.bytes a ha)⟩

/-- Bytes once appended stay where they are. -/
theorem Continues.bytesAt {s t : State} (h : Continues s t) {a : Nat} {bs : List Byte}
    (hbs : BytesAt s.encBytes a bs) (hin : a + bs.length ≤ s.enc.ctl.outCount.toNat) : BytesAt t.encBytes a bs :=
  fun k hk => (h.bytes _ (by omega)).trans (hbs k hk)

/-- As long as the count does not wrap, appending moves it by the bytes' number. -/
theorem Appended.count_toNat {s t : State} {bs : List Byte} (h : Appended s t bs)
    (hroom : s.enc.ctl.outCount.toNat + bs.length < 2 ^ 32) :
    t.enc.ctl.outCount.toNat = s.enc.ctl.outCount.toNat + bs.length := by
  rw [h.count, BitVec.toNat_add, BitVec.toNat_ofNat]
  omega

theorem Appended.continues {s t : State} {bs : List Byte} (h : Appended s t bs)
    (hroom : s.enc.ctl.outCount.toNat + bs.length < 2 ^ 32) : Continues s t :=
  ⟨by rw [h.count_toNat hroom]; omega, fun a ha => h.others a (.inl ha)⟩

/-! ### A pass of ENC -/

/-- A pass leaves room for the bytes of any step (43_encoder R187). -/
theorem EncPass.room {w : Weights} {e : Enc} (h : EncPass w e) {len : Nat} (hlen : len ≤ 8) :
    e.ctl.outCount.toNat + len < 2 ^ 32 := by
  obtain ⟨hcount, hi, hn⟩ := h.count_le
  omega

/-- A pixel step that leaves `State.encoded` appends those bytes. -/
theorem EncPass.encoded_appended {w : Weights} {s : State} (h : EncPass w s.enc) (px : Pixel) {bs : List Byte}
    (hlen : bs.length ≤ 8) (run : BitVec 6) (cache : Cache) : Appended s (s.encoded px bs run cache) bs :=
  .of_emitBytes (h.room hlen).le (by rw [State.encoded_enc]) rfl

theorem changed_bytes_length_le (run : BitVec 6) (i : Instr) : (pendingBytes run ++ encode i).length ≤ 8 := by
  have hpending := (pendingBytes_length_le run).2
  have hencode := encode_length_le i
  rw [List.length_append]
  omega

/-- Whatever its case, a pixel step appends at most eight bytes and moves the index by one. -/
theorem PixelEffect.exists_encoded {s t : State} (h : PixelEffect s t) :
    ∃ px bs run cache, t = s.encoded px bs run cache ∧ bs.length ≤ 8 := by
  cases h with
  | counted => exact ⟨_, _, _, _, rfl, Nat.zero_le _⟩
  | flushed => exact ⟨_, _, _, _, rfl, (encode_length_le _).trans (by decide)⟩
  | hit => exact ⟨_, _, _, _, rfl, changed_bytes_length_le _ _⟩
  | miss => exact ⟨_, _, _, _, rfl, changed_bytes_length_le _ _⟩

theorem EncPass.pixelStep_continues {w : Weights} {s : State} (h : EncPass w s.enc) : Continues s s.pixelStep := by
  obtain ⟨px, bs, run, cache, heq, hlen⟩ := s.pixelStep_effect.exists_encoded
  rw [heq]
  exact (h.encoded_appended px hlen run cache).continues (h.room hlen)

/-- The padding step appends the sentinel (43_encoder R183). -/
theorem EncPass.paddingStep_appended {w : Weights} {s : State} (h : EncPass w s.enc) :
    Appended s s.paddingStep padSentinel := by
  rw [State.paddingStep_eq]
  exact .of_emitBytes (h.room (by decide)).le rfl rfl

/-- The pixels of the image that ENC is set up for (43_encoder R185). -/
def State.pixelCount (s : State) : Nat := s.enc.width.toNat * s.enc.height.toNat

/-- Where ENC stands between two steps of a pass that START began at `s`, after `k` pixels. -/
structure EncAt (s e : State) (k : Nat) : Prop where
  pass : EncPass s.cfg.hashW e.enc
  busy : e.enc.ctl.state = .busy
  agenda : e.agenda = []
  index : e.enc.i.toNat = k
  slots : e.enc.n.toNat = s.pixelCount
  only : EncOnly s e

theorem EncOnly.trans {s t u : State} (h : EncOnly s t) (h' : EncOnly t u) : EncOnly s u :=
  ⟨h'.cfg.trans h.cfg, h'.dec.trans h.dec, h'.decIn.trans h.decIn, h'.decOut.trans h.decOut, h'.encPix.trans h.encPix,
    h'.hostData.trans h.hostData, h'.freeCtr.trans h.freeCtr⟩

/-- With an empty agenda and DEC not BUSY, a BUSY ENC takes its step. -/
theorem step_encode {s : State} (hagenda : s.agenda = []) (hdec : s.dec.ctl.state ≠ .busy)
    (hbusy : s.enc.ctl.state = .busy) : step s = .next s.encStep := by
  rw [step_empty s hagenda, if_neg hdec, State.turn_enc, if_pos hbusy]

/-- ENC after START at `s` and `k` pixel steps. -/
def State.pixelsDone (s : State) (k : Nat) : State := State.pixelStep^[k] (State.encStart { s with agenda := [] })

theorem State.pixelsDone_succ (s : State) (k : Nat) : s.pixelsDone (k + 1) = (s.pixelsDone k).pixelStep :=
  Function.iterate_succ_apply' _ _ _

section Pass
variable {s : State}

/-- A pass begins with the header emitted and no pixel read (70 R231). -/
theorem State.pixelsDone_zero_enc (hr : EncReady s.enc) :
    (s.pixelsDone 0).enc = (s.enc.setCtl ⟨.busy, .none, 14, 0⟩).begin := by
  have hstart := State.encStart_of_ready { s with agenda := [] } hr
  exact (congrArg (·.enc) hstart).trans (State.emitBytes_enc _ _)

theorem EncAt.zero (hr : EncReady s.enc) : EncAt s (s.pixelsDone 0) 0 := by
  obtain ⟨honly, hagenda⟩ := State.encStart_frame { s with agenda := [] }
  have hpass : EncPass s.cfg.hashW (s.pixelsDone 0).enc := EncPass.encStart (s := { s with agenda := [] }) hr
  have henc := s.pixelsDone_zero_enc hr
  refine ⟨hpass, by rw [henc]; rfl, hagenda, by rw [henc]; rfl, ?_,
    honly.cfg, honly.dec, honly.decIn, honly.decOut, honly.encPix, honly.hostData, honly.freeCtr⟩
  rw [hpass.slots, henc]
  rfl

/-- While pixels are left, a step of ENC is a pixel step and keeps the pass. -/
theorem EncAt.next {e : State} {k : Nat} (h : EncAt s e k) (hk : k < s.pixelCount) :
    e.encStep = e.pixelStep ∧ EncAt s e.pixelStep (k + 1) := by
  have hleft : e.enc.i < e.enc.n := by rwa [BitVec.lt_def, h.index, h.slots]
  have hstep : e.encStep = e.pixelStep := if_pos hleft
  have hpass : EncPass e.cfg.hashW e.enc := by rw [h.only.cfg]; exact h.pass
  have hpass' := hpass.pixelStep hleft
  obtain ⟨honly, hagenda⟩ := e.encStep_frame
  have hstate := e.encStep_state
  rw [if_pos hleft, h.busy] at hstate
  rw [hstep] at honly hagenda hstate
  obtain ⟨px, bs, run, cache, heq, -⟩ := e.pixelStep_effect.exists_encoded
  refine ⟨hstep, h.only.cfg ▸ hpass', hstate, hagenda.trans h.agenda, ?_, ?_, h.only.trans honly⟩ <;>
    rw [heq, State.encoded_enc]
  · exact (toNat_add_one_of_lt hleft).trans (congrArg (· + 1) h.index)
  · exact h.slots

theorem encAt_pixelsDone (hr : EncReady s.enc) {k : Nat} (hk : k ≤ s.pixelCount) :
    EncAt s (s.pixelsDone k) k := by
  induction k with
  | zero => exact .zero hr
  | succ k ih =>
    rw [State.pixelsDone_succ]
    exact ((ih (by omega)).next hk).2

/-- The output stream only grows during a pass. -/
theorem continues_pixelsDone (hr : EncReady s.enc) {j k : Nat} (hjk : j ≤ k)
    (hk : k ≤ s.pixelCount) : Continues (s.pixelsDone j) (s.pixelsDone k) := by
  induction k, hjk using Nat.le_induction with
  | base => exact .refl _
  | succ k hjk ih =>
    rw [State.pixelsDone_succ]
    exact (ih (by omega)).trans (encAt_pixelsDone hr (by omega)).pass.pixelStep_continues

/-- START and the pixel steps are the first steps of the run. -/
theorem run_pixelsDone (hn : s.StartNext .enc []) (hdec : s.dec.ctl.state ≠ .busy) (hr : EncReady s.enc) {k : Nat}
    (hk : k ≤ s.pixelCount) : core.run (k + 1) s = .next (s.pixelsDone k) := by
  induction k with
  | zero => exact run_step hn.step_enc 0
  | succ k ih =>
    have hat := encAt_pixelsDone hr (k := k) (by omega)
    have hdec' : (s.pixelsDone k).dec.ctl.state ≠ .busy := by rwa [hat.only.dec]
    refine run_snoc (ih (by omega)) ?_
    rw [step_encode hat.agenda hdec' hat.busy, (hat.next hk).1, State.pixelsDone_succ]

/-- The machine at the end of the pass that START begins at `s`. -/
def State.passDone (s : State) : State := (s.pixelsDone s.pixelCount).paddingStep

/-- The run of a whole pass, and what ends it: all pixels read, no run pending, the sentinel appended (43_encoder R183, R184). -/
theorem run_passDone (hn : s.StartNext .enc []) (hdec : s.dec.ctl.state ≠ .busy) (hr : EncReady s.enc) :
    core.run (s.pixelCount + 2) s = .next s.passDone := by
  have hat := encAt_pixelsDone hr (le_refl _)
  have hdec' : (s.pixelsDone s.pixelCount).dec.ctl.state ≠ .busy := by rwa [hat.only.dec]
  have hlast : ¬ (s.pixelsDone s.pixelCount).enc.i < (s.pixelsDone s.pixelCount).enc.n := by
    rw [BitVec.lt_def, hat.index, hat.slots]
    exact lt_irrefl _
  refine run_snoc (run_pixelsDone hn hdec hr (le_refl _)) ?_
  rw [step_encode hat.agenda hdec' hat.busy, State.encStep, if_neg hlast]
  rfl

theorem State.passDone_state (s : State) : s.passDone.enc.ctl.state = .done := by
  rw [State.passDone, State.paddingStep_eq]
  rfl

/-- The stream of a pass is what the pixels left, then the eight bytes of the sentinel. -/
theorem passDone_count (hr : EncReady s.enc) : s.passDone.enc.ctl.outCount.toNat =
    (s.pixelsDone s.pixelCount).enc.ctl.outCount.toNat + 8 := by
  have hat := encAt_pixelsDone hr (le_refl _)
  exact hat.pass.paddingStep_appended.count_toNat (hat.pass.room (by decide))

/-- After the last pixel no run is pending (43_encoder R173). -/
theorem EncAt.run_zero {e : State} {k : Nat} (h : EncAt s e k) (hk : k = s.pixelCount) :
    e.enc.run = 0 :=
  h.pass.no_run_left (BitVec.eq_of_toNat_eq (by rw [h.index, h.slots, hk]))

end Pass

theorem State.paddingStep_only (s : State) : EncOnly s s.paddingStep := by
  rw [State.paddingStep_eq]
  exact ⟨rfl, rfl, rfl, rfl, rfl, rfl, rfl⟩

/-- Settles O39: the bounds of the invariant at the last pixel, with no run pending, and the sentinel. -/
theorem encoderPassEndsWithinItsSizeBounds : Obligations.EncoderPassEndsWithinItsSizeBounds := by
  unfold Obligations.EncoderPassEndsWithinItsSizeBounds
  intro s hn hdec hr n
  have hat := encAt_pixelsDone hr (le_refl n)
  have hmost := hat.pass.at_most
  have hleast := hat.pass.at_least
  have hcount : s.passDone.enc.ctl.outCount.toNat = (s.pixelsDone n).enc.ctl.outCount.toNat + 8 := passDone_count hr
  rw [hat.run_zero rfl, hat.index] at hmost hleast
  refine ⟨s.passDone, run_passDone hn hdec hr, s.passDone_state, ?_, ?_⟩ <;> rw [hcount] <;> bv_omega

end Sys2Proof.Machine
end

section
/-! What DEC does with the bytes of an opcode inside the region, slot by slot, with an empty agenda (42_decoder R141 to R154). -/

namespace Sys2Proof.Machine

/-- These bytes of DEC's input lie inside the region, and the region inside the input. -/
structure InRegion (s : State) (a : Nat) (bs : List Byte) : Prop where
  bytes : BytesAt s.decIn a bs
  region : a + bs.length ≤ s.dec.chunkEnd.toNat
  input : s.dec.chunkEnd.toNat ≤ s.dec.size.toNat

theorem InRegion.append {s : State} {a : Nat} {xs ys : List Byte} (h : InRegion s a (xs ++ ys)) :
    InRegion s a xs ∧ InRegion s (a + xs.length) ys := by
  obtain ⟨hx, hy⟩ := BytesAt.append_iff.mp h.bytes
  have hregion := h.region
  rw [List.length_append] at hregion
  exact ⟨⟨hx, by omega, h.input⟩, ⟨hy, by omega, h.input⟩⟩

section OpcodeAt
variable {s : State} {i : Instr} (h : InRegion s s.dec.p.toNat (encode i))
include h

/-- The opcode whose bytes stand at the cursor is the one fetched, under every policy. -/
theorem InRegion.fetchOpcode (hwf : i.wf = true) : s.fetchOpcode = i := by
  refine State.fetchOpcode_of_decode (bs := encode i) (fun k hk => ?_) (decode_encode i hwf)
  have hregion := h.region
  have hinput := h.input
  have hend := s.dec.chunkEnd.isLt
  have hoffset : (s.dec.p + BitVec.ofNat 32 k).toNat = s.dec.p.toNat + k := by
    rw [BitVec.toNat_add, BitVec.toNat_ofNat]
    omega
  have hbefore : ¬ s.dec.chunkEnd ≤ s.dec.p + BitVec.ofNat 32 k := by
    rw [BitVec.le_def]
    omega
  rw [State.opcodeByte_eq, if_neg fun hpast => hbefore hpast.2.1, State.inByte, if_pos (by rw [BitVec.lt_def]; omega), hoffset]
  exact h.bytes k hk

theorem InRegion.operandsReadable : s.OperandsReadable ((encode i).length - 1) := by
  have hregion := h.region
  have hpos := List.length_pos_iff.mpr (encode_ne_nil i)
  exact .inr (by omega)

/-- A fetch of DEC runs that opcode. -/
theorem InRegion.step_eq (hwf : i.wf = true) (hagenda : s.agenda = []) (hbusy : s.dec.ctl.state = .busy)
    (hleft : s.dec.i < s.dec.n) (hrun : s.dec.run = 0) : step s = exec i s := by
  have hregion := h.region
  have hpos := List.length_pos_iff.mpr (encode_ne_nil i)
  rw [step_slot hagenda hbusy hleft, State.slotStep_of_fetch hrun (by rw [BitVec.lt_def]; omega), h.fetchOpcode hwf]

end OpcodeAt

theorem exec_agenda {i : Instr} {s t : State} (h : exec i s = .next t) : t.agenda = s.agenda := by
  rcases exec_cases i s with ⟨u, _, _, _, hu, hran, -⟩ | ⟨u, _, -, -, hu, -, hagenda⟩ <;> cases h.symm.trans hu
  · exact hran.agenda
  · exact hagenda

/-- With a run pending DEC repeats its pixel (42_decoder R142). -/
theorem step_runContinue {s : State} (hagenda : s.agenda = []) (hbusy : s.dec.ctl.state = .busy)
    (hleft : s.dec.i < s.dec.n) (hrun : s.dec.run ≠ 0) :
    ∃ t, step s = .next t ∧ t.agenda = [] ∧ SlotDone s t s.dec.px 0 (s.dec.run - 1) :=
  ⟨s.runContinue, (step_slot hagenda hbusy hleft).trans (if_pos hrun), hagenda,
    State.endSlot_done s _ _ 0 _ rfl (BitVec.add_zero _).symm rfl rfl rfl rfl rfl
      ⟨rfl, rfl, rfl, rfl, rfl, rfl, rfl, rfl⟩ ⟨rfl, rfl, rfl, rfl, rfl, rfl, rfl⟩⟩

/-! ### Slots that emit one pixel -/

theorem DecOnly.trans {s t u : State} (h : DecOnly s t) (h' : DecOnly t u) : DecOnly s u :=
  ⟨h'.cfg.trans h.cfg, h'.enc.trans h.enc, h'.decIn.trans h.decIn, h'.encPix.trans h.encPix, h'.encBytes.trans h.encBytes,
    h'.hostData.trans h.hostData, h'.freeCtr.trans h.freeCtr⟩

theorem SlotKeeps.trans {d d' d'' : Dec} (h : SlotKeeps d d') (h' : SlotKeeps d' d'') : SlotKeeps d d'' :=
  ⟨h'.inSize.trans h.inSize, h'.width.trans h.width, h'.height.trans h.height, h'.channels.trans h.channels,
    h'.colorspace.trans h.colorspace, h'.size.trans h.size, h'.n.trans h.n, h'.chunkEnd.trans h.chunkEnd⟩

/-- A second update with the same pixel changes nothing. -/
theorem Cache.update_update_same (c : Cache) (w : Weights) (px : Pixel) :
    Cache.update (Cache.update c w px) w px = Cache.update c w px := by
  apply Cache.ext_lookup
  intro k
  simp only [Cache.lookup_update]
  split_ifs <;> rfl

/-- From `s`, `m` slots emit `px` each and move the cursor by `len` in all, to `t`. -/
structure Emitted (s t : State) (px : Pixel) (m len : Nat) : Prop where
  runs : core.run m s = .next t
  agenda : t.agenda = []
  pixel : t.dec.px = px
  cursor : t.dec.p = s.dec.p + BitVec.ofNat 32 len
  cache : t.dec.cache = Cache.update s.dec.cache s.cfg.hashW px
  out : ∀ j, Memory.readPixel t.decOut j =
    if s.dec.i.toNat ≤ j ∧ j < s.dec.i.toNat + m then px else Memory.readPixel s.decOut j
  i : t.dec.i.toNat = s.dec.i.toNat + m
  count : t.dec.ctl.outCount = t.dec.i
  state : t.dec.ctl.state = if t.dec.i = t.dec.n then .done else .busy
  keeps : SlotKeeps s.dec t.dec
  only : DecOnly s t

/-- A slot step writes one output pixel. -/
theorem SlotDone.readPixel {s t : State} {px : Pixel} {len : Nat} {run : BitVec 6} (h : SlotDone s t px len run) (j : Nat) :
    Memory.readPixel t.decOut j = if j = s.dec.i.toNat then px else Memory.readPixel s.decOut j := by
  split_ifs with hj
  · rw [hj, h.emitted]
  · simp only [Memory.readPixel]
    congr 1 <;> exact h.out_others _ (by omega)

/-- A slot step is one slot that emits its pixel. -/
theorem Emitted.of_slotDone {s t : State} {px : Pixel} {len : Nat} {run : BitVec 6} (hstep : step s = .next t)
    (hagenda : t.agenda = []) (hbusy : s.dec.ctl.state = .busy) (hleft : s.dec.i < s.dec.n)
    (hdone : SlotDone s t px len run) : Emitted s t px 1 len where
  runs := run_step hstep 0
  agenda := hagenda
  pixel := hdone.pixel
  cursor := hdone.cursor
  cache := by
    apply Cache.ext_lookup
    intro k
    rw [Cache.lookup_update]
    split_ifs with hk
    · rw [hk, hdone.cached]
    · exact hdone.cache_others k hk
  out j := by
    rw [hdone.readPixel]
    exact if_congr (by omega) rfl rfl
  i := by rw [hdone.i, toNat_add_one_of_lt hleft]
  count := by rw [hdone.outCount, hdone.i]
  state := by
    rw [hdone.i, hdone.keeps.n]
    split_ifs with hlast
    · exact hdone.ends hlast
    · exact (hdone.goes_on hlast).trans hbusy
  keeps := hdone.keeps
  only := hdone.only

theorem Emitted.trans {s t u : State} {px : Pixel} {m len m' len' : Nat} (h : Emitted s t px m len)
    (h' : Emitted t u px m' len') : Emitted s u px (m + m') (len + len') where
  runs := (run_add (M := core) h.runs m').trans h'.runs
  agenda := h'.agenda
  pixel := h'.pixel
  cursor := by rw [h'.cursor, h.cursor, BitVec.add_assoc, BitVec.ofNat_add]
  cache := by rw [h'.cache, h.cache, h.only.cfg, Cache.update_update_same]
  out j := by
    rw [h'.out, h.out, h.i]
    by_cases hnew : s.dec.i.toNat + m ≤ j ∧ j < s.dec.i.toNat + m + m'
    · rw [if_pos hnew, if_pos (by omega)]
    · rw [if_neg hnew]
      exact if_congr (by omega) rfl rfl
  i := by rw [h'.i, h.i, Nat.add_assoc]
  count := h'.count
  state := h'.state
  keeps := h.keeps.trans h'.keeps
  only := h.only.trans h'.only

/-- Before its last slot DEC is BUSY. -/
theorem Emitted.busy {s t : State} {px : Pixel} {m len : Nat} (h : Emitted s t px m len)
    (hmore : s.dec.i.toNat + m < s.dec.n.toNat) : t.dec.ctl.state = .busy ∧ t.dec.i < t.dec.n := by
  have hlt : t.dec.i < t.dec.n := by rwa [BitVec.lt_def, h.i, h.keeps.n]
  exact ⟨h.state.trans (if_neg (BitVec.ne_of_lt hlt)), hlt⟩

/-- RUN with payload `r` emits the current pixel in this slot and the next `r` (42_decoder R142, R151). -/
theorem emitted_run {s : State} {r : BitVec 6} (hat : InRegion s s.dec.p.toNat (encode (.run r)))
    (hr : (Instr.run r).wf = true) (hagenda : s.agenda = []) (hbusy : s.dec.ctl.state = .busy) (hrun : s.dec.run = 0)
    (hroom : s.dec.i.toNat + (r.toNat + 1) ≤ s.dec.n.toNat) :
    ∃ t, Emitted s t s.dec.px (r.toNat + 1) 1 ∧ t.dec.run = 0 := by
  have hslots : ∀ m, m ≤ r.toNat → ∃ t, Emitted s t s.dec.px (m + 1) 1 ∧ t.dec.run.toNat = r.toNat - m := by
    intro m
    induction m with
    | zero =>
      intro _
      have hleft : s.dec.i < s.dec.n := by rw [BitVec.lt_def]; omega
      obtain ⟨t, ht, hdone⟩ := execRun_done r s
      exact ⟨t, .of_slotDone ((hat.step_eq hr hagenda hbusy hleft hrun).trans ht) ((exec_agenda ht).trans hagenda) hbusy hleft
        hdone, congrArg _ hdone.runLeft⟩
    | succ m ih =>
      intro hm
      obtain ⟨t, hemitted, hcount⟩ := ih (by omega)
      obtain ⟨hbusy', hleft'⟩ := hemitted.busy (by omega)
      have hpending : t.dec.run ≠ 0 := fun h0 => by
        rw [h0] at hcount
        have hzero : (0 : BitVec 6).toNat = 0 := rfl
        omega
      obtain ⟨u, hu, hagenda', hdone⟩ := step_runContinue hemitted.agenda hbusy' hleft' hpending
      have hnext := Emitted.of_slotDone hu hagenda' hbusy' hleft' hdone
      rw [hemitted.pixel] at hnext
      refine ⟨u, hemitted.trans hnext, ?_⟩
      rw [hdone.runLeft]
      bv_omega
  obtain ⟨t, hemitted, hcount⟩ := hslots r.toNat (le_refl _)
  exact ⟨t, hemitted, BitVec.eq_of_toNat_eq (by rw [hcount, Nat.sub_self]; rfl)⟩

end Sys2Proof.Machine
end

section
/-! The round trip (40_hash_cache R108 to R110): DEC, given the bytes ENC emitted, stays in step with it, opcode by opcode. -/

namespace Sys2Proof.Machine

/-! ### The two caches -/

/-- DEC's cache is ENC's, but for the slot of `START_PX`: a run at the start of the image, which ENC does not enter, puts it
there in DEC alone (40_hash_cache R109). -/
def CacheAgrees (w : Weights) (ec dc : Cache) : Prop :=
  ∀ k, Cache.lookup dc k = Cache.lookup ec k ∨
    (k = slotOf w startPx ∧ Cache.lookup dc k = startPx ∧ Cache.lookup ec k = zeroPx)

/-- ENC's cache holds the pixel, unless it is `START_PX` and nothing has been entered in its slot. -/
def PixelHeld (w : Weights) (px : Pixel) (ec : Cache) : Prop :=
  Cache.lookup ec (slotOf w px) = px ∨ (px = startPx ∧ Cache.lookup ec (slotOf w startPx) = zeroPx)

theorem CacheAgrees.refl (w : Weights) (c : Cache) : CacheAgrees w c c := fun _ => .inl rfl

theorem PixelHeld.clear (w : Weights) : PixelHeld w startPx Cache.clear := .inr ⟨rfl, Cache.lookup_clear _⟩

theorem PixelHeld.update (w : Weights) (px : Pixel) (c : Cache) : PixelHeld w px (Cache.update c w px) :=
  .inl (Cache.lookup_update_same c w px)

section Agrees
variable {w : Weights} {ec dc : Cache} (h : CacheAgrees w ec dc)
include h

/-- Both engines enter a pixel that misses. -/
theorem CacheAgrees.update (px : Pixel) : CacheAgrees w (Cache.update ec w px) (Cache.update dc w px) := by
  intro k
  rw [Cache.lookup_update, Cache.lookup_update]
  split_ifs
  · exact .inl rfl
  · exact h k

/-- DEC alone enters a pixel that ENC's cache holds. -/
theorem CacheAgrees.update_held {px : Pixel} (hheld : PixelHeld w px ec) : CacheAgrees w ec (Cache.update dc w px) := by
  intro k
  rw [Cache.lookup_update]
  split_ifs with hk
  · subst hk
    rcases hheld with hheld | ⟨rfl, hempty⟩
    · exact .inl hheld.symm
    · exact .inr ⟨rfl, rfl, hempty⟩
  · exact h k

/-- A hit of ENC is one of DEC, when `ZERO_PX`, which every empty slot holds, has another slot than `START_PX` (R103). -/
theorem CacheAgrees.lookup_of_hit {px : Pixel} (hwa : w.wa % 64 ≠ 0) (hhit : Cache.lookup ec (slotOf w px) = px) :
    Cache.lookup dc (slotOf w px) = px := by
  rcases h (slotOf w px) with hsame | ⟨hslot, -, hempty⟩
  · exact hsame.trans hhit
  · have hzero : px = zeroPx := hhit.symm.trans hempty
    subst hzero
    exact absurd hslot.symm ((startPixelSlotDiffersUnlessAlphaWeightVanishes w).2.2.mpr hwa)

end Agrees

/-! ### The two engines in step -/

/-- The registers of ENC that say where its stream stands (43_encoder R171 to R182). -/
structure EncPoint where
  pxPrev : Pixel
  run : BitVec 6
  i : Word
  outCount : Word
  cache : Cache

def Enc.point (e : Enc) : EncPoint :=
  { pxPrev := e.pxPrev, run := e.run, i := e.i, outCount := e.ctl.outCount, cache := e.cache }

/-- A run pixel counted (R172). -/
def EncPoint.counted (v : EncPoint) : EncPoint := { v with i := v.i + 1, run := v.run + 1 }

/-- The pending run flushed (R173, R174). -/
def EncPoint.flushed (v : EncPoint) : EncPoint :=
  { v with outCount := v.outCount + BitVec.ofNat 32 (pendingBytes v.run).length, run := 0 }

/-- A changed pixel encoded in `len` bytes (R175 to R182). -/
def EncPoint.changed (v : EncPoint) (px : Pixel) (len : Nat) (cache : Cache) : EncPoint :=
  { pxPrev := px, run := 0, i := v.i + 1, outCount := v.outCount + BitVec.ofNat 32 len, cache := cache }

/-- DEC, begun at `d₀`, stands in `d` where ENC stood at `v`: all bytes emitted so far are decoded, and the pixels `src` up to the
pending run, which is of the previous pixel. -/
structure InStep (d₀ : State) (src : Nat → Pixel) (v : EncPoint) (d : State) : Prop where
  runs : core.run d.dec.i.toNat d₀ = .next d
  agenda : d.agenda = []
  only : DecOnly d₀ d
  keeps : SlotKeeps d₀.dec d.dec
  pixel : d.dec.px = v.pxPrev
  noRun : d.dec.run = 0
  cursor : d.dec.p = v.outCount
  index : d.dec.i.toNat + v.run.toNat = v.i.toNat
  inside : v.i.toNat ≤ d₀.dec.n.toNat
  state : d.dec.ctl.state = if d.dec.i = d.dec.n then .done else .busy
  count : d.dec.ctl.outCount = d.dec.i
  cache : CacheAgrees d₀.cfg.hashW v.cache d.dec.cache
  held : PixelHeld d₀.cfg.hashW v.pxPrev v.cache
  decoded : ∀ j, j < d.dec.i.toNat → Memory.readPixel d.decOut j = src j
  pending : ∀ j, d.dec.i.toNat ≤ j → j < v.i.toNat → src j = v.pxPrev

section InStep
variable {d₀ d : State} {src : Nat → Pixel} {v : EncPoint} (h : InStep d₀ src v d)
include h

/-- With pixels not yet decoded DEC is BUSY. -/
theorem InStep.busy (hmore : d.dec.i.toNat < d₀.dec.n.toNat) : d.dec.ctl.state = .busy ∧ d.dec.i < d.dec.n := by
  have hlt : d.dec.i < d.dec.n := by rwa [BitVec.lt_def, h.keeps.n]
  exact ⟨h.state.trans (if_neg (BitVec.ne_of_lt hlt)), hlt⟩

/-- The bytes ENC appends stand at DEC's cursor. -/
theorem InStep.inRegion {bs : List Byte} (hbs : InRegion d₀ v.outCount.toNat bs) : InRegion d d.dec.p.toNat bs := by
  refine ⟨?_, ?_, ?_⟩
  · rw [h.only.decIn, h.cursor]
    exact hbs.bytes
  · rw [h.keeps.chunkEnd, h.cursor]
    exact hbs.region
  · rw [h.keeps.chunkEnd, h.keeps.size]
    exact hbs.input

/-- A run pixel that ENC only counts leaves DEC where it is. -/
theorem InStep.counted (hsrc : src v.i.toNat = v.pxPrev) (hmore : v.i < d₀.dec.n) (hrun : v.run ≤ 61#6) :
    InStep d₀ src v.counted d := by
  have hi : v.counted.i.toNat = v.i.toNat + 1 := toNat_add_one_of_lt hmore
  have hrun' : v.counted.run.toNat = v.run.toNat + 1 := by
    show (v.run + 1).toNat = _
    bv_omega
  refine ⟨h.runs, h.agenda, h.only, h.keeps, h.pixel, h.noRun, h.cursor, ?_, ?_, h.state, h.count, h.cache, h.held, h.decoded,
    fun j hlo hhi => ?_⟩
  · rw [hi, hrun', ← h.index, Nat.add_assoc]
  · rw [hi]
    exact hmore
  · rw [hi] at hhi
    rcases Nat.lt_succ_iff_lt_or_eq.mp hhi with hlt | rfl
    · exact h.pending j hlo hlt
    · exact hsrc

/-- Slots that emit the pixels ENC has encoded, with no run pending after them, keep the engines in step. -/
theorem InStep.emitted {t : State} {v' : EncPoint} {m len : Nat} (hemitted : Emitted d t v'.pxPrev m len)
    (hnoRun : t.dec.run = 0) (hrun : v'.run = 0) (hi : v'.i.toNat = d.dec.i.toNat + m) (hinside : v'.i.toNat ≤ d₀.dec.n.toNat)
    (hout : v'.outCount = v.outCount + BitVec.ofNat 32 len)
    (hcache : CacheAgrees d₀.cfg.hashW v'.cache (Cache.update d.dec.cache d₀.cfg.hashW v'.pxPrev))
    (hheld : PixelHeld d₀.cfg.hashW v'.pxPrev v'.cache)
    (hsrc : ∀ j, d.dec.i.toNat ≤ j → j < d.dec.i.toNat + m → src j = v'.pxPrev) : InStep d₀ src v' t where
  runs := by
    rw [hemitted.i]
    exact (run_add (M := core) h.runs m).trans hemitted.runs
  agenda := hemitted.agenda
  only := h.only.trans hemitted.only
  keeps := h.keeps.trans hemitted.keeps
  pixel := hemitted.pixel
  noRun := hnoRun
  cursor := by rw [hemitted.cursor, h.cursor, hout]
  index := by
    rw [hrun, hemitted.i, hi]
    rfl
  inside := hinside
  state := hemitted.state
  count := hemitted.count
  cache := by
    rw [hemitted.cache, h.only.cfg]
    exact hcache
  held := hheld
  decoded j hj := by
    rw [hemitted.i] at hj
    rw [hemitted.out]
    split_ifs with hnew
    · exact (hsrc j hnew.1 hnew.2).symm
    · exact h.decoded j (by omega)
  pending j hlo hhi := by
    rw [hemitted.i] at hlo
    omega

/-- When ENC flushes the pending run, DEC decodes it (42_decoder R151). -/
theorem InStep.flushed (hrun : v.run ≤ 62#6) (hbytes : InRegion d₀ v.outCount.toNat (pendingBytes v.run)) :
    ∃ t, InStep d₀ src v.flushed t := by
  by_cases h0 : v.run = 0
  · have hnone : pendingBytes v.run = [] := if_neg (not_not.mpr h0)
    have hsame : v.flushed = v := by
      rw [EncPoint.flushed, hnone, List.length_nil, BitVec.add_zero, ← h0]
    exact ⟨d, hsame.symm ▸ h⟩
  · have hsome : pendingBytes v.run = encode (.run (v.run - 1)) := if_pos h0
    have hpayload : (v.run - 1).toNat + 1 = v.run.toNat := by bv_omega
    have hwf : (Instr.run (v.run - 1)).wf = true := decide_eq_true (by bv_omega)
    have hindex := h.index
    have hinside := h.inside
    obtain ⟨hbusy, -⟩ := h.busy (by omega)
    obtain ⟨t, hemitted, hnoRun⟩ := emitted_run (h.inRegion (hsome ▸ hbytes)) hwf h.agenda hbusy h.noRun
      (by rw [h.keeps.n]; omega)
    rw [hpayload, h.pixel] at hemitted
    have hout : v.flushed.outCount = v.outCount + BitVec.ofNat 32 1 := by
      rw [EncPoint.flushed, hsome, encode_run_eq]
      rfl
    exact ⟨t, h.emitted hemitted hnoRun rfl hindex.symm hinside hout (h.cache.update_held h.held) h.held
      fun j hlo hhi => h.pending j hlo (by omega)⟩

/-- When ENC encodes a changed pixel with no run pending, DEC decodes the opcode to that pixel. -/
theorem InStep.changed (hrun : v.run = 0) {i : Instr} {px : Pixel} {cache : Cache} (hwf : i.wf = true)
    (hbytes : InRegion d₀ v.outCount.toNat (encode i))
    (hexec : ∃ t, exec i d = .next t ∧ SlotDone d t px (encode i).length d.dec.run)
    (hsrc : src v.i.toNat = px) (hmore : v.i < d₀.dec.n)
    (hcache : CacheAgrees d₀.cfg.hashW cache (Cache.update d.dec.cache d₀.cfg.hashW px))
    (hheld : PixelHeld d₀.cfg.hashW px cache) : ∃ t, InStep d₀ src (v.changed px (encode i).length cache) t := by
  have hindex : d.dec.i.toNat = v.i.toNat := by
    have hsum := h.index
    rw [hrun] at hsum
    exact hsum
  have hi : (v.i + 1).toNat = v.i.toNat + 1 := toNat_add_one_of_lt hmore
  have hmore' := BitVec.lt_def.mp hmore
  obtain ⟨hbusy, hleft⟩ := h.busy (by omega)
  obtain ⟨t, ht, hdone⟩ := hexec
  have hstep := ((h.inRegion hbytes).step_eq hwf h.agenda hbusy hleft h.noRun).trans ht
  have hemitted := Emitted.of_slotDone hstep ((exec_agenda ht).trans h.agenda) hbusy hleft hdone
  refine ⟨t, h.emitted hemitted (hdone.runLeft.trans h.noRun) rfl (hi.trans (by rw [hindex])) (hi.le.trans hmore')
    rfl hcache hheld fun j hlo hhi => ?_⟩
  rw [show j = v.i.toNat by omega]
  exact hsrc

end InStep

end Sys2Proof.Machine
end

section
/-! The round trip (40_hash_cache R110): the engines in step through every pixel, and the two passes from START to their ends. -/

namespace Sys2Proof.Machine

/-! ### A pixel step -/

/-- The bytes of a run one longer than `run` carry the payload `run` (30_encoding R76). -/
theorem pendingBytes_add_one {run : BitVec 6} (h : run ≤ 61#6) : pendingBytes (run + 1) = encode (.run run) := by
  revert run; decide

section Points
variable (e : State)

/-- The point after a counted run pixel. -/
theorem State.encoded_counted_point :
    (e.encoded e.enc.pxPrev [] (e.enc.run + 1) e.enc.cache).enc.point = e.enc.point.counted := by
  rw [State.encoded_enc, List.length_nil]
  simp only [Enc.point, EncPoint.counted, BitVec.add_zero]

/-- The point after a run pixel that is counted and flushed. -/
theorem State.encoded_flushed_point :
    (e.encoded e.enc.pxPrev (pendingBytes (e.enc.run + 1)) 0 e.enc.cache).enc.point = e.enc.point.counted.flushed := by
  rw [State.encoded_enc]
  rfl

/-- The point after a changed pixel: the pending run flushed, then the opcode. -/
theorem State.encoded_changed_point (px : Pixel) (i : Instr) (cache : Cache) :
    (e.encoded px (pendingBytes e.enc.run ++ encode i) 0 cache).enc.point =
      e.enc.point.flushed.changed px (encode i).length cache := by
  rw [State.encoded_enc]
  simp only [Enc.point, EncPoint.flushed, EncPoint.changed, List.length_append, BitVec.ofNat_add, BitVec.add_assoc]

end Points

section PixelStep
variable {d₀ d e : State} {src : Nat → Pixel} (h : InStep d₀ src e.enc.point d) (hpass : EncPass d₀.cfg.hashW e.enc)
  (hleft : e.enc.i < e.enc.n) (hn : d₀.dec.n = e.enc.n)
include h hpass hleft hn

/-- A changed pixel keeps the engines in step: the pending run is flushed, and the opcode is one that DEC decodes to the pixel. -/
theorem InStep.changedPixel {px : Pixel} (hsrc : src e.enc.i.toNat = px) {i : Instr} (hwf : i.wf = true) {cache : Cache}
    (hbytes : InRegion d₀ e.enc.ctl.outCount.toNat (pendingBytes e.enc.run ++ encode i))
    (hexec : ∀ u, InStep d₀ src e.enc.point.flushed u → InRegion u u.dec.p.toNat (encode i) →
      (∃ t, exec i u = .next t ∧ SlotDone u t px (encode i).length u.dec.run) ∧
        CacheAgrees d₀.cfg.hashW cache (Cache.update u.dec.cache d₀.cfg.hashW px))
    (hheld : PixelHeld d₀.cfg.hashW px cache) :
    ∃ t, InStep d₀ src (e.encoded px (pendingBytes e.enc.run ++ encode i) 0 cache).enc.point t := by
  obtain ⟨hpending, hopcode⟩ := hbytes.append
  have hcount : e.enc.point.flushed.outCount.toNat = e.enc.ctl.outCount.toNat + (pendingBytes e.enc.run).length := by
    have hroom := hpass.room (len := (pendingBytes e.enc.run).length) ((pendingBytes_length_le _).2.trans (by decide))
    show (e.enc.ctl.outCount + BitVec.ofNat 32 (pendingBytes e.enc.run).length).toNat = _
    rw [BitVec.toNat_add, BitVec.toNat_ofNat]
    omega
  have hrun : e.enc.run ≤ 62#6 := Nat.le_trans hpass.run_max (by decide)
  obtain ⟨u, hu⟩ := h.flushed hrun hpending
  rw [← hcount] at hopcode
  obtain ⟨hdone, hagrees⟩ := hexec u hu (hu.inRegion hopcode)
  rw [State.encoded_changed_point]
  exact hu.changed rfl hwf hopcode hdone hsrc (by rw [hn]; exact hleft) hagrees hheld

/-- Every pixel step of ENC keeps the engines in step, when DEC's input continues what the step appends. -/
theorem InStep.pixelStep (hcfg : e.cfg = d₀.cfg) (hwa : d₀.cfg.hashW.wa % 64 ≠ 0)
    (hsrc : src e.enc.i.toNat = Memory.readPixel e.encPix e.enc.i.toNat)
    (hstream : ∀ bs, bs.length ≤ 8 → Appended e e.pixelStep bs → InRegion d₀ e.enc.ctl.outCount.toNat bs) :
    ∃ t, InStep d₀ src e.pixelStep.enc.point t := by
  have hcounted (same : Memory.readPixel e.encPix e.enc.i.toNat = e.enc.pxPrev) : InStep d₀ src e.enc.point.counted d :=
    h.counted (hsrc.trans same) (by rw [hn]; exact hleft) hpass.run_max
  have heffect := e.pixelStep_effect
  generalize e.pixelStep = e' at heffect hstream ⊢
  cases heffect with
  | counted same =>
    rw [State.encoded_counted_point]
    exact ⟨d, hcounted same⟩
  | flushed same =>
    have hlimit := hpass.run_max
    have hlen := (encode_length_le (.run e.enc.run)).trans (by decide : 5 ≤ 8)
    have hbytes := hstream _ hlen (hpass.encoded_appended _ hlen _ _)
    rw [← pendingBytes_add_one hlimit] at hbytes ⊢
    rw [State.encoded_flushed_point]
    exact (hcounted same).flushed (show e.enc.run + 1 ≤ 62#6 by bv_omega) hbytes
  | @hit px read changed held =>
    rw [hcfg] at held hstream ⊢
    have hlen := changed_bytes_length_le e.enc.run (.index (slotOf d₀.cfg.hashW px))
    have hbytes := hstream _ hlen (hpass.encoded_appended _ hlen _ _)
    refine h.changedPixel hpass hleft hn (hsrc.trans read) rfl hbytes (fun u hu _ => ⟨?_, ?_⟩) (.inl held)
    · have hdone := exec_index_done (slotOf d₀.cfg.hashW px) u
      rw [hu.cache.lookup_of_hit hwa held] at hdone
      rwa [encode_index_eq]
    · exact hu.cache.update_held (.inl held)
  | @miss px read changed =>
    rw [hcfg] at hstream ⊢
    have hlen := changed_bytes_length_le e.enc.run (selectOnMiss px e.enc.pxPrev)
    have hbytes := hstream _ hlen (hpass.encoded_appended _ hlen _ _)
    refine h.changedPixel hpass hleft hn (hsrc.trans read) (selectOnMiss_wf _ _) hbytes
      (fun u hu hat => ⟨?_, hu.cache.update _⟩) (.update _ _ _)
    have hpx : u.dec.px = e.enc.pxPrev := hu.pixel
    rw [← hpx] at hat ⊢
    exact exec_selectOnMiss _ hat.operandsReadable

end PixelStep

/-! ### The two passes -/

/-- DEC's side of the round trip: ENC's stream in its input space, its length in the size register, START next. -/
def State.handOver (e : State) : State :=
  { e with
    decIn := e.encBytes
    dec := { e.dec with inSize := e.enc.ctl.outCount }
    agenda := [.host (.writeReg .dec 0 1)] }

section HandOver
variable (e : State)

@[simp] theorem State.handOver_cfg : e.handOver.cfg = e.cfg := rfl
@[simp] theorem State.handOver_dec : e.handOver.dec = { e.dec with inSize := e.enc.ctl.outCount } := rfl

end HandOver

/-- DEC begun at `d₀` on the stream that the pass of ENC from `s` leaves: the descriptor is ENC's, and the region ends before the
sentinel. -/
structure StartedOn (s d₀ : State) : Prop where
  input : d₀.decIn = s.passDone.encBytes
  cfg : d₀.cfg = s.cfg
  region : d₀.dec.chunkEnd.toNat + 8 = s.passDone.enc.ctl.outCount.toNat
  size : d₀.dec.size = s.passDone.enc.ctl.outCount
  slots : d₀.dec.n.toNat = s.pixelCount
  width : d₀.dec.width = s.enc.width
  height : d₀.dec.height = s.enc.height
  channels : d₀.dec.channels = s.enc.channels
  colorspace : d₀.dec.colorspace = s.enc.colorspace
  inStep : ∀ src, InStep d₀ src (s.pixelsDone 0).enc.point d₀

section RoundTrip
variable {s : State} (hr : EncReady s.enc)
include hr

/-- The stream of a whole pass continues that of each of its pixel steps, and ends eight bytes after the last. -/
theorem continues_passDone {k : Nat} (hk : k ≤ s.pixelCount) :
    Continues (s.pixelsDone k) s.passDone ∧
      (s.pixelsDone k).enc.ctl.outCount.toNat + 8 ≤ s.passDone.enc.ctl.outCount.toNat := by
  have hpass := (encAt_pixelsDone hr (le_refl _)).pass
  have hupto := continues_pixelsDone hr hk (le_refl _)
  have hcount := hupto.count
  exact ⟨hupto.trans (hpass.paddingStep_appended.continues (hpass.room (by decide))), by rw [passDone_count hr]; omega⟩

/-- The stream starts with the header (41_header R133). -/
theorem passDone_header : BytesAt s.passDone.encBytes 0 (headerOf s.enc.width s.enc.height s.enc.channels s.enc.colorspace) := by
  have hstart := State.encStart_of_ready { s with agenda := [] } hr
  have hcount : (s.pixelsDone 0).enc.ctl.outCount = 14 := congrArg (·.ctl.outCount) (s.pixelsDone_zero_enc hr)
  refine (continues_passDone hr (Nat.zero_le _)).1.bytesAt (fun k hk => ?_) (by rw [hcount]; exact le_refl 14)
  have hbytes : (s.pixelsDone 0).encBytes = _ := congrArg (·.encBytes) hstart
  rw [hbytes, State.emitBytes_read _ _ _ (by simp [headerOf_length]), if_pos (by simpa using hk)]
  simp

/-- The bytes of a pixel step lie in the region of a DEC begun on the stream. -/
theorem StartedOn.inRegion {d₀ : State} (hd : StartedOn s d₀) {k : Nat} (hk : k < s.pixelCount) {bs : List Byte}
    (hlen : bs.length ≤ 8) (happ : Appended (s.pixelsDone k) (s.pixelsDone k).pixelStep bs) :
    InRegion d₀ (s.pixelsDone k).enc.ctl.outCount.toNat bs := by
  have hcount := happ.count_toNat ((encAt_pixelsDone hr hk.le).pass.room hlen)
  rw [← State.pixelsDone_succ] at happ hcount
  obtain ⟨hcont, hend⟩ := continues_passDone hr (k := k + 1) hk
  have hregion := hd.region
  refine ⟨?_, by omega, by rw [hd.size]; omega⟩
  rw [hd.input]
  exact hcont.bytesAt happ.bytes hcount.ge

/-- The engines begin in step: no pixel read, the cursor after the header, and the same pixel and cache in both. -/
theorem InStep.start {d₀ : State} (hagenda : d₀.agenda = []) (hbusy : d₀.dec.ctl.state = .busy)
    (hcount : d₀.dec.ctl.outCount = 0) (hpx : d₀.dec.px = startPx) (hrun : d₀.dec.run = 0)
    (hcache : d₀.dec.cache = Cache.clear) (hn : d₀.dec.n.toNat = s.pixelCount) (hp : d₀.dec.p = 14) (hi : d₀.dec.i = 0)
    (src : Nat → Pixel) : InStep d₀ src (s.pixelsDone 0).enc.point d₀ := by
  have hnone : d₀.dec.i.toNat = 0 := by rw [hi]; rfl
  have hsome : d₀.dec.i ≠ d₀.dec.n := fun h => by
    have hpos : 0 < s.pixelCount := hr.dims.bounds.2.2
    rw [← hn, ← h, hnone] at hpos
    exact lt_irrefl 0 hpos
  rw [s.pixelsDone_zero_enc hr]
  exact {
    runs := by rw [hnone]; rfl
    agenda := hagenda
    only := ⟨rfl, rfl, rfl, rfl, rfl, rfl, rfl⟩
    keeps := ⟨rfl, rfl, rfl, rfl, rfl, rfl, rfl, rfl⟩
    pixel := hpx
    noRun := hrun
    cursor := hp
    index := by rw [hnone]; rfl
    inside := Nat.zero_le _
    state := by rw [hbusy, if_neg hsome]
    count := hcount.trans hi.symm
    cache := by rw [hcache]; exact .refl _ _
    held := .clear _
    decoded := fun j hj => absurd (hnone ▸ hj) (Nat.not_lt_zero j)
    pending := fun j _ hj => absurd hj (Nat.not_lt_zero j) }

/-- START of DEC finds the header that ENC emitted, and accepts it (41_header R129). -/
theorem start_handOver (hdec : s.dec.ctl.state ≠ .busy) : ∃ d₀, step s.passDone.handOver = .next d₀ ∧ StartedOn s d₀ := by
  have hat := encAt_pixelsDone hr (le_refl _)
  have hsize : 22 ≤ s.passDone.enc.ctl.outCount.toNat := by
    have hheader := hat.pass.header_out
    rw [passDone_count hr]
    omega
  have honly : EncOnly s s.passDone := hat.only.trans (State.paddingStep_only _)
  have hidle : s.passDone.handOver.dec.ctl.state ≠ .busy := by rwa [State.handOver_dec, honly.dec]
  have hheader : s.passDone.handOver.HeaderAt s.enc.width s.enc.height s.enc.channels s.enc.colorspace := fun k hk =>
    (congrArg _ (Nat.zero_add k).symm).trans (passDone_header hr k hk)
  obtain ⟨d₀, hstep, hagenda, hbusy, -, hcount, -, hpx, hrun, hcache, hw, hh, hch, hcs, hn, hend, hp, hi, hsz, -, hd⟩ :=
    acceptedHeaderStartsThePass s.passDone.handOver [] _ _ _ _ ⟨rfl, hidle⟩ hsize hheader hr.dims hr.channels
  have hend' : d₀.dec.chunkEnd.toNat = s.passDone.enc.ctl.outCount.toNat - 8 := hend
  have hclear : d₀.dec.cache = Cache.clear :=
    Cache.ext_lookup _ _ fun k => (hcache k).trans (Cache.lookup_clear k).symm
  exact ⟨d₀, hstep, hd.decIn, (hd.cfg.trans (State.handOver_cfg _)).trans honly.cfg, by omega, hsz, hn, hw, hh, hch, hcs,
    .start hr hagenda hbusy hcount hpx hrun hclear hn hp hi⟩

/-- The engines stay in step through every pixel of the image. -/
theorem StartedOn.inStep_pixelsDone {d₀ : State} (hd₀ : StartedOn s d₀) (hwa : s.cfg.hashW.wa % 64 ≠ 0) {k : Nat}
    (hk : k ≤ s.pixelCount) : ∃ d, InStep d₀ (Memory.readPixel s.encPix) (s.pixelsDone k).enc.point d := by
  have hcfg := hd₀.cfg
  induction k with
  | zero => exact ⟨d₀, hd₀.inStep _⟩
  | succ k ih =>
    obtain ⟨d, hd⟩ := ih (Nat.le_of_succ_le hk)
    have hat := encAt_pixelsDone hr (Nat.le_of_succ_le hk)
    have hleft : (s.pixelsDone k).enc.i < (s.pixelsDone k).enc.n := by rwa [BitVec.lt_def, hat.index, hat.slots]
    have hn : d₀.dec.n = (s.pixelsDone k).enc.n := BitVec.eq_of_toNat_eq (hd₀.slots.trans hat.slots.symm)
    rw [State.pixelsDone_succ]
    exact hd.pixelStep (hcfg ▸ hat.pass) hleft hn (hat.only.cfg.trans hcfg.symm) (hcfg ▸ hwa) (by rw [hat.only.encPix])
      fun bs hlen happ => hd₀.inRegion hr hk hlen happ

end RoundTrip

/-- Settles O41: ENC's whole stream is decoded in step with it, so after the last pixel, with no run pending, DEC has decoded
every pixel and is DONE. -/
theorem decodingAnEncodedImageGivesItsPixelsBack : Obligations.DecodingAnEncodedImageGivesItsPixelsBack := by
  unfold Obligations.DecodingAnEncodedImageGivesItsPixelsBack
  intro s hn hdec hr hwa n
  obtain ⟨d₀, hstep, hd₀⟩ := start_handOver hr hdec
  obtain ⟨d, hd⟩ := hd₀.inStep_pixelsDone hr hwa (le_refl n)
  have hat := encAt_pixelsDone hr (le_refl n)
  have hi : d.dec.i.toNat = n := by
    have hindex : d.dec.i.toNat + (s.pixelsDone n).enc.run.toNat = (s.pixelsDone n).enc.i.toNat := hd.index
    rw [hat.run_zero rfl, hat.index] at hindex
    exact hindex
  have hruns := hd.runs
  rw [hi] at hruns
  refine ⟨s.passDone, d, run_passDone hn hdec hr, s.passDone_state, (run_step hstep n).trans hruns, ?_,
    hd.keeps.width.trans hd₀.width, hd.keeps.height.trans hd₀.height, hd.keeps.channels.trans hd₀.channels,
    hd.keeps.colorspace.trans hd₀.colorspace, ?_, fun j hj => hd.decoded j (hi.symm ▸ hj)⟩
  · rw [hd.state, if_pos]
    exact BitVec.eq_of_toNat_eq (by rw [hi, hd.keeps.n, hd₀.slots]; rfl)
  · rw [hd.count, hi]

end Sys2Proof.Machine
end

section
/-! The host's commands, writes and reads (10_state R31 to R37, 60_exceptions R207, R211): one equation per case of each. -/

namespace Sys2Proof.Machine

/-! ### Commands -/

theorem lowByte_two : lowByte 2 = 2 := by decide

/-- Commands below 256 that differ have different low bytes (log 9). -/
theorem lowByte_ne_of_ne {v w : Word} (hv : v.toNat < 256) (hw : w.toNat < 256) (h : v ≠ w) : lowByte v ≠ lowByte w := by
  rw [Ne, lowByte_eq_iff, lowByte, BitVec.toNat_setWidth]
  rw [Ne, ← BitVec.toNat_inj] at h
  omega

section Commands
variable (s : State)

theorem State.decCommand_start (h : s.dec.ctl.state ≠ .busy) : s.decCommand 1 = .next s.decStart :=
  (if_pos rfl).trans (if_neg h)

theorem State.decCommand_start_of_busy (h : s.dec.ctl.state = .busy) : s.decCommand 1 = .refused .startWhileBusy :=
  (if_pos rfl).trans (if_pos h)

theorem State.decCommand_abort (h : s.dec.ctl.state = .busy) :
    s.decCommand 2 = .next (s.setDec (s.dec.setCtl (s.dec.ctl.abort .none))) :=
  congrArg _ (if_pos h)

theorem State.decCommand_abort_of_idle (h : s.dec.ctl.state ≠ .busy) : s.decCommand 2 = .next s :=
  congrArg _ (if_neg h)

theorem State.decCommand_other {c : Byte} (h1 : c ≠ 1) (h2 : c ≠ 2) : s.decCommand c = .next s :=
  (if_neg h1).trans (if_neg h2)

theorem State.encCommand_start (h : s.enc.ctl.state ≠ .busy) : s.encCommand 1 = .next s.encStart :=
  (if_pos rfl).trans (if_neg h)

theorem State.encCommand_start_of_busy (h : s.enc.ctl.state = .busy) : s.encCommand 1 = .refused .startWhileBusy :=
  (if_pos rfl).trans (if_pos h)

theorem State.encCommand_abort (h : s.enc.ctl.state = .busy) :
    s.encCommand 2 = .next (s.setEnc (s.enc.setCtl (s.enc.ctl.abort .none))) :=
  congrArg _ (if_pos h)

theorem State.encCommand_abort_of_idle (h : s.enc.ctl.state ≠ .busy) : s.encCommand 2 = .next s :=
  congrArg _ (if_neg h)

theorem State.encCommand_other {c : Byte} (h1 : c ≠ 1) (h2 : c ≠ 2) : s.encCommand c = .next s :=
  (if_neg h1).trans (if_neg h2)

end Commands

/-- The frame of a step does not speak of the agenda. -/
theorem DecOnly.of_agenda {s t : State} {r : List Event} (h : DecOnly { s with agenda := r } t) : DecOnly s t :=
  ⟨h.cfg, h.enc, h.decIn, h.encPix, h.encBytes, h.hostData, h.freeCtr⟩

theorem EncOnly.of_agenda {s t : State} {r : List Event} (h : EncOnly { s with agenda := r } t) : EncOnly s t :=
  ⟨h.cfg, h.dec, h.decIn, h.decOut, h.encPix, h.hostData, h.freeCtr⟩

/-- START of DEC leaves the start values of a pass, BUSY or in ERROR (70 R230, 41_header R130). -/
theorem State.decStart_starts (s : State) :
    s.decStart.dec.px = startPx ∧ s.decStart.dec.run = 0 ∧ s.decStart.dec.cache = Cache.clear ∧
      s.decStart.dec.ctl.outCount = 0 ∧ (s.decStart.dec.ctl.state = .busy ∨ s.decStart.dec.ctl.state = .error) := by
  rcases s.decStart_cases with ⟨-, h⟩ | ⟨-, h⟩ <;> rw [h]
  · exact ⟨rfl, rfl, rfl, rfl, .inl rfl⟩
  · exact ⟨rfl, rfl, rfl, rfl, .inr rfl⟩

/-- START of ENC leaves it BUSY or in ERROR (70 R231, 43_encoder R185). -/
theorem State.encStart_starts (s : State) : s.encStart.enc.ctl.state = .busy ∨ s.encStart.enc.ctl.state = .error := by
  by_cases hr : EncReady s.enc
  · rw [State.encStart_of_ready s hr, State.emitBytes_enc]
    exact .inl rfl
  · rw [State.encStart, if_neg (mt (encCause_none_iff _).mp hr)]
    exact .inr rfl

/-- Settles O43: one equation of the command per clause, and START leaves what `beginDec` sets. -/
theorem decoderCommandsStartAndAbort : Obligations.DecoderCommandsStartAndAbort := by
  unfold Obligations.DecoderCommandsStartAndAbort
  intro s rest v hv hnext
  have hstep : step s = State.decCommand { s with agenda := rest } (lowByte v) := step_writeReg hnext
  refine ⟨?_, ?_, ?_, ?_, fun h1 h2 => ?_⟩
  · rintro rfl hidle
    obtain ⟨honly, hagenda, -⟩ := State.decStart_frame { s with agenda := rest }
    obtain ⟨hpx, hrun, hcache, hcount, hstate⟩ := State.decStart_starts { s with agenda := rest }
    exact ⟨_, hstep.trans (State.decCommand_start _ hidle), hagenda, honly.of_agenda, hpx, hrun,
      fun k => by rw [hcache]; exact Cache.lookup_clear k, hcount, hstate⟩
  · rintro rfl hbusy
    exact hstep.trans (State.decCommand_start_of_busy _ hbusy)
  · rintro rfl hbusy
    exact hstep.trans (State.decCommand_abort _ hbusy)
  · rintro rfl hidle
    exact hstep.trans (State.decCommand_abort_of_idle _ hidle)
  · exact hstep.trans (State.decCommand_other _ (lowByte_one ▸ lowByte_ne_of_ne hv (by decide) h1)
      (lowByte_two ▸ lowByte_ne_of_ne hv (by decide) h2))

/-- Settles O44: one equation of the command per clause. -/
theorem encoderCommandsStartAndAbort : Obligations.EncoderCommandsStartAndAbort := by
  unfold Obligations.EncoderCommandsStartAndAbort
  intro s rest v hv hnext
  have hstep : step s = State.encCommand { s with agenda := rest } (lowByte v) := step_writeReg hnext
  refine ⟨?_, ?_, ?_, ?_, fun h1 h2 => ?_⟩
  · rintro rfl hidle
    obtain ⟨honly, hagenda⟩ := State.encStart_frame { s with agenda := rest }
    exact ⟨_, hstep.trans (State.encCommand_start _ hidle), hagenda, honly.of_agenda,
      State.encStart_starts { s with agenda := rest }⟩
  · rintro rfl hbusy
    exact hstep.trans (State.encCommand_start_of_busy _ hbusy)
  · rintro rfl hbusy
    exact hstep.trans (State.encCommand_abort _ hbusy)
  · rintro rfl hidle
    exact hstep.trans (State.encCommand_abort_of_idle _ hidle)
  · exact hstep.trans (State.encCommand_other _ (lowByte_one ▸ lowByte_ne_of_ne hv (by decide) h1)
      (lowByte_two ▸ lowByte_ne_of_ne hv (by decide) h2))

/-! ### Writes -/

section Writes
variable {s : State} {no : Nat} {v : Word} (hno : no ≠ 0)
include hno

theorem State.hostWrite_dec_of_idle (hidle : s.dec.ctl.state ≠ .busy) :
    s.hostWrite .dec no v = .next (s.setDec (s.dec.writeReg no v)) := by
  simp only [State.hostWrite, if_neg hno, if_neg hidle]

theorem State.hostWrite_enc_of_idle (hidle : s.enc.ctl.state ≠ .busy) :
    s.hostWrite .enc no v = .next (s.setEnc (s.enc.writeReg no v)) := by
  simp only [State.hostWrite, if_neg hno, if_neg hidle]

end Writes

/-- The numbers of ENC that are no RW register ignore a write (10_state R31, log 10). -/
theorem Enc.writeReg_other (e : Enc) {no : Nat} (v : Word) (h : no < 2 ∨ 7 ≤ no) : e.writeReg no v = e := by
  obtain rfl | rfl | ⟨k, rfl⟩ : no = 0 ∨ no = 1 ∨ ∃ k, no = k + 7 := by
    rcases h with h | h
    · omega
    · exact .inr (.inr ⟨no - 7, by omega⟩)
  all_goals rfl

theorem Dec.writeReg_eq (d : Dec) (no : Nat) (v : Word) :
    d.writeReg no v = if no = 2 then { d with inSize := v } else d := by
  unfold Dec.writeReg
  split
  · rfl
  · exact (if_neg ‹_›).symm

/-- A register value below 256 is its low byte (log 9). -/
theorem lowByte_of_toNat_eq {v : Word} {b : Byte} (h : v.toNat = b.toNat) : lowByte v = b :=
  (lowByte_eq_iff v b).mpr (by rw [h]; exact Nat.mod_eq_of_lt b.isLt)

/-- Settles O45: the step is the host write of an engine that is not BUSY. -/
theorem hostWritesReachOnlyTheRwRegisters : Obligations.HostWritesReachOnlyTheRwRegisters := by
  unfold Obligations.HostWritesReachOnlyTheRwRegisters
  intro s rest no v hno
  refine ⟨fun hidle hnext => ?_, fun hidle hnext => ?_⟩
  · have hstep := (step_writeReg hnext).trans (State.hostWrite_dec_of_idle (s := { s with agenda := rest }) hno hidle)
    rw [hstep, Dec.writeReg_eq]
    rfl
  · have hstep := (step_writeReg hnext).trans (State.hostWrite_enc_of_idle (s := { s with agenda := rest }) hno hidle)
    rw [hstep]
    refine ⟨?_, ?_, ?_, ?_, ?_, fun h => ?_⟩
    · rintro rfl; rfl
    · rintro rfl; rfl
    · rintro rfl; rfl
    · rintro rfl b hb
      rw [← lowByte_of_toNat_eq hb]
      rfl
    · rintro rfl b hb
      rw [← lowByte_of_toNat_eq hb]
      rfl
    · rw [Enc.writeReg_other _ _ (by omega)]
      rfl

/-! ### Reads -/

/-- The step of a register read (60_exceptions R210). -/
theorem step_readReg {s : State} {e : Engine} {no : Nat} {rest : List Event}
    (h : s.agenda = .host (.readReg e no) :: rest) : step s = State.hostRead { s with agenda := rest } e no :=
  step_host s _ rest h

/-- A status word as a number: the code of `STATE`, and that of `CAUSE` from bit 8 on (10_state R32, R33). -/
theorem statusWord_toNat (state : EngineState) (cause : BitVec 4) :
    (statusWord state cause).toNat = state.code.toNat + 256 * cause.toNat := by
  revert cause
  cases state <;> decide

/-- Settles O46: the read answers the status word. -/
theorem statusWordHoldsStateAndCause : Obligations.StatusWordHoldsStateAndCause := by
  unfold Obligations.StatusWordHoldsStateAndCause
  intro s rest stateCode decCode encCode
  have hstate : ∀ x : EngineState, x.code.toNat = stateCode x := fun x => by cases x <;> rfl
  have hdec : ∀ x : DecCause, x.code.toNat = decCode x := fun x => by cases x <;> rfl
  have henc : ∀ x : EncCause, x.code.toNat = encCode x := fun x => by cases x <;> rfl
  refine ⟨fun hnext => ⟨s.dec.status, ?_, ?_⟩, fun hnext => ⟨s.enc.status, ?_, ?_⟩⟩
  · rw [step_readReg hnext, State.hostRead_dec_eq _ 1 (by decide)]
    exact if_neg fun h => absurd h.2 (by decide)
  · rw [Dec.status, statusWord_toNat, hstate, hdec]
  · rw [step_readReg hnext, State.hostRead_enc_eq _ 1 (by decide)]
    exact if_neg fun h => absurd h.2.1 (by decide)
  · rw [Enc.status, statusWord_toNat, hstate, henc]

section Reads
variable {s : State} {no : Nat}

/-- A register with no value answers a free one (log 8). -/
theorem State.hostRead_reserved (e : Engine) (h : 9 ≤ no) : s.hostRead e no = .next (s.answerFree (.word s.freeWord)) := by
  obtain ⟨k, rfl⟩ : ∃ k, no = k + 9 := ⟨no - 9, by omega⟩
  cases e
  · exact State.hostRead_dec_eq s (k + 9) (by omega)
  · exact State.hostRead_enc_eq s (k + 9) (by omega)

/-- An RW register of a BUSY DEC answers a free value (log 11). -/
theorem State.hostRead_dec_busy (hbusy : s.dec.ctl.state = .busy) :
    s.hostRead .dec 2 = .next (s.answerFree (.word s.freeWord)) := by
  rw [State.hostRead_dec_eq _ 2 (by decide)]
  exact if_pos ⟨hbusy, rfl⟩

/-- The RW registers of a BUSY ENC answer free values (log 11). -/
theorem State.hostRead_enc_busy (hbusy : s.enc.ctl.state = .busy) (hlo : 2 ≤ no) (hhi : no ≤ 6) :
    s.hostRead .enc no = .next (s.answerFree (.word s.freeWord)) := by
  rw [State.hostRead_enc_eq _ no (by omega)]
  cases s.enc.readReg no with
  | none => rfl
  | some v => exact if_pos ⟨hbusy, hlo, hhi⟩

/-- A register of DEC with a value answers it, but for the RW one while BUSY. -/
theorem State.hostRead_dec_value (hno : no ≠ 0) {v : Word} (hv : s.dec.readReg no = some v)
    (hread : s.dec.ctl.state ≠ .busy ∨ 3 ≤ no) : s.hostRead .dec no = .next (s.answer (.word v)) := by
  rw [State.hostRead_dec_eq _ no hno, hv]
  exact if_neg fun h => hread.elim (absurd h.1) fun h3 => by omega

/-- A register of ENC with a value answers it, but for the RW ones while BUSY. -/
theorem State.hostRead_enc_value (hno : no ≠ 0) {v : Word} (hv : s.enc.readReg no = some v)
    (hread : s.enc.ctl.state ≠ .busy ∨ 7 ≤ no) : s.hostRead .enc no = .next (s.answer (.word v)) := by
  rw [State.hostRead_enc_eq _ no hno, hv]
  exact if_neg fun h => hread.elim (absurd h.1) fun h7 => by omega

end Reads

/-- An 8-bit register reads zero-extended (log 9). -/
theorem toNat_setWidth_byte (b : Byte) : (b.setWidth 32).toNat = b.toNat := by
  rw [BitVec.toNat_setWidth]
  exact Nat.mod_eq_of_lt (b.isLt.trans (by decide))

/-- The values of DEC's registers 2 to 8, as numbers (10_state R31). -/
theorem Dec.readReg_value (d : Dec) {k : Nat} (hk : k < 7) : ∃ v, d.readReg (2 + k) = some v ∧
    v.toNat = [d.inSize.toNat, d.width.toNat, d.height.toNat, d.channels.toNat, d.colorspace.toNat, d.ctl.outCount.toNat,
      d.ctl.errInfo.toNat].getD k 0 := by
  match k, hk with
  | 0, _ | 1, _ | 2, _ | 5, _ | 6, _ => exact ⟨_, rfl, rfl⟩
  | 3, _ | 4, _ => exact ⟨_, rfl, toNat_setWidth_byte _⟩

/-- The values of ENC's registers 2 to 8, as numbers (10_state R31). -/
theorem Enc.readReg_value (e : Enc) {k : Nat} (hk : k < 7) : ∃ v, e.readReg (2 + k) = some v ∧
    v.toNat = [e.pixLen.toNat, e.width.toNat, e.height.toNat, e.channels.toNat, e.colorspace.toNat, e.ctl.outCount.toNat,
      e.ctl.errInfo.toNat].getD k 0 := by
  match k, hk with
  | 0, _ | 1, _ | 2, _ | 5, _ | 6, _ => exact ⟨_, rfl, rfl⟩
  | 3, _ | 4, _ => exact ⟨_, rfl, toNat_setWidth_byte _⟩

/-- Settles O47: `CMD` is refused, a number without value and an RW register of a BUSY engine answer free values, and every other
register its value. -/
theorem registerReadsAnswerTheirValues : Obligations.RegisterReadsAnswerTheirValues := by
  unfold Obligations.RegisterReadsAnswerTheirValues
  intro s rest no e hnext answersFree answers
  have hstep := step_readReg hnext
  refine ⟨?_, fun h9 => hstep.trans (State.hostRead_reserved e h9), ?_, ?_, ?_, ?_⟩
  · rintro rfl
    exact hstep
  · rintro rfl hbusy rfl
    exact hstep.trans (State.hostRead_dec_busy hbusy)
  · rintro rfl hbusy hlo hhi
    exact hstep.trans (State.hostRead_enc_busy hbusy hlo hhi)
  · rintro k rfl hread rfl hk
    obtain ⟨v, hv, hval⟩ := s.dec.readReg_value hk
    exact ⟨v, hstep.trans (State.hostRead_dec_value (by omega) hv hread), hval⟩
  · rintro k rfl hread rfl hk
    obtain ⟨v, hv, hval⟩ := s.enc.readReg_value hk
    exact ⟨v, hstep.trans (State.hostRead_enc_value (by omega) hv hread), hval⟩

/-- Settles O48: a read of an output space that is not DONE answers from the free counter alone. -/
theorem unfinishedOutputsTellTheHostNothing : Obligations.UnfinishedOutputsTellTheHostNothing := by
  unfold Obligations.UnfinishedOutputsTellTheHostNothing
  intro s rest k other
  refine ⟨fun hnext => ?_, fun hnext => ?_⟩
  · have hread : step { s with decOut := other } = State.readOutPixel { s with agenda := rest, decOut := other } k :=
      step_host { s with decOut := other } _ rest hnext
    rw [step_host s _ rest hnext, hread]
    exact ⟨fun hdone hk => (if_pos hdone).trans (if_pos hk), fun hrun => ⟨_, _, if_neg hrun, if_neg hrun, rfl⟩⟩
  · have hread : step { s with encBytes := other } = State.readOutByte { s with agenda := rest, encBytes := other } k :=
      step_host { s with encBytes := other } _ rest hnext
    rw [step_host s _ rest hnext, hread]
    exact ⟨fun hdone hk => (if_pos hdone).trans (if_pos hk), fun hrun => ⟨_, _, if_neg hrun, if_neg hrun, rfl⟩⟩

end Sys2Proof.Machine
end
